-- ==== Sys2Proof/Word.lean ====
section
/-! DEFINITION. The data types the registers and memory cells of the block are made of (10_state.md, decision D10). -/

namespace Sys2Proof

/-- One cell of `Window`, one byte of input or of packed output (R43). -/
abbrev Byte := BitVec 8

/-- A window position, `INDEX_BITS = 10` bits: arithmetic on it is arithmetic modulo `W = 1024` (R13, R31). -/
abbrev Pos := BitVec 10

/-- A 5-bit counter: `aheadBytes`, `matchLen`, `replCnt`, `advCnt`, `i`, `bestLen` (R32 to R38). -/
abbrev Cnt := BitVec 5

/-- A `Node` index `0 .. W`, what an 11-bit node field or scratch register holds (R38, R39, R44, R73). -/
abbrev NodeIx := Fin 1025

end Sys2Proof
end

