-- ==== Sys2Proof/Config.lean ====
section
/-! DEFINITION. The parameters of the block, fixed for `LZSS-ENC(INDEX_BITS=10, LENGTH_BITS=4)` (00_scope.md R6 to R11). -/

namespace Sys2Proof

/-- A pair of primary parameters (R6). The hardware has one pair, `Config.params`; the type exists so that the
derivations R6 to R9 and the constraints R11 are written once, for any pair. -/
structure Params where
  indexBits  : Nat
  lengthBits : Nat
  deriving DecidableEq, Repr

/-- `W = 1 << INDEX_BITS` (R6). -/
def Params.window (p : Params) : Nat := 1 <<< p.indexBits

/-- `RAW_LOOK_AHEAD = 1 << LENGTH_BITS` (R6). -/
def Params.rawLookAhead (p : Params) : Nat := 1 <<< p.lengthBits

/-- `BREAK_EVEN = (1 + INDEX_BITS + LENGTH_BITS) / 9`, integer division (R7). -/
def Params.breakEven (p : Params) : Nat := (1 + p.indexBits + p.lengthBits) / 9

/-- `LOOK_AHEAD = RAW_LOOK_AHEAD + BREAK_EVEN` (R8). -/
def Params.lookAhead (p : Params) : Nat := p.rawLookAhead + p.breakEven

/-- The constraints a parameter pair must meet, (a) to (d) of R11; every other pair is refused (R10, R283, D11). -/
def Params.admissible (p : Params) : Bool :=
  decide (1 ≤ p.breakEven) && decide (1 + p.lookAhead ≤ p.window) && decide (p.lookAhead < p.window) &&
  decide (p.lookAhead % p.window ≠ 0) &&
  decide (1 ≤ p.indexBits ∧ p.indexBits ≤ 32 ∧ 1 ≤ p.lengthBits ∧ p.lengthBits ≤ 32)

namespace Config

/-- The one parameter pair of this hardware (R6, R10). -/
def params : Params := { indexBits := 10, lengthBits := 4 }

/-- `INDEX_BITS` (R6). -/
abbrev indexBits : Nat := 10
/-- `LENGTH_BITS` (R6). -/
abbrev lengthBits : Nat := 4
/-- `W` (R6). -/
abbrev windowSize : Nat := 1024
/-- `BREAK_EVEN` (R7). -/
abbrev breakEven : Nat := 1
/-- `LOOK_AHEAD` (R8). -/
abbrev lookAhead : Nat := 17
/-- `TREE_ROOT = W`, the index of the permanent root record (R9, R79). -/
abbrev treeRoot : NodeIx := 1024
/-- `UNUSED = 0`, no child or no parent (R9). -/
abbrev unused : NodeIx := 0
/-- `END_OF_STREAM = 0`, the position field of the terminator (R9, R104). -/
abbrev endOfStream : BitVec 32 := 0
/-- What a `Window` cell holds after reset (R43, R80, decision D3). -/
abbrev windowReset : Byte := 0

end Config
end Sys2Proof
end

