-- ==== Sys2Proof/Syntax.lean ====
section
/-! DEFINITION. The operations and wire records of spec/opcode_table.json as one inductive, and the form in which one of
them is presented to the block. The block has no instruction stream (R1, R84, R113); see notes/assumptions/1.md. -/

namespace Sys2Proof

/-- One constructor per row of spec/opcode_table.json. -/
inductive Instr where
  /-- LITERAL, the wire record `1` + byte (R102). -/
  | literal (b : Byte)
  /-- MATCH, the wire record `0` + position + biased length (R103); `len` is the field, `matchLen - 2` (R106). -/
  | matchRecord (pos : Pos) (len : BitVec 4)
  /-- EOS, the terminator record (R104). -/
  | eos
  /-- ReadByte (R130). -/
  | readByte
  /-- WriteBit (R132). -/
  | writeBit (b : Bool)
  /-- WriteBits (R133); `k` is `1 .. 32`. -/
  | writeBits (v : BitVec 32) (k : Nat)
  /-- Flush (R136). -/
  | flush
  /-- InitTree (R150); `rootChild` is `1 .. 1023`. -/
  | initTree (rootChild : Pos)
  /-- ContractNode (R151). -/
  | contractNode (old new : NodeIx)
  /-- ReplaceNode (R152). -/
  | replaceNode (old new : NodeIx)
  /-- FindNextNode (R153). -/
  | findNextNode (n : NodeIx)
  /-- DeleteNode (R154). -/
  | deleteNode (n : Pos)
  /-- Compare (R181); `test` is `1 .. 1023`. -/
  | compare (new test : Pos)
  /-- AddNode (R182). -/
  | addNode (new : Pos)
  /-- Prefill, one turn of phase A (R201). -/
  | prefill
  /-- EmitLiteral (R204). -/
  | emitLiteral
  /-- EmitMatch (R205). -/
  | emitMatch
  /-- Advance (R207). -/
  | advance
  /-- EmitEos (R209). -/
  | emitEos
  /-- CompressData, the whole run (R200). -/
  | compressData
  /-- Start, the host's `start` pin (R137). -/
  | start
  /-- Reset, the host's `rst` pin (R138). -/
  | reset
  deriving DecidableEq, Repr

/-- What is raised at the block before one step (notes/assumptions/1.md, DESIGN CHOICE). -/
inductive Request where
  /-- Nothing is raised: the sequencer takes its own step. -/
  | quiet
  /-- A wire record, as its bits in emission order (30_encoding.md R100 to R104). -/
  | record (bits : List Bool)
  /-- An operation, as the byte that holds its OPSEL number (R113) and its operand bytes (notes/assumptions/2.md). -/
  | operation (bytes : List Byte)
  deriving DecidableEq, Repr

/-- Why a request is no encoding of an instruction. -/
inductive DecodeError where
  /-- The bits end before the record does: the only malformed streams are truncated ones (R110). -/
  | truncatedRecord
  /-- The bytes end before the operands do. -/
  | truncatedOperation
  /-- The OPSEL number is none of `00001 .. 10011` (R113). -/
  | unknownOpsel
  /-- An operand field holds a value outside the operand's range in spec/opcode_table.json. -/
  | operandOutOfRange
  /-- The request is `quiet`: it asks for no instruction. -/
  | nothingRaised
  deriving DecidableEq, Repr

end Sys2Proof
end

