-- ==== Sys2Proof/WellFormed.lean ====
section
/-! DEFINITION. Which terms of `Instr` have their operands inside the ranges spec/opcode_table.json gives. Ranges that
the operand types already hold (a node index `0 .. 1024`, a position `0 .. 1023`) need no check. -/

namespace Sys2Proof

/-- The operands are in range. -/
def Instr.wf : Instr → Bool
  | .literal _        => true
  | .matchRecord p _  => decide (p ≠ 0)                 -- "0 is the terminator and is never a match position" (R109)
  | .eos              => true
  | .readByte         => true
  | .writeBit _       => true
  | .writeBits _ k    => decide (1 ≤ k ∧ k ≤ 32)        -- R133
  | .flush            => true
  | .initTree p       => decide (p ≠ 0)                 -- R150
  | .contractNode _ _ => true
  | .replaceNode _ _  => true
  | .findNextNode _   => true
  | .deleteNode _     => true
  | .compare _ t      => decide (t ≠ 0)                 -- the row's operands: test 1..1023
  | .addNode _        => true
  | .prefill          => true
  | .emitLiteral      => true
  | .emitMatch        => true
  | .advance          => true
  | .emitEos          => true
  | .compressData     => true
  | .start            => true
  | .reset            => true

end Sys2Proof
end

