-- ==== Sys2Proof/Decode.lean ====
section
/-! DEFINITION. Reading an instruction from its bits and writing it back: the wire records of 30_encoding.md (R100 to
R112) and the operations under their OPSEL numbers (R113). Both readers are total and reject by name. -/

namespace Sys2Proof

/-! ## Bits in emission order (R12: the leftmost bit is the first one emitted, most significant first) -/

/-- The low `k` bits of `v`, most significant first. -/
def msbBits : Nat → Nat → List Bool
  | 0, _ => []
  | k + 1, v => v.testBit k :: msbBits k v

/-- The number whose bits, most significant first, follow `acc`. -/
def msbValue (acc : Nat) : List Bool → Nat
  | [] => acc
  | b :: t => msbValue (2 * acc + b.toNat) t

/-- The first `k` bits as a number and the bits after them; nothing when there are fewer. -/
def takeBits (k : Nat) (bits : List Bool) : Option (Nat × List Bool) :=
  if bits.length < k then none else some (msbValue 0 (bits.take k), bits.drop k)

/-! ## Wire records -/

/-- One record at the head of a bit stream and the bits after it, as R108 tells a reader to parse it. -/
def decodeRecord : List Bool → Except DecodeError (Instr × List Bool)
  | [] => .error .truncatedRecord
  | true :: t =>
    match takeBits 8 t with
    | none => .error .truncatedRecord
    | some (b, r) => .ok (.literal (BitVec.ofNat 8 b), r)
  | false :: t =>
    match takeBits Config.indexBits t with
    | none => .error .truncatedRecord
    | some (p, r) =>
      if p = 0 then .ok (.eos, r)
      else
        match takeBits Config.lengthBits r with
        | none => .error .truncatedRecord
        | some (l, r') => .ok (.matchRecord (BitVec.ofNat 10 p) (BitVec.ofNat 4 l), r')

/-- The records of a stream up to and including the first terminator, and the bits after it (R100, R108, R111);
`fuel` bounds the number of records, and `decodeStream` below gives it one more than the number of bits. -/
def decodeRecords : Nat → List Bool → Except DecodeError (List Instr × List Bool)
  | 0, _ => .error .truncatedRecord
  | fuel + 1, bits =>
    match decodeRecord bits with
    | .error e => .error e
    | .ok (.eos, r) => .ok ([.eos], r)
    | .ok (i, r) =>
      match decodeRecords fuel r with
      | .error e => .error e
      | .ok (is, r') => .ok (i :: is, r')

/-- A whole stream (R108). -/
def decodeStream (bits : List Bool) : Except DecodeError (List Instr × List Bool) :=
  decodeRecords (bits.length + 1) bits

/-! ## Operations: the OPSEL byte, then operand fields, least significant byte first (notes/assumptions/2.md) -/

/-- The number in the first `n` bytes, least significant byte first, and the bytes after them. -/
def takeField : Nat → List Byte → Except DecodeError (Nat × List Byte)
  | 0, t => .ok (0, t)
  | _ + 1, [] => .error .truncatedOperation
  | n + 1, b :: t =>
    match takeField n t with
    | .error e => .error e
    | .ok (v, r) => .ok (b.toNat + 256 * v, r)

/-- A two-byte node index `0 .. 1024`. -/
def takeNode (t : List Byte) : Except DecodeError (NodeIx × List Byte) :=
  match takeField 2 t with
  | .error e => .error e
  | .ok (v, r) => if h : v < 1025 then .ok (⟨v, h⟩, r) else .error .operandOutOfRange

/-- A two-byte position `base .. 1023`, held as the value less `base`. -/
def takePos (base : Nat) (t : List Byte) : Except DecodeError (Pos × List Byte) :=
  match takeField 2 t with
  | .error e => .error e
  | .ok (v, r) => if v + base < Config.windowSize then .ok (BitVec.ofNat 10 (v + base), r) else .error .operandOutOfRange

/-- A one-byte bit. -/
def takeFlag (t : List Byte) : Except DecodeError (Bool × List Byte) :=
  match takeField 1 t with
  | .error e => .error e
  | .ok (v, r) => if v < 2 then .ok (v == 1, r) else .error .operandOutOfRange

/-- A one-byte bit count `1 .. 32`, held as the count less 1. -/
def takeCount (t : List Byte) : Except DecodeError (Nat × List Byte) :=
  match takeField 1 t with
  | .error e => .error e
  | .ok (v, r) => if v < 32 then .ok (v + 1, r) else .error .operandOutOfRange

/-- The operation a list of bytes begins with, and the bytes after it (R113 numbers the operations). -/
def decodeOperation : List Byte → Except DecodeError (Instr × List Byte)
  | [] => .error .truncatedOperation
  | op :: t =>
    match op.toNat with
    | 0b00001 => .ok (.readByte, t)
    | 0b00010 => do let (b, r) ← takeFlag t; .ok (.writeBit b, r)
    | 0b00011 => do let (v, r) ← takeField 4 t; let (k, r) ← takeCount r; .ok (.writeBits (BitVec.ofNat 32 v) k, r)
    | 0b00100 => .ok (.flush, t)
    | 0b00101 => do let (p, r) ← takePos 1 t; .ok (.initTree p, r)
    | 0b00110 => do let (o, r) ← takeNode t; let (n, r) ← takeNode r; .ok (.contractNode o n, r)
    | 0b00111 => do let (o, r) ← takeNode t; let (n, r) ← takeNode r; .ok (.replaceNode o n, r)
    | 0b01000 => do let (n, r) ← takeNode t; .ok (.findNextNode n, r)
    | 0b01001 => do let (p, r) ← takePos 0 t; .ok (.deleteNode p, r)
    | 0b01010 => do let (n, r) ← takePos 0 t; let (c, r) ← takePos 1 r; .ok (.compare n c, r)
    | 0b01011 => do let (p, r) ← takePos 0 t; .ok (.addNode p, r)
    | 0b01100 => .ok (.prefill, t)
    | 0b01101 => .ok (.emitLiteral, t)
    | 0b01110 => .ok (.emitMatch, t)
    | 0b01111 => .ok (.advance, t)
    | 0b10000 => .ok (.emitEos, t)
    | 0b10001 => .ok (.compressData, t)
    | 0b10010 => .ok (.start, t)
    | 0b10011 => .ok (.reset, t)
    | _ => .error .unknownOpsel

/-- The instruction a request asks for. What stands after the instruction in the request is not read. -/
def decode : Request → Except DecodeError Instr
  | .quiet => .error .nothingRaised
  | .record bits =>
    match decodeRecord bits with
    | .error e => .error e
    | .ok (i, _) => .ok i
  | .operation bytes =>
    match decodeOperation bytes with
    | .error e => .error e
    | .ok (i, _) => .ok i

/-! ## Encoding -/

/-- The bits of a literal record (R102). -/
def literalBits (b : Byte) : List Bool := true :: msbBits 8 b.toNat
/-- The bits of a match record (R103); `len` is the biased length field (R106). -/
def matchBits (pos : Pos) (len : BitVec 4) : List Bool :=
  false :: (msbBits Config.indexBits pos.toNat ++ msbBits Config.lengthBits len.toNat)
/-- The bits of the terminator (R104): no length field follows. -/
def eosBits : List Bool := false :: msbBits Config.indexBits 0

/-- `n` bytes of `v`, least significant first. -/
def fieldBytes : Nat → Nat → List Byte
  | 0, _ => []
  | n + 1, v => BitVec.ofNat 8 v :: fieldBytes n (v / 256)

/-- The OPSEL number of an operation (R113); a wire record has none. -/
def Instr.opsel : Instr → Option (BitVec 5)
  | .literal _        => none
  | .matchRecord _ _  => none
  | .eos              => none
  | .readByte         => some 0b00001
  | .writeBit _       => some 0b00010
  | .writeBits _ _    => some 0b00011
  | .flush            => some 0b00100
  | .initTree _       => some 0b00101
  | .contractNode _ _ => some 0b00110
  | .replaceNode _ _  => some 0b00111
  | .findNextNode _   => some 0b01000
  | .deleteNode _     => some 0b01001
  | .compare _ _      => some 0b01010
  | .addNode _        => some 0b01011
  | .prefill          => some 0b01100
  | .emitLiteral      => some 0b01101
  | .emitMatch        => some 0b01110
  | .advance          => some 0b01111
  | .emitEos          => some 0b10000
  | .compressData     => some 0b10001
  | .start            => some 0b10010
  | .reset            => some 0b10011

/-- The operand bytes of an operation (notes/assumptions/2.md). -/
def Instr.operandBytes : Instr → List Byte
  | .literal _        => []
  | .matchRecord _ _  => []
  | .eos              => []
  | .readByte         => []
  | .writeBit b       => fieldBytes 1 b.toNat
  | .writeBits v k    => fieldBytes 4 v.toNat ++ fieldBytes 1 (k - 1)
  | .flush            => []
  | .initTree p       => fieldBytes 2 (p.toNat - 1)
  | .contractNode o n => fieldBytes 2 o.val ++ fieldBytes 2 n.val
  | .replaceNode o n  => fieldBytes 2 o.val ++ fieldBytes 2 n.val
  | .findNextNode n   => fieldBytes 2 n.val
  | .deleteNode p     => fieldBytes 2 p.toNat
  | .compare n t      => fieldBytes 2 n.toNat ++ fieldBytes 2 (t.toNat - 1)
  | .addNode p        => fieldBytes 2 p.toNat
  | .prefill          => []
  | .emitLiteral      => []
  | .emitMatch        => []
  | .advance          => []
  | .emitEos          => []
  | .compressData     => []
  | .start            => []
  | .reset            => []

/-- The bits of a wire record in emission order; an operation has none. -/
def Instr.recordBits : Instr → Option (List Bool)
  | .literal b       => some (literalBits b)
  | .matchRecord p l => some (matchBits p l)
  | .eos             => some eosBits
  | _                => none

/-- The request that asks for an instruction. -/
def encode (i : Instr) : Request :=
  match i.recordBits with
  | some bits => .record bits
  | none =>
    match i.opsel with
    | some op => .operation (op.setWidth 8 :: i.operandBytes)
    | none => .quiet

/-! ## The numbers of spec/opcode_table.json -/

/-- The length of the record that a table number of whole bytes stands for. The table gives records of 9, 11 and 15
bits and reads each as a number with its first emitted bit most significant; a number rounded up to 16 bits does not
say which, and notes/assumptions/3.md says how this is settled (0 where no row has such a number). -/
def tableRecordLength (nbits w : Nat) : Nat :=
  if nbits < 16 then nbits
  else if w = 0 then 11
  else if 0x100 ≤ w ∧ w < 0x200 then 9
  else if w < 0x4000 then 15
  else 0

/-- The request a word of the table stands for: up to 8 bits the OPSEL byte of an operation, whose operand bytes are
then zero; more bits a wire record. -/
def requestOfTableWord (nbits w : Nat) : Request :=
  if nbits ≤ 8 then .operation (fieldBytes 6 w)
  else .record (msbBits (tableRecordLength nbits w) w)

/-- The instruction the decoder reads from a word of the table. -/
def decodeTableWord (nbits w : Nat) : Option Instr :=
  match decode (requestOfTableWord nbits w) with
  | .ok i => some i
  | .error _ => none

end Sys2Proof
end

