-- ==== Sys2Proof/Machine/State.lean ====
section
/-! DEFINITION. The state of the block as plain data (10_state.md R30 to R51), the environment's answers and the host's
requests beside it, the reasons a step can stop, and the reset state (70_reset_and_hazards.md R270). -/

namespace Sys2Proof.Machine

/-- The sequencer state, "where execution is" (R40). -/
inductive SeqState where
  | idle    -- S_IDLE = 0
  | fill    -- S_FILL = 1
  | init    -- S_INIT = 2
  | emit    -- S_EMIT = 3
  | adv     -- S_ADV = 4
  | eos     -- S_EOS = 5
  | done    -- S_DONE = 6
  | fault   -- S_FAULT = 7
  deriving DecidableEq, Repr

/-- The fault cause (R241). -/
inductive Cause where
  | noFault             -- 0
  | outputWriteError    -- 1
  | inputReadError      -- 2
  | invariantViolation  -- 3
  deriving DecidableEq, Repr

/-- The answer to a `ReadByte` transaction (R130). -/
inductive Answer where
  | byte (b : Byte)
  | eoi
  | err
  deriving DecidableEq, Repr

/-- What the environment drives on the input port in answer to one request: `in_ack`, `in_data`, `in_eoi`, `in_err` (R134).
`ack = false` is a request that is never answered (R18, R252). -/
structure InItem where
  ack  : Bool
  data : Byte
  eoi  : Bool
  err  : Bool
  deriving DecidableEq, Repr

/-- What the environment drives on the bit sink in answer to one offered bit: `out_ack`, `out_err` (R134).
Both false is a bit that is never answered (R18, R252). -/
structure OutItem where
  ack : Bool
  err : Bool
  deriving DecidableEq, Repr

/-- One answered port transaction, the unit of the observation of R17. -/
inductive Event where
  /-- A `ReadByte` and its answer. -/
  | read (a : Answer)
  /-- A `WriteBit` the sink took. -/
  | bit (b : Bool)
  /-- A `WriteBit` the sink refused; the bit is not part of the output (R242). -/
  | bitRefused (b : Bool)
  deriving DecidableEq, Repr

/-- The one port transaction that may be outstanding and unanswered (R134): `in_req`, or `out_valid` with `out_bit`. -/
inductive Wait where
  | read
  | bit (b : Bool)
  deriving DecidableEq, Repr

/-- The value an operation returned when it was performed as a request (notes/assumptions/9.md). -/
inductive OpResult where
  | nothing
  | item (a : Answer)
  | node (n : NodeIx)
  | difference (i : Cnt) (delta : BitVec 16)
  | best (len : Cnt) (pos : Pos)
  deriving DecidableEq, Repr

/-- One record of `Node` (R44). -/
structure NodeRec where
  parent     : NodeIx
  smallChild : NodeIx
  largeChild : NodeIx
  deriving DecidableEq, Repr

/-- All three fields `UNUSED`: what every record holds after reset and what clearing a record writes (R44, R151, R152). -/
def NodeRec.zero : NodeRec := { parent := 0, smallChild := 0, largeChild := 0 }

/-- `Window` as a canonical list of cells; an unlisted address reads as `Config.windowReset` (R43, R80). -/
abbrev Memory := List Host.Cell

/-- `Node` as a canonical list of records; an unlisted address reads as `NodeRec.zero` (R44). -/
abbrev NodeMemory := List (Nat × NodeRec)

/-- The state of the block (R30), the bookkeeping the spec asks for (R17, R51), the outstanding transaction (R134), and the
model's own fields: the environment's answers, the requests, and the last result. -/
structure State where
  -- driver registers (R31 to R37)
  winPos     : Pos
  aheadBytes : Cnt
  matchLen   : Cnt
  matchPos   : Pos
  eos        : Bool
  replCnt    : Cnt
  advCnt     : Cnt
  -- scratch registers (R38, R39)
  testNode   : NodeIx
  i          : Cnt
  delta      : BitVec 16
  bestLen    : Cnt
  bestPos    : Pos
  par        : NodeIx
  nxt        : NodeIx
  repl       : NodeIx
  -- sequencer and flags (R40, R41)
  seq        : SeqState
  done       : Bool
  fault      : Bool
  cause      : Cause
  -- memories (R43, R44)
  window     : Memory
  node       : NodeMemory
  -- bit sink (R50)
  bsAcc      : Byte
  bsCnt      : BitVec 3
  -- outstanding transaction (R134)
  wait       : Option Wait
  -- bookkeeping (R17, R51, and the packed-byte view of R134)
  nReads     : Nat
  outBits    : List Bool
  events     : List Event
  outBytes   : List Byte
  -- the model's own: environment (R16, R131), requests, result
  inPort     : List InItem
  outPort    : List OutItem
  inEnded    : Bool
  reqs       : List Request
  result     : OpResult
  deriving DecidableEq, Repr

/-- Where a step has no next state because the operation never ends: a stuck machine, under a name. No state that the
tree invariant of R47 holds in reaches one. All three are safe: the model stops where the hardware would loop for ever. -/
inductive Fault where
  /-- Raised by FindNextNode (and DeleteNode, Advance, CompressData through it): the chain of `largeChild` links is a
  cycle, so the walk never ends (notes/assumptions/12.md). Safe. -/
  | walkNeverEnds
  /-- Raised by AddNode (and Advance, CompressData through it): the links followed by the search are a cycle, so it never
  ends (notes/assumptions/12.md). Safe. -/
  | searchNeverEnds
  /-- Raised by CompressData: the sequencer did not stop within the bound the model gives a run
  (notes/assumptions/11.md). Safe. -/
  | runNeverEnds
  deriving DecidableEq, Repr

/-- What the spec says a model should refuse rather than give meaning to, under a name. All are safe: no claim is proved
of a run the model does not have. -/
inductive Refusal where
  /-- Raised by exec for an instruction that has no meaning yet. Safe. -/
  | notModelled (mnemonic : String)
  /-- Raised by step for a request that is no encoding of an instruction (notes/assumptions/1.md). Safe. -/
  | badRequest (e : DecodeError)
  /-- Raised by ReadByte (and Prefill, Advance, CompressData through it): the environment answers a byte after the end of
  input, "the model should refuse such an input rather than give it meaning" (R131). Safe. -/
  | byteAfterEndOfInput
  /-- Raised by WriteBits: `k = 0` or `k > 32`, "outside the contract ...; a model should refuse them" (R133). Safe. -/
  | bitCountOutsideContract
  /-- Raised by InitTree: `rootChild = 0`, "it never happens and a model should refuse it" (R150). Safe. -/
  | initTreeAtPositionZero
  deriving DecidableEq, Repr

/-- The state right after reset (R270): `winPos = 1` and zero everywhere else; nothing listed in either memory. The
environment's lists, the requests and the result are empty (notes/assumptions/4.md, 1.md, 9.md). -/
def State.reset : State where
  winPos     := 1
  aheadBytes := 0
  matchLen   := 0
  matchPos   := 0
  eos        := false
  replCnt    := 0
  advCnt     := 0
  testNode   := 0
  i          := 0
  delta      := 0
  bestLen    := 0
  bestPos    := 0
  par        := 0
  nxt        := 0
  repl       := 0
  seq        := .idle
  done       := false
  fault      := false
  cause      := .noFault
  window     := []
  node       := []
  bsAcc      := 0
  bsCnt      := 0
  wait       := none
  nReads     := 0
  outBits    := []
  events     := []
  outBytes   := []
  inPort     := []
  outPort    := []
  inEnded    := false
  reqs       := []
  result     := .nothing

end Sys2Proof.Machine
end

