-- ==== Sys2Proof/Machine/Operands.lean ====
section
/-! DEFINITION. Every form of address and operand the rules form: window addresses modulo `W` (R71), node addresses (R73),
the fields handed to the bit sink (R105 to R107), the difference of two key bytes (R181, R287), and what the environment's
port signals answer (R134). -/

namespace Sys2Proof.Machine

/-- The node record of a window position: the same number (R70). -/
def posToNode (p : Pos) : NodeIx := ⟨p.toNat, by have := p.isLt; omega⟩

/-- A node index as a window position, its low 10 bits (R71; R38 gives `bestPos` 10 bits; notes/assumptions/15.md). -/
def nodeToPos (n : NodeIx) : Pos := BitVec.ofNat 10 n.val

/-- `(p + k) mod W`, the address of a window cell `k` cells after `p` (R71). -/
def windowAt (p : Pos) (k : Cnt) : Pos := p + k.setWidth 10

/-- `LOOK_AHEAD` as an offset. -/
def lookAheadOffset : Cnt := BitVec.ofNat 5 Config.lookAhead

/-- The address of the fill slot, also the operand of the advance's `DeleteNode`: `(winPos + LOOK_AHEAD) mod W` (R76, R207). -/
def fillSlot (winPos : Pos) : Pos := windowAt winPos lookAheadOffset

/-- The difference of two key bytes: each widened with zeros, then subtracted in 16-bit two's complement (R181, R287). -/
def byteDifference (a b : Byte) : BitVec 16 := a.setWidth 16 - b.setWidth 16

/-- The literal field (R107). -/
def literalOperand (b : Byte) : BitVec 32 := b.setWidth 32

/-- The position field (R105). -/
def positionOperand (p : Pos) : BitVec 32 := p.setWidth 32

/-- The length field before truncation to 4 bits: `zext_32(matchLen - (BREAK_EVEN + 1))` (R106, R205). -/
def lengthOperand (m : Cnt) : BitVec 32 := (m - BitVec.ofNat 5 (Config.breakEven + 1)).setWidth 32

/-- The 4-bit length field of a match of length `m` (R106). -/
def lengthField (m : Cnt) : BitVec 4 := (m - BitVec.ofNat 5 (Config.breakEven + 1)).setWidth 4

/-- What the input port answers: nothing without `in_ack`; `in_err` overrides `in_eoi`, `in_eoi` overrides `in_data` (R134, R247). -/
def InItem.answer (x : InItem) : Option Answer :=
  if x.ack = false then none
  else if x.err then some .err
  else if x.eoi then some .eoi
  else some (.byte x.data)

/-- What the sink answers to an offered bit: refused with `out_err`, taken with `out_ack` alone, else nothing (R134;
notes/assumptions/7.md). `true` is taken. -/
def OutItem.answer (x : OutItem) : Option Bool :=
  if x.err then some false
  else if x.ack then some true
  else none

/-- The answer an input port gives that has no more items: the end of input, for ever (R131; notes/assumptions/4.md). -/
def InItem.endOfInput : InItem := { ack := true, data := 0, eoi := true, err := false }

/-- The answer of a sink that takes the bit (notes/assumptions/4.md). -/
def OutItem.taken : OutItem := { ack := true, err := false }

/-- The answer to the next `ReadByte`. -/
def State.nextInput (s : State) : Option Answer := (s.inPort.headD InItem.endOfInput).answer

/-- The answer to the next `WriteBit`. -/
def State.nextSink (s : State) : Option Bool := (s.outPort.headD OutItem.taken).answer

end Sys2Proof.Machine
end

