-- ==== Sys2Proof/Machine/Flags.lean ====
section
/-! DEFINITION. The status flags, the status word and the output signals computed from State (10_state.md R40 to R42,
60_exceptions.md R241, 40_io_ports.md R134), and the sign of `delta` (R182). -/

namespace Sys2Proof.Machine

/-- The numbers of R40. -/
def SeqState.code : SeqState → BitVec 3
  | .idle  => 0
  | .fill  => 1
  | .init  => 2
  | .emit  => 3
  | .adv   => 4
  | .eos   => 5
  | .done  => 6
  | .fault => 7

/-- The numbers of R241. -/
def Cause.code : Cause → BitVec 2
  | .noFault            => 0
  | .outputWriteError   => 1
  | .inputReadError     => 2
  | .invariantViolation => 3

/-- The status word: bits `[7:6] = cause`, `[5] = fault`, `[4] = done`, `[3] = eos`, `[2:0] = seq` (R42). -/
def State.statusWord (s : State) : BitVec 8 :=
  s.cause.code ++ BitVec.ofBool s.fault ++ BitVec.ofBool s.done ++ BitVec.ofBool s.eos ++ s.seq.code

/-- `in_req`: a read is asked for and not answered (R134). -/
def State.inReq (s : State) : Bool := s.wait == some .read

/-- `out_valid`: a bit is offered and not answered (R134). -/
def State.outValid (s : State) : Bool := s.wait == some (.bit false) || s.wait == some (.bit true)

/-- `out_bit`: the bit offered (R134). While `out_valid` is 0 no bit is offered and R134 does not say what `out_bit` is; that it is
0 then is the model's own choice, DESIGN CHOICE, notes/assumptions/21.md. -/
def State.outBit (s : State) : Bool := s.wait == some (.bit true)

/-- The block takes no further step of its own: it is done (R212), stopped on a fault (R246), or waits for an answer that
does not come (R18, R252). Only Reset leaves such a state (R138, R273). -/
def State.stopped (s : State) : Bool := s.wait.isSome || s.seq == .done || s.seq == .fault

/-- `delta >= 0`: the sign of `delta` as a signed 16-bit number chooses the child to descend into (R182, R287). -/
def deltaNotNegative (delta : BitVec 16) : Bool := !delta.msb

/-- The liveness of a slot (R46): 1 to 1023 with a parent. -/
def liveRecord (n : NodeIx) (r : NodeRec) : Bool := n != Config.unused && n != Config.treeRoot && r.parent != Config.unused

end Sys2Proof.Machine
end

