-- ==== Sys2Proof/Machine/Ops.lean ====
section
/-! DEFINITION. The shared operations: the two memories, taking a fault, the port transactions, the bit sink. The
meanings of the families are written over these. -/

namespace Sys2Proof.Machine

/-! ## Sparse memories: a canonical list of (address, value), an unlisted address reading as the reset value `d` -/

/-- The value at an address. -/
def sparseRead {α : Type} (d : α) : List (Nat × α) → Nat → α
  | [], _ => d
  | (k, v) :: t, a => if k = a then v else sparseRead d t a

/-- The list with an entry put in front of the first larger address. -/
def sparseInsert {α : Type} (a : Nat) (v : α) : List (Nat × α) → List (Nat × α)
  | [] => [(a, v)]
  | (k, w) :: t => if a < k then (a, v) :: (k, w) :: t else (k, w) :: sparseInsert a v t

/-- The list without the entries of an address. -/
def sparseErase {α : Type} (a : Nat) : List (Nat × α) → List (Nat × α)
  | [] => []
  | (k, w) :: t => if k = a then sparseErase a t else (k, w) :: sparseErase a t

/-- Writing keeps the canonical form: writing the reset value removes the entry. -/
def sparseWrite {α : Type} [DecidableEq α] (d : α) (m : List (Nat × α)) (a : Nat) (v : α) : List (Nat × α) :=
  if v = d then sparseErase a m else sparseInsert a v (sparseErase a m)

/-- The canonical form: addresses strictly rising from `lo` and below `size`, no entry equal to the reset value. -/
def sparseWf {α : Type} [DecidableEq α] (d : α) (size lo : Nat) : List (Nat × α) → Bool
  | [] => true
  | (k, v) :: t => decide (lo ≤ k) && decide (k < size) && decide (v ≠ d) && sparseWf d size (k + 1) t

/-- `Window[a]` (R74, R80). -/
def Memory.read (m : Memory) (a : Pos) : Byte := sparseRead Config.windowReset m a.toNat
/-- `Window[a] <- v` (R74). -/
def Memory.write (m : Memory) (a : Pos) (v : Byte) : Memory := sparseWrite Config.windowReset m a.toNat v
/-- The canonical form of `Window`: 1024 addresses (R70). -/
def Memory.wf (m : Memory) : Bool := sparseWf Config.windowReset Config.windowSize 0 m

/-- `Node[n]` (R73). -/
def NodeMemory.read (m : NodeMemory) (n : NodeIx) : NodeRec := sparseRead NodeRec.zero m n.val
/-- `Node[n] <- r`, all three fields (R74). -/
def NodeMemory.write (m : NodeMemory) (n : NodeIx) (r : NodeRec) : NodeMemory := sparseWrite NodeRec.zero m n.val r
/-- The canonical form of `Node`: 1025 addresses (R70). -/
def NodeMemory.wf (m : NodeMemory) : Bool := sparseWf NodeRec.zero (Config.windowSize + 1) 0 m

/-! ## Access to the memories through State -/

/-- `Window[a]`. -/
def State.byteAt (s : State) (a : Pos) : Byte := Memory.read s.window a
/-- `Window[a] <- v`. -/
def State.putByte (s : State) (a : Pos) (v : Byte) : State := { s with window := Memory.write s.window a v }
/-- `Node[n]`. -/
def State.nodeAt (s : State) (n : NodeIx) : NodeRec := NodeMemory.read s.node n
/-- `Node[n] <- r`. -/
def State.putNode (s : State) (n : NodeIx) (r : NodeRec) : State := { s with node := NodeMemory.write s.node n r }
/-- `Node[n].parent <- v`. -/
def State.putParent (s : State) (n v : NodeIx) : State := s.putNode n { s.nodeAt n with parent := v }
/-- `Node[n].smallChild <- v`. -/
def State.putSmall (s : State) (n v : NodeIx) : State := s.putNode n { s.nodeAt n with smallChild := v }
/-- `Node[n].largeChild <- v`. -/
def State.putLarge (s : State) (n v : NodeIx) : State := s.putNode n { s.nodeAt n with largeChild := v }

/-! ## The outcome of an operation inside a step -/

/-- How an operation ends: it returns; or the step ends inside it, with everything done so far kept (a fault was taken, R246, or
a port transaction is not answered, R18); or there is no next state. -/
inductive Res (α : Type) where
  | ret (a : α) (s : State)
  | stop (s : State)
  | fault (f : Fault)
  | refused (r : Refusal)
  deriving Repr

/-- `call Op(args)` and then the rest: the rest happens only if the operation returns (R14, R246). -/
def Res.andThen {α β : Type} (x : Res α) (k : α → State → Res β) : Res β :=
  match x with
  | .ret a s   => k a s
  | .stop s    => .stop s
  | .fault f   => .fault f
  | .refused r => .refused r

/-- The step that consists of one operation; `k` says what its result does to the state. -/
def Res.outcome {α : Type} (x : Res α) (k : α → State → State) : Host.Outcome State Fault Refusal :=
  match x with
  | .ret a s   => .next (k a s)
  | .stop s    => .next s
  | .fault f   => .fault f
  | .refused r => .refused r

/-! ## Taking a fault (60_exceptions.md R246). There is no return from one (R248): only Reset leaves `S_FAULT`. -/

/-- `cause <- code(F); fault <- 1; seq <- S_FAULT`; all other state keeps its value (R246). -/
def State.enterFault (s : State) (c : Cause) : State := { s with cause := c, fault := true, seq := .fault }

/-- `raise F`: the fault is taken and nothing after it in the step happens (R246). -/
def raise {α : Type} (c : Cause) (s : State) : Res α := .stop (s.enterFault c)

/-- A port transaction that is not answered: it stays outstanding and nothing after it in the step happens (R18, R252). -/
def block {α : Type} (w : Wait) (s : State) : Res α := .stop { s with wait := some w }

/-! ## Input port (40_io_ports.md R130, R131) -/

/-- One transaction is issued: the count goes up and the environment's next answer is used up. -/
def State.issueRead (s : State) : State := { s with nReads := s.nReads + 1, inPort := s.inPort.tail }

/-- One answered transaction goes into the observation (R17). -/
def State.record (s : State) (e : Event) : State := { s with events := s.events ++ [e] }

/-- `ReadByte()` (R130). A byte after the end of input is outside the environment's contract and refused (R131). -/
def readByte (s : State) : Res Answer :=
  match s.nextInput with
  | none           => block .read s.issueRead
  | some .err      => raise .inputReadError (s.issueRead.record (.read .err))
  | some .eoi      => .ret .eoi { s.issueRead.record (.read .eoi) with inEnded := true }
  | some (.byte b) => if s.inEnded then .refused .byteAfterEndOfInput else .ret (.byte b) (s.issueRead.record (.read (.byte b)))

/-! ## Bit sink (40_io_ports.md R132 to R136) -/

/-- `bsAcc[7 - bsCnt] <- b`. -/
def placeBit (acc : Byte) (cnt : BitVec 3) (b : Bool) : Byte :=
  let at' : Byte := 0x80#8 >>> cnt.toNat
  if b then acc ||| at' else acc &&& ~~~at'

/-- `PackBit(b)` (R135): the first bit of the stream goes to bit 7; a byte is put out when its bit 0 is filled. -/
def State.packBit (s : State) (b : Bool) : State :=
  if s.bsCnt = 7 then { s with outBytes := s.outBytes ++ [placeBit s.bsAcc s.bsCnt b], bsAcc := 0, bsCnt := 0 }
  else { s with bsAcc := placeBit s.bsAcc s.bsCnt b, bsCnt := s.bsCnt + 1 }

/-- One bit is offered: the sink's next answer is used up. -/
def State.issueBit (s : State) : State := { s with outPort := s.outPort.tail }

/-- The bit is taken: it joins the output bit sequence (R132). -/
def State.appendBit (s : State) (b : Bool) : State := { s with outBits := s.outBits ++ [b] }

/-- `WriteBit(b)` (R132). -/
def writeBit (b : Bool) (s : State) : Res Unit :=
  match s.nextSink with
  | none       => block (.bit b) s.issueBit
  | some false => raise .outputWriteError (s.issueBit.record (.bitRefused b))
  | some true  => .ret () (((s.issueBit.record (.bit b)).appendBit b).packBit b)

/-- `WriteBits(v, k)` (R133): bit `k-1` of `v` first, bit 0 last. -/
def writeBits (v : BitVec 32) : Nat → State → Res Unit
  | 0, s => .ret () s
  | k + 1, s => (writeBit (v.getLsbD k) s).andThen fun _ s => writeBits v k s

/-- `Flush()` (R136): a partly filled byte is put out, its unfilled low bits 0. -/
def State.flushSink (s : State) : State :=
  if s.bsCnt = 0 then s else { s with outBytes := s.outBytes ++ [s.bsAcc], bsAcc := 0, bsCnt := 0 }

/-- Entering `S_DONE`: `done <- 1` and `Flush()` once (R212). -/
def State.enterDone (s : State) : State := ({ s with seq := .done, done := true }).flushSink

/-! ## Wire records as emissions (30_encoding.md R102 to R104) -/

/-- The flag bit, then the 8 bits of a byte (R204). -/
def emitLiteralRecord (v : BitVec 32) (s : State) : Res Unit :=
  (writeBit true s).andThen fun _ s => writeBits v 8 s

/-- The flag bit, then the position, then the length field (R205). -/
def emitMatchRecord (pos len : BitVec 32) (s : State) : Res Unit :=
  (writeBit false s).andThen fun _ s => (writeBits pos Config.indexBits s).andThen fun _ s => writeBits len Config.lengthBits s

/-- The flag bit, then `END_OF_STREAM` as `INDEX_BITS` bits, and no length field (R209). -/
def emitEosRecord (s : State) : Res Unit :=
  (writeBit false s).andThen fun _ s => writeBits Config.endOfStream Config.indexBits s

/-! ## Reset (70_reset_and_hazards.md R270, R271) -/

/-- `rst`: every piece of the block's state at its reset value. The environment's remaining answers and the host's remaining
requests are outside the block and stay (notes/assumptions/10.md). -/
def State.resetBlock (s : State) : State :=
  { State.reset with inPort := s.inPort, outPort := s.outPort, reqs := s.reqs }

end Sys2Proof.Machine
end

