-- ==== Sys2Proof/Machine/Tree.lean ====
section
/-! DEFINITION. The tree operations (41_tree_ops.md R150 to R156). They touch `Node` and the scratch registers `par`, `nxt`,
`repl`, and nothing else unless a check fails. Asked for with operands outside what their rules require (a slot that is not
live, `ReplaceNode` with `new` 0), they run their pseudocode as it stands: DESIGN CHOICE, notes/assumptions/22.md. -/

namespace Sys2Proof.Machine

/-- `InitTree(rootChild)` (R150): two records are written, no other is cleared. -/
def initTree (rootChild : Pos) (s : State) : Res Unit :=
  if rootChild = 0 then .refused .initTreeAtPositionZero
  else
    let r := posToNode rootChild
    .ret () ((s.putNode Config.treeRoot { parent := 0, smallChild := 0, largeChild := r }).putNode r
      { parent := Config.treeRoot, smallChild := 0, largeChild := 0 })

/-- `ContractNode(old, new)` (R151), its three steps in order; `largeChild` is tested first. -/
def contractNode (old new : NodeIx) (s : State) : Res Unit :=
  let par := (s.nodeAt old).parent
  let s1 := { s with par := par }.putParent new par
  if (s1.nodeAt par).largeChild = old then .ret () ((s1.putLarge par new).putNode old NodeRec.zero)
  else if (s1.nodeAt par).smallChild = old then .ret () ((s1.putSmall par new).putNode old NodeRec.zero)
  else raise .invariantViolation s1

/-- Steps 2 to 4 of `ReplaceNode` (R152): copy the record, reparent the children it names, clear the old record. -/
def State.takeOver (s : State) (old new : NodeIx) : State :=
  let s2 := s.putNode new (s.nodeAt old)
  let s3 := s2.putParent (s2.nodeAt new).smallChild new
  let s4 := s3.putParent (s3.nodeAt new).largeChild new
  s4.putNode old NodeRec.zero

/-- `ReplaceNode(old, new)` (R152), its four steps in order; `smallChild` is tested first. With `new = 0`, which R152 excludes and
no run has, the four steps run on record 0: DESIGN CHOICE, notes/assumptions/22.md. -/
def replaceNode (old new : NodeIx) (s : State) : Res Unit :=
  let par := (s.nodeAt old).parent
  let s1 := { s with par := par }
  if (s1.nodeAt par).smallChild = old then .ret () ((s1.putSmall par new).takeOver old new)
  else if (s1.nodeAt par).largeChild = old then .ret () ((s1.putLarge par new).takeOver old new)
  else raise .invariantViolation s1

/-- The walk along `largeChild` while it is not `UNUSED`. There are 1025 records, so a walk that has looked at 1025 of them
and not ended never ends (notes/assumptions/12.md). -/
def walkLarge (m : NodeMemory) : Nat → NodeIx → Option NodeIx
  | 0, _ => none
  | fuel + 1, n =>
    let next := (NodeMemory.read m n).largeChild
    if next = Config.unused then some n else walkLarge m fuel next

/-- `FindNextNode(n)` (R153): the greatest node of the `smallChild` subtree. -/
def findNextNode (n : NodeIx) (s : State) : Res NodeIx :=
  if (s.nodeAt n).smallChild = Config.unused then raise .invariantViolation s
  else
    match walkLarge s.node 1025 (s.nodeAt n).smallChild with
    | none   => .fault .walkNeverEnds
    | some r => .ret r { s with nxt := r }

/-- `DeleteNode(n)` (R154): the guard of decision D4, then the three cases. -/
def deleteNode (n : Pos) (s : State) : Res Unit :=
  let x := posToNode n
  let r := s.nodeAt x
  if x = Config.unused ∨ r.parent = Config.unused then .ret () s
  else if r.largeChild = Config.unused then contractNode x r.smallChild s
  else if r.smallChild = Config.unused then contractNode x r.largeChild s
  else
    (findNextNode x s).andThen fun repl s =>
      let s := { s with repl := repl }
      (contractNode repl (s.nodeAt repl).smallChild s).andThen fun _ s => replaceNode x repl s

/-- InitTree (R150). -/
def execInitTree (rootChild : Pos) (s : State) : Host.Outcome State Fault Refusal :=
  (initTree rootChild s).outcome fun _ s => s

/-- ContractNode (R151). -/
def execContractNode (old new : NodeIx) (s : State) : Host.Outcome State Fault Refusal :=
  (contractNode old new s).outcome fun _ s => s

/-- ReplaceNode (R152). -/
def execReplaceNode (old new : NodeIx) (s : State) : Host.Outcome State Fault Refusal :=
  (replaceNode old new s).outcome fun _ s => s

/-- FindNextNode (R153). -/
def execFindNextNode (n : NodeIx) (s : State) : Host.Outcome State Fault Refusal :=
  (findNextNode n s).outcome fun r s => { s with result := .node r }

/-- DeleteNode (R154). -/
def execDeleteNode (n : Pos) (s : State) : Host.Outcome State Fault Refusal :=
  (deleteNode n s).outcome fun _ s => s

end Sys2Proof.Machine
end

