-- ==== Sys2Proof/Machine/Match.lean ====
section
/-! DEFINITION. The match engine: the key comparison and AddNode (42_match_engine.md R180 to R188). -/

namespace Sys2Proof.Machine

/-- Byte `k` of the key of a position: `Window[(p + k) mod W]` (R180). -/
def keyByte (w : Memory) (p : Pos) (k : Cnt) : Byte := Memory.read w (windowAt p k)

/-- The compare loop (R181) from index `i` on, with `left` indices left to look at. -/
def compareLoop (w : Memory) (new test : Pos) : Nat → Cnt → Cnt × BitVec 16
  | 0, i => (i, 0)
  | left + 1, i =>
    let delta := byteDifference (keyByte w new i) (keyByte w test i)
    if delta ≠ 0 then (i, delta) else compareLoop w new test left (i + 1)

/-- `Compare(new, test) -> (i, delta)` as a value (R181). -/
def compareKeys (w : Memory) (new test : Pos) : Cnt × BitVec 16 := compareLoop w new test Config.lookAhead 0

/-- `Compare` writes its results into the scratch registers `i` and `delta` (R38, R181). -/
def State.compare (s : State) (new test : Pos) : State :=
  let r := compareKeys s.window new test
  { s with i := r.1, delta := r.2 }

/-- Step 3 of AddNode: "If match length >= recorded matchLen, update matchLen and matchPos = testNode" (R182, R183). -/
def State.recordBest (s : State) : State :=
  if s.bestLen ≤ s.i then { s with bestLen := s.i, bestPos := nodeToPos s.testNode } else s

/-- The leaf `new` is linked as the `largeChild` of `testNode` (R182 step 5). -/
def State.linkLarge (s : State) (new : NodeIx) : State :=
  (s.putLarge s.testNode new).putNode new { parent := s.testNode, smallChild := 0, largeChild := 0 }

/-- The leaf `new` is linked as the `smallChild` of `testNode` (R182 step 5). -/
def State.linkSmall (s : State) (new : NodeIx) : State :=
  (s.putSmall s.testNode new).putNode new { parent := s.testNode, smallChild := 0, largeChild := 0 }

/-- The search loop of AddNode (R182 steps 1 to 5). Each turn moves `testNode` along one link and changes no link, so a
search of more than 1025 turns never ends (notes/assumptions/12.md). -/
def searchLoop (new : Pos) : Nat → State → Res (Cnt × Pos)
  | 0, _ => .fault .searchNeverEnds
  | fuel + 1, s =>
    let s := (s.compare new (nodeToPos s.testNode)).recordBest
    if BitVec.ofNat 5 Config.lookAhead ≤ s.i then
      (replaceNode s.testNode (posToNode new) s).andThen fun _ s => .ret (s.bestLen, s.bestPos) s
    else if deltaNotNegative s.delta then
      let next := (s.nodeAt s.testNode).largeChild
      if next = Config.unused then .ret (s.bestLen, s.bestPos) (s.linkLarge (posToNode new))
      else searchLoop new fuel { s with testNode := next }
    else
      let next := (s.nodeAt s.testNode).smallChild
      if next = Config.unused then .ret (s.bestLen, s.bestPos) (s.linkSmall (posToNode new))
      else searchLoop new fuel { s with testNode := next }

/-- `AddNode(new) -> (matchLen, matchPos)` (R182): the guard, the two checks, the search. -/
def addNode (new : Pos) (s : State) : Res (Cnt × Pos) :=
  if new = 0 then .ret (0, s.matchPos) s
  else if (s.nodeAt (posToNode new)).parent ≠ Config.unused then raise .invariantViolation s
  else
    let s := { s with testNode := (s.nodeAt Config.treeRoot).largeChild }
    if s.testNode = Config.unused then raise .invariantViolation s
    else searchLoop new 1025 { s with bestLen := 0, bestPos := s.matchPos }

/-- Compare (R181). -/
def execCompare (new test : Pos) (s : State) : Host.Outcome State Fault Refusal :=
  let t := s.compare new test
  .next { t with result := .difference t.i t.delta }

/-- AddNode (R182). -/
def execAddNode (new : Pos) (s : State) : Host.Outcome State Fault Refusal :=
  (addNode new s).outcome fun r s => { s with result := .best r.1 r.2 }

end Sys2Proof.Machine
end

