-- ==== Sys2Proof/Machine/Driver.lean ====
section
/-! DEFINITION. The driver (43_driver.md R200 to R214): the sequencer's steps and the operations made of them. -/

namespace Sys2Proof.Machine

/-- One turn of phase A, step `S_FILL` (R201). The window address needs no reduction and has one (R72). -/
def prefill (s : State) : Res Unit :=
  if s.aheadBytes < BitVec.ofNat 5 Config.lookAhead ∧ s.eos = false then
    (readByte s).andThen fun r s =>
      match r with
      | .byte b => .ret () { s.putByte (windowAt s.winPos s.aheadBytes) b with aheadBytes := s.aheadBytes + 1, seq := .fill }
      | _       => .ret () { s with eos := true, seq := .fill }
  else .ret () { s with seq := .init }

/-- Step `S_INIT` (R202). -/
def initStep (s : State) : Res Unit :=
  (initTree s.winPos s).andThen fun _ s => .ret () { s with seq := .emit }

/-- `EmitLiteral()` (R204). -/
def emitLiteral (s : State) : Res Unit := emitLiteralRecord (literalOperand (s.byteAt s.winPos)) s

/-- `EmitMatch()` (R205): two checks, then the record. -/
def emitMatch (s : State) : Res Unit :=
  if s.matchPos = 0 ∨ BitVec.ofNat 5 Config.lookAhead < s.matchLen then raise .invariantViolation s
  else emitMatchRecord (positionOperand s.matchPos) (lengthOperand s.matchLen) s

/-- The clamp of step `S_EMIT`: "if matchLen > aheadBytes, set matchLen = aheadBytes" (R203). -/
def State.clamp (s : State) : State := if s.aheadBytes < s.matchLen then { s with matchLen := s.aheadBytes } else s

/-- Step `S_EMIT` (R203): loop test, clamp, choice, one record. -/
def emitStep (s : State) : Res Unit :=
  if s.aheadBytes = 0 then .ret () { s with seq := .eos }
  else
    let s := s.clamp
    if s.matchLen ≤ BitVec.ofNat 5 Config.breakEven then
      (emitLiteral s).andThen fun _ s => .ret () { s with replCnt := 1, advCnt := 0, seq := .adv }
    else
      (emitMatch s).andThen fun _ s => .ret () { s with replCnt := s.matchLen, advCnt := 0, seq := .adv }

/-- Step 3b of an advance after its read: the byte goes into the fill slot, or the look-ahead shrinks (R207). -/
def State.takeInput (s : State) (r : Answer) : State :=
  match r with
  | .byte b => s.putByte (fillSlot s.winPos) b
  | _       => { s with aheadBytes := s.aheadBytes - 1 }

/-- Step 3d of an advance, with the new `winPos` (R207). -/
def addAtWinPos (s : State) : Res Unit :=
  if s.aheadBytes = 0 then .ret () s
  else (addNode s.winPos s).andThen fun r s => .ret () { s with matchLen := r.1, matchPos := r.2 }

/-- The end of an advance: the count, and what runs next (R207, R208). -/
def State.countAdvance (s : State) : State :=
  { s with advCnt := s.advCnt + 1, seq := if s.advCnt + 1 = s.replCnt then .emit else .adv }

/-- `Advance`, step `S_ADV` (R207): delete, read, move, add, in this order (R280). -/
def advance (s : State) : Res Unit :=
  (deleteNode (fillSlot s.winPos) s).andThen fun _ s =>
  (readByte s).andThen fun r s =>
  let s := s.takeInput r
  let s := { s with winPos := s.winPos + 1 }
  (addAtWinPos s).andThen fun _ s => .ret () s.countAdvance

/-- `EmitEos()`, step `S_EOS` (R209), and the entry into `S_DONE` (R212). -/
def emitEos (s : State) : Res Unit :=
  (emitEosRecord s).andThen fun _ s => .ret () s.enterDone

/-- What the sequencer does in its present state (the table of R200). -/
def sequencerOp (s : State) : Res Unit :=
  match s.seq with
  | .idle  => .ret () s          -- R210
  | .fill  => prefill s
  | .init  => initStep s
  | .emit  => emitStep s
  | .adv   => advance s
  | .eos   => emitEos s
  | .done  => .ret () s          -- R212
  | .fault => .ret () s          -- R246, R248

/-- One step of the sequencer. With a port transaction outstanding it waits, for ever (R18, R252). -/
def sequencerStep (s : State) : Host.Outcome State Fault Refusal :=
  if s.stopped then .next s else (sequencerOp s).outcome fun _ s => s

/-- The sequencer's steps until it stops (done, on a fault, or waiting), at most `fuel` of them. -/
def runSequencer : Nat → State → Host.Outcome State Fault Refusal
  | 0, s => if s.stopped then .next s else .fault .runNeverEnds
  | fuel + 1, s =>
    if s.stopped then .next s
    else
      match sequencerStep s with
      | .next t    => runSequencer fuel t
      | .fault f   => .fault f
      | .refused r => .refused r

/-- More steps than a run from any state can take before it stops: every advance uses up one of the remaining input items or
takes one off `aheadBytes` (notes/assumptions/11.md). -/
def runBound (s : State) : Nat := 2 * s.inPort.length + 256

/-- Prefill (R201). -/
def execPrefill (s : State) : Host.Outcome State Fault Refusal :=
  (prefill s).outcome fun _ s => s

/-- EmitLiteral (R204). -/
def execEmitLiteral (s : State) : Host.Outcome State Fault Refusal :=
  (emitLiteral s).outcome fun _ s => s

/-- EmitMatch (R205). -/
def execEmitMatch (s : State) : Host.Outcome State Fault Refusal :=
  (emitMatch s).outcome fun _ s => s

/-- Advance (R207). -/
def execAdvance (s : State) : Host.Outcome State Fault Refusal :=
  (advance s).outcome fun _ s => s

/-- EmitEos (R209, R212). -/
def execEmitEos (s : State) : Host.Outcome State Fault Refusal :=
  (emitEos s).outcome fun _ s => s

/-- CompressData (R200): the whole run. In `S_IDLE` it begins with `Start`, "the compress entry point is a method on it"
(R137); elsewhere it is what is left of the run (notes/assumptions/11.md). -/
def execCompressData (s : State) : Host.Outcome State Fault Refusal :=
  runSequencer (runBound s) (if s.seq = .idle then { s with seq := .fill } else s)

/-! ## What the step performs -/

/-- The state after the first raised request is taken off the queue. -/
def State.dropRequest (s : State) : State := { s with reqs := s.reqs.tail }

/-- Whether an instruction is performed in a state: a block that is done, stopped on a fault, or waiting performs nothing but
Reset (R138, R212, R246, R248; notes/assumptions/16.md). -/
def performs (i : Instr) (s : State) : Bool := !s.stopped || i == .reset

/-- The request raised before the next step: an empty queue raises nothing. -/
def State.raised (s : State) : Request := s.reqs.headD .quiet

end Sys2Proof.Machine
end

