-- ==== Sys2Proof/Machine/Ports.lean ====
section
/-! DEFINITION. The meanings of the wire records (30_encoding.md) and of the port and host operations (40_io_ports.md). -/

namespace Sys2Proof.Machine

/-- LITERAL: the emission of the record `1` + byte (R102, R107, R204). -/
def execLiteral (b : Byte) (s : State) : Host.Outcome State Fault Refusal :=
  (emitLiteralRecord (literalOperand b) s).outcome fun _ s => s

/-- MATCH: the emission of the record `0` + position + length field (R103, R105, R106). Position 0 is no match record
(R109): it is the check of R205 (notes/assumptions/19.md). -/
def execMatchRecord (pos : Pos) (len : BitVec 4) (s : State) : Host.Outcome State Fault Refusal :=
  if pos = 0 then (raise (α := Unit) .invariantViolation s).outcome fun _ s => s
  else (emitMatchRecord (positionOperand pos) (len.setWidth 32) s).outcome fun _ s => s

/-- EOS: the emission of the terminator record (R104). -/
def execEos (s : State) : Host.Outcome State Fault Refusal :=
  (emitEosRecord s).outcome fun _ s => s

/-- ReadByte (R130). -/
def execReadByte (s : State) : Host.Outcome State Fault Refusal :=
  (readByte s).outcome fun a s => { s with result := .item a }

/-- WriteBit (R132). -/
def execWriteBit (b : Bool) (s : State) : Host.Outcome State Fault Refusal :=
  (writeBit b s).outcome fun _ s => s

/-- WriteBits (R133); `k` outside `1 .. 32` is refused. -/
def execWriteBits (v : BitVec 32) (k : Nat) (s : State) : Host.Outcome State Fault Refusal :=
  if 1 ≤ k ∧ k ≤ 32 then (writeBits v k s).outcome fun _ s => s
  else .refused .bitCountOutsideContract

/-- Flush (R136). -/
def execFlush (s : State) : Host.Outcome State Fault Refusal :=
  .next s.flushSink

/-- Start (R137): `S_IDLE` to `S_FILL` and nothing else; ignored in every other state. -/
def execStart (s : State) : Host.Outcome State Fault Refusal :=
  .next (if s.seq = .idle then { s with seq := .fill } else s)

/-- Reset (R138, R270). -/
def execReset (s : State) : Host.Outcome State Fault Refusal :=
  .next s.resetBlock

end Sys2Proof.Machine
end

