-- ==== Sys2Proof/Machine/Dispatch.lean ====
section
/-! DEFINITION. The meaning of every instruction, one arm a constructor. -/

namespace Sys2Proof.Machine

def exec (i : Instr) (s : State) : Host.Outcome State Fault Refusal :=
  match i with
  | .literal b => Sys2Proof.Machine.execLiteral b s
  | .matchRecord pos len => Sys2Proof.Machine.execMatchRecord pos len s
  | .eos => Sys2Proof.Machine.execEos s
  | .readByte => Sys2Proof.Machine.execReadByte s
  | .writeBit b => Sys2Proof.Machine.execWriteBit b s
  | .writeBits v k => Sys2Proof.Machine.execWriteBits v k s
  | .flush => Sys2Proof.Machine.execFlush s
  | .initTree rootChild => Sys2Proof.Machine.execInitTree rootChild s
  | .contractNode old new => Sys2Proof.Machine.execContractNode old new s
  | .replaceNode old new => Sys2Proof.Machine.execReplaceNode old new s
  | .findNextNode n => Sys2Proof.Machine.execFindNextNode n s
  | .deleteNode n => Sys2Proof.Machine.execDeleteNode n s
  | .compare new test => Sys2Proof.Machine.execCompare new test s
  | .addNode new => Sys2Proof.Machine.execAddNode new s
  | .prefill => Sys2Proof.Machine.execPrefill s
  | .emitLiteral => Sys2Proof.Machine.execEmitLiteral s
  | .emitMatch => Sys2Proof.Machine.execEmitMatch s
  | .advance => Sys2Proof.Machine.execAdvance s
  | .emitEos => Sys2Proof.Machine.execEmitEos s
  | .compressData => Sys2Proof.Machine.execCompressData s
  | .start => Sys2Proof.Machine.execStart s
  | .reset => Sys2Proof.Machine.execReset s

end Sys2Proof.Machine
end

