-- ==== Sys2Proof/Machine/Step.lean ====
section
/-! DEFINITION. One step of the machine: what is raised at the block is performed; when nothing is raised the sequencer
takes its own step (43_driver.md R200). -/

namespace Sys2Proof.Machine

/-- One step. -/
def step (s : State) : Host.Outcome State Fault Refusal :=
  match s.raised with
  | .quiet => sequencerStep s.dropRequest
  | r =>
    match decode r with
    | .error e => .refused (.badRequest e)
    | .ok i => if performs i s then exec i s.dropRequest else .next s.dropRequest

/-- The state with the instruction of a table word raised before the next step, ahead of everything else raised. -/
def State.withFetchWord (s : State) (nbits w : Nat) : State :=
  { s with reqs := requestOfTableWord nbits w :: s.reqs }

end Sys2Proof.Machine
end

