-- ==== Sys2Proof/Safety.lean ====
section
/-! DEFINITION. The terms the claims are stated in: what the environment must do, what the rules call an invariant, and which
runs are runs of the hardware. -/

namespace Sys2Proof

/-- The request is one the hardware's host can raise: nothing, `start` or `rst` (R42, R134). Every other request is the
model's own (notes/assumptions/1.md). -/
def Request.fromHost (r : Request) : Bool :=
  match r with
  | .quiet => true
  | r => decide (decode r = .ok .start) || decide (decode r = .ok .reset)

/-- The records that stand for input bytes: literals and well-formed matches (R100, R109). -/
def Instr.isData (r : Instr) : Bool :=
  match r with
  | .literal _ => true
  | .matchRecord p _ => decide (p ≠ 0)
  | _ => false

/-- The number of input bytes a record stands for: 1 for a literal, the decoded length for a match (R106, R112). -/
def Instr.covers (r : Instr) : Nat :=
  match r with
  | .literal _ => 1
  | .matchRecord _ l => l.toNat + 2
  | _ => 0

end Sys2Proof

namespace Sys2Proof.Machine

/-! ## Environment and host -/

/-- Only the host's own requests are raised: the runs of the hardware. -/
def State.hostDriven (s : State) : Bool := s.reqs.all Request.fromHost

/-- The sink takes the next `k` bits. -/
def State.sinkTakes (s : State) (k : Nat) : Bool := (s.outPort.take k).all fun x => decide (x.answer = some true)

/-- The next `k` bits offered are taken and the one after them is refused. -/
def State.sinkRefusesAt (s : State) (k : Nat) : Bool :=
  s.sinkTakes k && decide (((s.outPort.drop k).headD OutItem.taken).answer = some false)

/-- The next `k` bits offered are taken and the one after them is never answered. -/
def State.sinkWaitsAt (s : State) (k : Nat) : Bool :=
  s.sinkTakes k && decide (((s.outPort.drop k).headD OutItem.taken).answer = none)

/-- Every remaining read is answered, and with no error. -/
def State.inputAnswers (s : State) : Bool :=
  s.inPort.all fun x => decide (x.answer ≠ none) && decide (x.answer ≠ some .err)

/-- Every remaining bit is taken. -/
def State.sinkAnswers (s : State) : Bool := s.outPort.all fun x => decide (x.answer = some true)

/-- The input item that brings a byte in (R134). -/
def InItem.ofByte (b : Byte) : InItem := { ack := true, data := b, eoi := false, err := false }

/-- The reset state before an environment that holds an input of bytes and takes every bit. -/
def State.onInput (bs : List Byte) : State := { State.reset with inPort := bs.map InItem.ofByte }

/-- The input port keeps its contract from here on: after the end of input no byte (R131). -/
def inputContract (ended : Bool) : List InItem → Bool
  | [] => true
  | x :: t =>
    match x.answer with
    | some (.byte _) => !ended && inputContract ended t
    | some .eoi      => inputContract true t
    | _              => inputContract ended t

/-! ## Runs -/

/-- `n` steps of the sequencer one after the other. -/
def runSteps : Nat → State → Host.Outcome State Fault Refusal
  | 0, s => .next s
  | n + 1, s =>
    match sequencerStep s with
    | .next t    => runSteps n t
    | .fault f   => .fault f
    | .refused r => .refused r

/-- The state CompressData begins its steps in: the one it finds, or the one Start leaves (R137, R200). -/
def State.started (s : State) : State := if s.seq = .idle then { s with seq := .fill } else s

/-! ## The observation (R17) and the packed output (R135) -/

/-- The bits a sequence of transactions put out. -/
def eventBits : List Event → List Bool
  | [] => []
  | .bit b :: t => b :: eventBits t
  | _ :: t => eventBits t

/-- The input bytes a sequence of transactions brought in. -/
def eventBytes : List Event → List Byte
  | [] => []
  | .read (.byte b) :: t => b :: eventBytes t
  | _ :: t => eventBytes t

/-- The number of reads in a sequence of transactions. -/
def eventReads : List Event → Nat
  | [] => 0
  | .read _ :: t => eventReads t + 1
  | _ :: t => eventReads t

/-- The bits of the packed view: the bytes put out, most significant bit first, then the filled part of `bsAcc` (R50, R135). -/
def State.packedBits (s : State) : List Bool :=
  s.outBytes.flatMap (fun b => msbBits 8 b.toNat) ++ (msbBits 8 s.bsAcc.toNat).take s.bsCnt.toNat

/-- The bookkeeping of R17 and R51 agrees with itself: the bits, the reads and the end of input are those of the
transactions; a read that waits for its answer is counted and not yet observed. -/
def State.traceAgrees (s : State) : Bool :=
  decide (s.outBits = eventBits s.events) &&
  decide (s.nReads = eventReads s.events + (if s.wait = some .read then 1 else 0)) &&
  decide (s.inEnded = s.events.contains (.read .eoi))

/-- Flags and sequencer agree (R41, R246, R212): `done` and `fault` say which final state it is, and there is a cause exactly
when there is a fault. -/
def State.flagsAgree (s : State) : Bool :=
  decide (s.done = (s.seq == .done)) && decide (s.fault = (s.seq == .fault)) &&
  decide (s.fault = (s.cause != .noFault))

/-- Both memories are in their canonical form, every address one that exists (R70). -/
def State.memoriesWf (s : State) : Bool := Memory.wf s.window && NodeMemory.wf s.node

/-- The packed view is the bit sequence (R135, R136): before the flush exactly its bits, with the unfilled bits of `bsAcc` zero;
after it, in `S_DONE`, padded with zeros to whole bytes, nothing left over. -/
def State.packingAgrees (s : State) : Prop :=
  (s.seq ≠ .done → s.packedBits = s.outBits) ∧
  (s.seq = .done → s.bsCnt = 0 ∧ s.packedBits = s.outBits ++ List.replicate ((8 - s.outBits.length % 8) % 8) false) ∧
  (msbBits 8 s.bsAcc.toNat).drop s.bsCnt.toNat = List.replicate (8 - s.bsCnt.toNat) false

/-! ## What an operation puts out (40_io_ports.md R132, R133, 60_exceptions.md R242) -/

/-- From `s` to `t` exactly these bits were taken by the sink, in this order, and nothing else changed: the output grows by them,
each is one transaction, the packed view grows by them. -/
structure PutsOut (s t : State) (bits : List Bool) : Prop where
  frame  : t = { s with outBits := s.outBits ++ bits, events := s.events ++ bits.map .bit,
                        outPort := s.outPort.drop bits.length,
                        outBytes := t.outBytes, bsAcc := t.bsAcc, bsCnt := t.bsCnt }
  packed : t.packedBits = s.packedBits ++ bits

/-- The first `m` of the bits were taken and the next was refused: the refused bit is not part of the output, and the fault is
taken (R242, R246). -/
def AbortsAt (s t : State) (bits : List Bool) (m : Nat) : Prop :=
  ∃ u, PutsOut s u (bits.take m) ∧
    t = { u with outPort := u.outPort.tail, events := u.events ++ [.bitRefused (bits.getD m false)],
                 cause := .outputWriteError, fault := true, seq := .fault }

/-- The first `m` of the bits were taken and the next is not answered: it stays offered (R18, R252). -/
def WaitsAt (s t : State) (bits : List Bool) (m : Nat) : Prop :=
  ∃ u, PutsOut s u (bits.take m) ∧ t = { u with outPort := u.outPort.tail, wait := some (.bit (bits.getD m false)) }

/-- The bits an instruction of the emitting kind puts out in a state, when it is not turned away by a check: the record or field
of the spec (R102 to R104, R132, R133, R204, R205, R209). -/
def State.emission (s : State) (i : Instr) : Option (List Bool) :=
  match i with
  | .literal b       => some (literalBits b)
  | .matchRecord p l => if p = 0 then none else some (matchBits p l)
  | .eos             => some eosBits
  | .writeBit b      => some [b]
  | .writeBits v k   => if 1 ≤ k ∧ k ≤ 32 then some ((List.range k).reverse.map v.getLsbD) else none
  | .emitLiteral     => some (literalBits (s.byteAt s.winPos))
  | .emitMatch       => if s.matchPos = 0 ∨ 17 < s.matchLen then none else some (matchBits s.matchPos (lengthField s.matchLen))
  | .emitEos         => some eosBits
  | .readByte | .flush | .initTree _ | .contractNode _ _ | .replaceNode _ _ | .findNextNode _ | .deleteNode _ | .compare _ _
  | .addNode _ | .prefill | .advance | .compressData | .start | .reset => none

/-! ## The tree (10_state.md R45 to R49) -/

/-- The slot is live (R46). `f` is the content of `Node`, `State.nodeAt` of a state. -/
def liveIn (f : NodeIx → NodeRec) (n : NodeIx) : Prop := n ≠ 0 ∧ n ≠ 1024 ∧ (f n).parent ≠ 0

/-- The slot is live or the permanent root: what a child link may hang from. -/
def linkedIn (f : NodeIx → NodeRec) (n : NodeIx) : Prop := n = 1024 ∨ liveIn f n

/-- The pointer structure of the tree (R44 to R48). `rank` is a depth: it rises from parent to child, so there is no cycle and
every live slot hangs from the root. -/
structure TreeShape (f : NodeIx → NodeRec) : Prop where
  /-- "Its other two fields are UNUSED" (R79). -/
  root    : (f 1024).parent = 0 ∧ (f 1024).smallChild = 0
  /-- "Node[0].smallChild and Node[0].largeChild stay 0 for the whole run" (R48). -/
  scratch : (f 0).smallChild = 0 ∧ (f 0).largeChild = 0
  /-- "A non-live slot n >= 1 has all three fields 0" (R46). -/
  dead    : ∀ n, n ≠ 0 → n ≠ 1024 → (f n).parent = 0 → f n = NodeRec.zero
  /-- The parent of a live slot is live or the root, and the slot is one of its children (R47). -/
  up      : ∀ n, liveIn f n → linkedIn f (f n).parent ∧
              ((f (f n).parent).smallChild = n ∨ (f (f n).parent).largeChild = n)
  /-- A child of a live slot or of the root is live and names it as its parent (R47). -/
  small   : ∀ p, linkedIn f p → (f p).smallChild ≠ 0 → liveIn f (f p).smallChild ∧ (f (f p).smallChild).parent = p
  /-- The same of the other child. -/
  large   : ∀ p, linkedIn f p → (f p).largeChild ≠ 0 → liveIn f (f p).largeChild ∧ (f (f p).largeChild).parent = p
  /-- The XOR of R47: the two children of a slot differ. -/
  apart   : ∀ p, linkedIn f p → (f p).smallChild = (f p).largeChild → (f p).smallChild = 0
  /-- No cycle. -/
  rank    : ∃ rank : NodeIx → Nat, ∀ n, liveIn f n → rank (f n).parent < rank n

/-- Every live slot lies at most `k` positions behind `q` (R49). -/
def liveWithin (f : NodeIx → NodeRec) (q : Pos) (k : Nat) : Prop :=
  ∀ p : Pos, liveIn f (posToNode p) → (q - p).toNat ≤ k

/-- The slot of `q` is live, or `q` is 0, which never is, and then the slot before it is (R285 (a)). -/
def anchored (f : NodeIx → NodeRec) (q : Pos) : Prop :=
  if q = 0 then liveIn f 1023 else liveIn f (posToNode q)

/-- The walk of FindNextNode: from the first slot along `largeChild` to one that has none (R153). -/
inductive LargeWalk (f : NodeIx → NodeRec) : NodeIx → NodeIx → Prop where
  | here (n : NodeIx) : (f n).largeChild = 0 → LargeWalk f n n
  | step (n r : NodeIx) : (f n).largeChild ≠ 0 → LargeWalk f (f n).largeChild r → LargeWalk f n r

/-! ## The driver (43_driver.md) -/

/-- What holds of the driver registers in each sequencer state of a run of the hardware (R31 to R37, R201, R206, R213, R214). -/
def State.driverInv (s : State) : Prop :=
  s.aheadBytes ≤ 17 ∧ s.matchLen ≤ 17 ∧ (s.matchLen ≠ 0 → s.matchPos ≠ 0) ∧
  match s.seq with
  | .idle  => s.winPos = 1 ∧ s.aheadBytes = 0 ∧ s.matchLen = 0 ∧ s.eos = false ∧ s.inEnded = false
  | .fill  => s.winPos = 1 ∧ s.matchLen = 0 ∧ s.inEnded = s.eos
  | .init  => s.winPos = 1 ∧ s.matchLen = 0 ∧ (s.inEnded = true ∨ s.aheadBytes = 17)
  | .emit  => s.inEnded = true ∨ s.aheadBytes = 17
  | .adv   => (s.inEnded = true ∨ s.aheadBytes = 17) ∧ s.replCnt ≤ 17 ∧ s.advCnt < s.replCnt ∧
                s.replCnt.toNat - s.advCnt.toNat ≤ s.aheadBytes.toNat
  | .eos   => s.aheadBytes = 0
  | .done  => s.aheadBytes = 0
  | .fault => True

/-- What holds of the tree in each sequencer state of a run of the hardware (R44, R47, R49, R285). -/
def State.treeInv (s : State) : Prop :=
  TreeShape s.nodeAt ∧
  match s.seq with
  | .idle  => s.node = []
  | .fill  => s.node = []
  | .init  => s.node = []
  | .emit  => liveWithin s.nodeAt s.winPos 1007 ∧ (s.aheadBytes ≠ 0 → anchored s.nodeAt s.winPos)
  | .adv   => liveWithin s.nodeAt s.winPos 1007 ∧ anchored s.nodeAt s.winPos
  | .eos   => True
  | .done  => True
  | .fault => True

/-- The corrected window invariant (R81): the valid look-ahead holds the last `aheadBytes` input bytes read. -/
def State.windowInv (s : State) : Prop :=
  s.aheadBytes.toNat ≤ (eventBytes s.events).length ∧
  ∀ d : Cnt, d < s.aheadBytes →
    (eventBytes s.events)[(eventBytes s.events).length - s.aheadBytes.toNat + d.toNat]? = some (s.byteAt (windowAt s.winPos d))

/-! ## The stream (30_encoding.md R100, R112) -/

/-- The bits of a sequence of records, one after the other with nothing between (R100). -/
def streamBits (rs : List Instr) : List Bool := rs.flatMap fun r => r.recordBits.getD []

/-- The bits are those of a sequence of data records that stands for `n` input bytes, followed by `tail`. -/
def streamOf (bits : List Bool) (n : Nat) (tail : List Bool) : Prop :=
  ∃ rs : List Instr, rs.all Instr.isData = true ∧ bits = streamBits rs ++ tail ∧ (rs.map Instr.covers).sum = n

/-- The number of input bytes that have left the look-ahead. -/
def State.passed (s : State) : Nat := (eventBytes s.events).length - s.aheadBytes.toNat

/-- Between two records the output is a sequence of whole records; at the end the terminator follows, once (R100, R112). A step
that stopped inside a record is outside this (R242, R18). -/
def State.streamInv (s : State) : Prop :=
  s.wait = none →
    match s.seq with
    | .idle  => streamOf s.outBits s.passed []
    | .fill  => streamOf s.outBits s.passed []
    | .init  => streamOf s.outBits s.passed []
    | .emit  => streamOf s.outBits s.passed []
    | .adv   => streamOf s.outBits (s.passed + (s.replCnt.toNat - s.advCnt.toNat)) []
    | .eos   => streamOf s.outBits s.passed []
    | .done  => streamOf s.outBits (eventBytes s.events).length eosBits
    | .fault => True

/-! ## The keys (42_match_engine.md R180) -/

/-- The key of a position: its 17 bytes, read with wrap-around (R180). -/
def keyOf (w : Memory) (p : Pos) : List Byte := (List.range Config.lookAhead).map fun k => Memory.read w (p + BitVec.ofNat 10 k)

/-- The length of the common prefix of two byte sequences. -/
def commonPrefix : List Byte → List Byte → Nat
  | a :: x, b :: y => if a = b then commonPrefix x y + 1 else 0
  | _, _ => 0

/-- `n` lies in the subtree of `c`: `c` is reached from `n` by parent links. -/
inductive Under (f : NodeIx → NodeRec) (c : NodeIx) : NodeIx → Prop where
  | here : Under f c c
  | step (n : NodeIx) : liveIn f n → Under f c (f n).parent → Under f c n

/-- The tree is a search tree under the key order (R47): below `smallChild` the keys are less, below `largeChild` greater. -/
def Ordered (f : NodeIx → NodeRec) (w : Memory) : Prop :=
  ∀ t, liveIn f t →
    ((f t).smallChild ≠ 0 → ∀ n, Under f (f t).smallChild n → keyOf w (nodeToPos n) < keyOf w (nodeToPos t)) ∧
    ((f t).largeChild ≠ 0 → ∀ n, Under f (f t).largeChild n → keyOf w (nodeToPos t) < keyOf w (nodeToPos n))

/-- The child of `t` in whose direction a key lies: `largeChild` when it is greater than the key of `t`, else `smallChild` (R182). -/
def childToward (f : NodeIx → NodeRec) (w : Memory) (new : Pos) (t : NodeIx) : NodeIx :=
  if keyOf w (nodeToPos t) < keyOf w new then (f t).largeChild else (f t).smallChild

/-- The number of leading bytes the keys of a node and of a position share, 0 to 17. -/
def shared (w : Memory) (new : Pos) (t : NodeIx) : Nat := commonPrefix (keyOf w new) (keyOf w (nodeToPos t))

/-- The nodes a search for the key of `new` visits from a node on, in order: it ends at an equal key, or where there is no
further child (R182). -/
inductive Visits (f : NodeIx → NodeRec) (w : Memory) (new : Pos) : NodeIx → List NodeIx → Prop where
  | equal (t : NodeIx) : shared w new t = 17 → Visits f w new t [t]
  | last (t : NodeIx) : shared w new t ≠ 17 → childToward f w new t = 0 → Visits f w new t [t]
  | step (t : NodeIx) (path : List NodeIx) : shared w new t ≠ 17 → childToward f w new t ≠ 0 →
      Visits f w new (childToward f w new t) path → Visits f w new t (t :: path)

/-- The invariant of the runs of the hardware. -/
structure RunInv (s : State) : Prop where
  host     : s.hostDriven = true
  memories : s.memoriesWf = true
  flags    : s.flagsAgree = true
  trace    : s.traceAgrees = true
  packing  : s.packingAgrees
  driver   : s.driverInv
  tree     : s.treeInv
  window   : s.windowInv
  stream   : s.streamInv
  /-- "So no InvariantViolation arises" (R285). -/
  noViolation : s.cause ≠ .invariantViolation

/-! ## A conforming reader of the stream (30_encoding.md R115, informative: the decoder itself is outside the block, R4) -/

/-- A reader: its own window, the position of the next byte, and the bytes it has yielded. -/
structure Reader where
  window : Memory
  pos    : Pos
  out    : List Byte
  deriving DecidableEq, Repr

/-- "A position that starts at 1" (R115). -/
def Reader.start : Reader := { window := [], pos := 1, out := [] }

/-- One byte is yielded: stored at the current position, which moves on (R115). -/
def Reader.yield (r : Reader) (b : Byte) : Reader :=
  { window := Memory.write r.window r.pos b, pos := r.pos + 1, out := r.out ++ [b] }

/-- `n` bytes copied one at a time from `p` on, each stored before the next is read (R115). -/
def Reader.copy : Nat → Pos → Reader → Reader
  | 0, _, r => r
  | n + 1, p, r => Reader.copy n (p + 1) (r.yield (Memory.read r.window p))

/-- One record (R115). -/
def Reader.read (r : Reader) (i : Instr) : Reader :=
  match i with
  | .literal b       => r.yield b
  | .matchRecord p l => Reader.copy (l.toNat + 2) p r
  | _                => r

/-- The bytes a stream of records stands for. -/
def decompress (rs : List Instr) : List Byte := (rs.foldl Reader.read Reader.start).out

end Sys2Proof.Machine
end

