-- ==== Sys2Proof/Certificates/Slice0/Obligations.lean ====
section
/-! DEFINITION. The statements for the provers, in the order of spec/: encoding, parameters and reset, ports, records, tree,
match engine, driver, whole runs, the step. Where a statement says what a field of the model's own holds (`result`,
`inPort`, `outPort`, `reqs`), that field is the model's choice: notes/assumptions/9.md, 4.md and 1.md. -/

section Statements

open Sys2Proof Sys2Proof.Machine

/-! ## Encoding (30_encoding.md) -/

/-- Decoding an encoded well-formed instruction gives it back, for every instruction and every operand its encoding admits; and
whatever request is decoded, the instruction is well formed. The bytes of an operation's operands are the model's choice
(notes/assumptions/2.md). -/
def Obligations.DecodeAndEncodeAgree : Prop :=
  (∀ i : Instr, i.wf = true → decode (encode i) = .ok i) ∧
  (∀ (r : Request) (i : Instr), decode r = .ok i → i.wf = true)

/-- A reader finds the end of a record from the record alone, whatever bits follow it (R108). -/
def Obligations.RecordsDecodeBeforeAnyTail : Prop :=
  ∀ (i : Instr) (bits rest : List Bool), i.wf = true → i.recordBits = some bits →
    decodeRecord (bits ++ rest) = .ok (i, rest)

/-- A stream of literal and match records and one terminator parses back into exactly those records, and what stands after
the terminator is not part of it (R100, R108, R111). -/
def Obligations.StreamsParseBack : Prop :=
  ∀ (rs : List Instr) (rest : List Bool), rs.all Instr.isData = true →
    decodeStream (streamBits rs ++ eosBits ++ rest) = .ok (rs ++ [.eos], rest)

/-- "Every bit string that begins a record parses as some record; the only malformed streams are truncated ones" (R110): what a
reader does not accept is a proper beginning of a record, and what it accepts is the bits of a well-formed record. -/
def Obligations.OnlyTruncationIsMalformed : Prop :=
  ∀ bits : List Bool,
    (∃ i own rest, decodeRecord bits = .ok (i, rest) ∧ i.wf = true ∧ i.recordBits = some own ∧ bits = own ++ rest) ∨
    (decodeRecord bits = .error .truncatedRecord ∧ ∃ more i, more ≠ [] ∧ decodeRecord (bits ++ more) = .ok (i, []))

/-- A few words decode to the instructions they stand for. The three records are bit strings written out from the spec's encodings
(R102 to R104). Of the operations the spec gives the OPSEL number only (R113); that an operation is asked for by a byte with OPSEL
in it, and that the operand of WriteBit is one byte and that of DeleteNode two, least significant first, is the model's choice
(DESIGN CHOICE, notes/assumptions/2.md). -/
def Obligations.SampleWordsDecode : Prop :=
  decode (.record [true, false, true, false, false, false, false, false, true]) = .ok (.literal 0x41) ∧
  decode (.record [false, false, false, false, false, false, false, false, false, false, true, true, true, true, true]) =
    .ok (.matchRecord 1 15) ∧
  decode (.record [false, false, false, false, false, false, false, false, false, false, false]) = .ok .eos ∧
  decode (.operation [0b00001]) = .ok .readByte ∧
  decode (.operation [0b00010, 1]) = .ok (.writeBit true) ∧
  decode (.operation [0b01001, 0x12, 0x00]) = .ok (.deleteNode 18) ∧
  decode (.operation [0b01111]) = .ok .advance ∧
  decode (.operation [0b10010]) = .ok .start

/-- The length field is the length less `BREAK_EVEN + 1 = 2`; the 16 codes cover the lengths 2 to 17, and a reader that adds 2
back gets the length (R106). -/
def Obligations.LengthFieldIsBiased : Prop :=
  (∀ m : Cnt, 2 ≤ m → m ≤ 17 →
    (lengthField m).toNat = m.toNat - 2 ∧ ∀ p : Pos, (Instr.matchRecord p (lengthField m)).covers = m.toNat) ∧
  (∀ l : BitVec 4, ∃ m : Cnt, 2 ≤ m ∧ m ≤ 17 ∧ lengthField m = l)

/-! ## Parameters and reset (00_scope.md, 10_state.md, 70_reset_and_hazards.md) -/

/-- The two primary parameters (R6), `BREAK_EVEN` (R7), `LOOK_AHEAD` (R8), the sentinels `TREE_ROOT`, `UNUSED` and `END_OF_STREAM` (R9),
and which pairs are admitted. Of the conditions on a pair, R11 (b), (c) and (d) are the spec's own inference (it marks them
[derived]), and for pairs the model does not build the conditions are the model's reading (DEDUCED, notes/assumptions/8.md). -/
def Obligations.Parameters : Prop :=
  Config.params.indexBits = 10 ∧ Config.params.lengthBits = 4 ∧
  Config.params.window = 1024 ∧ Config.params.rawLookAhead = 16 ∧
  Config.params.breakEven = 1 ∧ Config.params.lookAhead = 17 ∧
  Config.windowSize = Config.params.window ∧ Config.breakEven = Config.params.breakEven ∧
  Config.lookAhead = Config.params.lookAhead ∧ Config.treeRoot.val = Config.params.window ∧
  Config.unused.val = 0 ∧ Config.endOfStream = 0 ∧ Config.params.admissible = true ∧
  ∀ p : Params,
    p.window = 2 ^ p.indexBits ∧ p.rawLookAhead = 2 ^ p.lengthBits ∧ p.lookAhead = p.rawLookAhead + p.breakEven ∧
    (p.admissible = true ↔
      8 ≤ p.indexBits + p.lengthBits ∧ 1 + p.lookAhead ≤ p.window ∧ p.lookAhead % p.window ≠ 0 ∧
      1 ≤ p.indexBits ∧ p.indexBits ≤ 32 ∧ 1 ≤ p.lengthBits ∧ p.lengthBits ≤ 32)

/-- The reset state, register by register: what the machine holds right after reset, and what Reset leaves from any state (R270). -/
def Obligations.ResetState : Prop :=
  ∀ t : State, t = State.reset ∨ (∃ s, exec .reset s = .next t) →
    (t.winPos = 1 ∧ t.aheadBytes = 0 ∧ t.matchLen = 0 ∧ t.matchPos = 0 ∧ t.eos = false ∧ t.replCnt = 0 ∧ t.advCnt = 0) ∧
    (t.testNode = 0 ∧ t.i = 0 ∧ t.delta = 0 ∧ t.bestLen = 0 ∧ t.bestPos = 0 ∧ t.par = 0 ∧ t.nxt = 0 ∧ t.repl = 0) ∧
    (t.seq = .idle ∧ t.done = false ∧ t.fault = false ∧ t.cause = .noFault) ∧
    (∀ a, t.byteAt a = 0) ∧ (∀ n, t.nodeAt n = { parent := 0, smallChild := 0, largeChild := 0 }) ∧
    (t.bsAcc = 0 ∧ t.bsCnt = 0 ∧ t.nReads = 0 ∧ t.outBits = []) ∧ t.statusWord = 0

/-- Reset puts every piece of the block's state at its reset value, from any state, and abandons an outstanding transaction; it
issues none (the environment's lists keep their items); and it is the only way out of `S_DONE` and `S_FAULT` (R138, R271).
That the host's further requests stay is the model's choice (notes/assumptions/10.md). -/
def Obligations.ResetFromAnyState : Prop :=
  (∀ s : State, exec .reset s = .next { State.reset with inPort := s.inPort, outPort := s.outPort, reqs := s.reqs }) ∧
  (∀ s t : State, s.seq = .done ∨ s.seq = .fault → step s = .next t → t.seq ≠ s.seq → decode s.raised = .ok .reset)

/-- Start moves `S_IDLE` to `S_FILL` and changes nothing else; in every other state it is ignored (R137). -/
def Obligations.StartLeavesIdle : Prop :=
  (∀ s : State, s.seq = .idle → exec .start s = .next { s with seq := .fill }) ∧
  (∀ s : State, s.seq ≠ .idle → exec .start s = .next s)

/-- The places of the fields in the status word and the numbers they hold (R40, R42, R241). -/
def Obligations.StatusWordLayout : Prop :=
  (∀ s : State, s.statusWord.extractLsb' 0 3 = s.seq.code ∧ s.statusWord.getLsbD 3 = s.eos ∧
    s.statusWord.getLsbD 4 = s.done ∧ s.statusWord.getLsbD 5 = s.fault ∧ s.statusWord.extractLsb' 6 2 = s.cause.code) ∧
  [SeqState.idle, .fill, .init, .emit, .adv, .eos, .done, .fault].map SeqState.code = [0, 1, 2, 3, 4, 5, 6, 7] ∧
  [Cause.noFault, .outputWriteError, .inputReadError, .invariantViolation].map Cause.code = [0, 1, 2, 3]

/-! ## Ports (40_io_ports.md) -/

/-- What the port signals answer: `in_err` overrides `in_eoi`, which overrides `in_data`; `out_err` refuses (R134, R247). That
nothing is answered without an acknowledgement, and what an exhausted list answers, is the model's reading
(notes/assumptions/4.md, 7.md). -/
def Obligations.PortSignals : Prop :=
  (∀ x : InItem, x.ack = true → x.err = true → x.answer = some .err) ∧
  (∀ x : InItem, x.ack = true → x.err = false → x.eoi = true → x.answer = some .eoi) ∧
  (∀ x : InItem, x.ack = true → x.err = false → x.eoi = false → x.answer = some (.byte x.data)) ∧
  (∀ x : InItem, x.ack = false → x.answer = none) ∧
  (∀ x : OutItem, x.err = true → x.answer = some false) ∧
  (∀ x : OutItem, x.err = false → x.ack = true → x.answer = some true) ∧
  (∀ x : OutItem, x.err = false → x.ack = false → x.answer = none) ∧
  (∀ s : State, s.inPort = [] → s.nextInput = some .eoi) ∧ (∀ s : State, s.outPort = [] → s.nextSink = some true)

/-- Every outcome of ReadByte: a byte, the end of input, an error (the fault of R243), no answer (R18), and a byte after the
end of input, which is refused (R130, R131). -/
def Obligations.ReadByteOutcomes : Prop :=
  (∀ (s : State) (b : Byte), s.nextInput = some (.byte b) → s.inEnded = false →
    exec .readByte s = .next { s with nReads := s.nReads + 1, inPort := s.inPort.tail,
                                      events := s.events ++ [.read (.byte b)], result := .item (.byte b) }) ∧
  (∀ s : State, s.nextInput = some .eoi →
    exec .readByte s = .next { s with nReads := s.nReads + 1, inPort := s.inPort.tail,
                                      events := s.events ++ [.read .eoi], inEnded := true, result := .item .eoi }) ∧
  (∀ s : State, s.nextInput = some .err →
    exec .readByte s = .next { s with nReads := s.nReads + 1, inPort := s.inPort.tail,
                                      events := s.events ++ [.read .err], cause := .inputReadError, fault := true, seq := .fault }) ∧
  (∀ s : State, s.nextInput = none →
    exec .readByte s = .next { s with nReads := s.nReads + 1, inPort := s.inPort.tail, wait := some .read }) ∧
  (∀ (s : State) (b : Byte), s.nextInput = some (.byte b) → s.inEnded = true →
    exec .readByte s = .refused .byteAfterEndOfInput)

/-- WriteBit appends the bit to the output; a refused bit is not part of it and raises `OutputWriteError`; an unanswered one
stays offered (R132, R242, R18). -/
def Obligations.WriteBitOutcomes : Prop :=
  (∀ (s : State) (b : Bool), s.nextSink = some true → ∃ t, exec (.writeBit b) s = .next t ∧ PutsOut s t [b]) ∧
  (∀ (s : State) (b : Bool), s.nextSink = some false →
    exec (.writeBit b) s = .next { s with outPort := s.outPort.tail, events := s.events ++ [.bitRefused b],
                                          cause := .outputWriteError, fault := true, seq := .fault }) ∧
  (∀ (s : State) (b : Bool), s.nextSink = none →
    exec (.writeBit b) s = .next { s with outPort := s.outPort.tail, wait := some (.bit b) })

/-- PackBit fills bit `7 - bsCnt`; the byte is put out when its bit 0 is filled (R135). -/
def Obligations.PackBitFillsFromTheTop : Prop :=
  ∀ (s : State) (b : Bool), ∃ acc : Byte,
    (∀ j : Nat, j < 8 → acc.getLsbD j = if j = 7 - s.bsCnt.toNat then b else s.bsAcc.getLsbD j) ∧
    (s.bsCnt = 7 → s.packBit b = { s with outBytes := s.outBytes ++ [acc], bsAcc := 0, bsCnt := 0 }) ∧
    (s.bsCnt ≠ 7 → s.packBit b = { s with bsAcc := acc, bsCnt := s.bsCnt + 1 })

/-- WriteBits puts out bit `k-1` of the value first and bit 0 last and ignores the bits above; if a bit is refused, those before it
have been put out and the rest are not; a count outside `1 .. 32` is refused (R133). -/
def Obligations.WriteBitsMostSignificantFirst : Prop :=
  (∀ (s : State) (v : BitVec 32) (k : Nat), 1 ≤ k → k ≤ 32 → s.sinkTakes k = true →
    ∃ t, exec (.writeBits v k) s = .next t ∧ PutsOut s t ((List.range k).reverse.map v.getLsbD)) ∧
  (∀ (s : State) (v : BitVec 32) (k m : Nat), 1 ≤ k → k ≤ 32 → m < k → s.sinkRefusesAt m = true →
    ∃ t, exec (.writeBits v k) s = .next t ∧ AbortsAt s t ((List.range k).reverse.map v.getLsbD) m) ∧
  (∀ (s : State) (v : BitVec 32) (k : Nat), k = 0 ∨ 32 < k → exec (.writeBits v k) s = .refused .bitCountOutsideContract)

/-- Flush puts out a partly filled byte, its unfilled low bits 0, and puts out nothing at a byte boundary (R136). -/
def Obligations.FlushCompletesTheByte : Prop :=
  (∀ s : State, s.bsCnt = 0 → exec .flush s = .next s) ∧
  (∀ s : State, s.bsCnt ≠ 0 →
    exec .flush s = .next { s with outBytes := s.outBytes ++ [s.bsAcc], bsAcc := 0, bsCnt := 0 }) ∧
  (∀ s t : State, (msbBits 8 s.bsAcc.toNat).drop s.bsCnt.toNat = List.replicate (8 - s.bsCnt.toNat) false →
    exec .flush s = .next t →
    t.packedBits = s.packedBits ++ List.replicate ((8 - s.bsCnt.toNat) % 8) false)

/-! ## Records (30_encoding.md, 43_driver.md) -/

/-- The wire records as instructions put out their bits (R102 to R105); that a record can be asked for by itself, and what a match
record with position 0 does then, is the model's choice (notes/assumptions/19.md). -/
def Obligations.RecordsArePutOut : Prop :=
  (∀ (s : State) (b : Byte), s.sinkTakes 9 = true →
    ∃ t, exec (.literal b) s = .next t ∧ PutsOut s t
      [true, b.getLsbD 7, b.getLsbD 6, b.getLsbD 5, b.getLsbD 4, b.getLsbD 3, b.getLsbD 2, b.getLsbD 1, b.getLsbD 0]) ∧
  (∀ (s : State) (p : Pos) (l : BitVec 4), p ≠ 0 → s.sinkTakes 15 = true →
    ∃ t, exec (.matchRecord p l) s = .next t ∧ PutsOut s t
      [false, p.getLsbD 9, p.getLsbD 8, p.getLsbD 7, p.getLsbD 6, p.getLsbD 5, p.getLsbD 4, p.getLsbD 3, p.getLsbD 2,
        p.getLsbD 1, p.getLsbD 0, l.getLsbD 3, l.getLsbD 2, l.getLsbD 1, l.getLsbD 0]) ∧
  (∀ (s : State) (l : BitVec 4), exec (.matchRecord 0 l) s =
    .next { s with cause := .invariantViolation, fault := true, seq := .fault }) ∧
  (∀ s : State, s.sinkTakes 11 = true → ∃ t, exec .eos s = .next t ∧ PutsOut s t (List.replicate 11 false))

/-- EmitLiteral puts out the flag `1` and the byte at `winPos`, bit 7 first, and changes nothing else (R102, R107, R204). -/
def Obligations.EmitLiteralPutsOutTheByte : Prop :=
  ∀ s : State, s.sinkTakes 9 = true →
    let b := s.byteAt s.winPos
    ∃ t, exec .emitLiteral s = .next t ∧ PutsOut s t
      [true, b.getLsbD 7, b.getLsbD 6, b.getLsbD 5, b.getLsbD 4, b.getLsbD 3, b.getLsbD 2, b.getLsbD 1, b.getLsbD 0]

/-- EmitMatch makes its two checks, then puts out the flag `0`, the position as it stands, and the biased length (R103, R105,
R205). -/
def Obligations.EmitMatchPutsOutThePair : Prop :=
  (∀ s : State, s.matchPos = 0 ∨ 17 < s.matchLen →
    exec .emitMatch s = .next { s with cause := .invariantViolation, fault := true, seq := .fault }) ∧
  (∀ s : State, s.matchPos ≠ 0 → s.matchLen ≤ 17 → s.sinkTakes 15 = true →
    let p := s.matchPos
    ∃ (l : BitVec 4) (t : State), exec .emitMatch s = .next t ∧ (2 ≤ s.matchLen → l.toNat = s.matchLen.toNat - 2) ∧ PutsOut s t
      [false, p.getLsbD 9, p.getLsbD 8, p.getLsbD 7, p.getLsbD 6, p.getLsbD 5, p.getLsbD 4, p.getLsbD 3, p.getLsbD 2,
        p.getLsbD 1, p.getLsbD 0, l.getLsbD 3, l.getLsbD 2, l.getLsbD 1, l.getLsbD 0])

/-- EmitEos puts out the 11 zero bits of the terminator, no length field, and enters `S_DONE`: `done` is set and the sink is
flushed once; registers and memories keep their values (R104, R209, R212). -/
def Obligations.EmitEosEndsTheRun : Prop :=
  ∀ s : State, s.sinkTakes 11 = true →
    ∃ u, PutsOut s u (List.replicate 11 false) ∧
      exec .emitEos s = .next { u with seq := .done, done := true, bsCnt := 0,
                                       outBytes := if u.bsCnt = 0 then u.outBytes else u.outBytes ++ [u.bsAcc],
                                       bsAcc := if u.bsCnt = 0 then u.bsAcc else 0 }

/-- A refused bit, in every operation that puts bits out and at every bit of it: the bits before it are out, it is not, the fault is
taken and nothing else is written; in `S_EMIT` the registers the step would have written after the emission are not (R242). -/
def Obligations.RefusedBitEndsTheStep : Prop :=
  (∀ (s : State) (i : Instr) (bits : List Bool) (m : Nat), s.emission i = some bits → m < bits.length →
    s.sinkRefusesAt m = true → ∃ t, exec i s = .next t ∧ AbortsAt s t bits m) ∧
  (∀ (s : State) (bits : List Bool) (m : Nat), s.stopped = false → s.seq = .emit → s.aheadBytes ≠ 0 →
    s.clamp.emission (if s.clamp.matchLen ≤ 1 then .emitLiteral else .emitMatch) = some bits → m < bits.length →
    s.sinkRefusesAt m = true → ∃ t, sequencerStep s = .next t ∧ AbortsAt s.clamp t bits m)

/-- A bit that is never answered, in every operation that puts bits out and at every bit of it: the bits before it are out, it stays
offered, and the operation goes no further; in `S_EMIT` the registers the step would have written after the emission are not. A read
that is never answered, in Prefill and in Advance: it is counted, it stays asked for, and nothing after it happens; in an advance the
delete of step 3a has been done and stays. All of it is the model's reading of R18 and R252 (DEDUCED, notes/assumptions/5.md). -/
def Obligations.UnansweredBitStaysOffered : Prop :=
  (∀ (s : State) (i : Instr) (bits : List Bool) (m : Nat), s.emission i = some bits → m < bits.length →
    s.sinkWaitsAt m = true → ∃ t, exec i s = .next t ∧ WaitsAt s t bits m ∧ t.outValid = true) ∧
  (∀ (s : State) (bits : List Bool) (m : Nat), s.stopped = false → s.seq = .emit → s.aheadBytes ≠ 0 →
    s.clamp.emission (if s.clamp.matchLen ≤ 1 then .emitLiteral else .emitMatch) = some bits → m < bits.length →
    s.sinkWaitsAt m = true → ∃ t, sequencerStep s = .next t ∧ WaitsAt s.clamp t bits m ∧ t.outValid = true) ∧
  (∀ s : State, s.aheadBytes < 17 → s.eos = false → s.nextInput = none →
    ∃ t, exec .prefill s = .next t ∧
      t = { s with nReads := s.nReads + 1, inPort := s.inPort.tail, wait := some .read } ∧ t.inReq = true) ∧
  (∀ s u : State, exec (.deleteNode (s.winPos + 17)) s = .next u → u.seq ≠ .fault → s.nextInput = none →
    ∃ t, exec .advance s = .next t ∧
      t = { u with nReads := s.nReads + 1, inPort := s.inPort.tail, wait := some .read } ∧ t.inReq = true)

/-! ## Tree operations (41_tree_ops.md) -/

/-- InitTree writes the root record and the record of its operand and no other; operand 0 is refused (R150). -/
def Obligations.InitTreeWritesTwoRecords : Prop :=
  (∀ (s : State) (p : Pos), p ≠ 0 → ∃ t, exec (.initTree p) s = .next t ∧ t = { s with node := t.node } ∧
    ∀ n, t.nodeAt n =
      if n = posToNode p then { parent := 1024, smallChild := 0, largeChild := 0 }
      else if n = 1024 then { parent := 0, smallChild := 0, largeChild := posToNode p }
      else s.nodeAt n) ∧
  (∀ s : State, exec (.initTree 0) s = .refused .initTreeAtPositionZero)

/-- ContractNode splices `new` in under the parent of `old` and clears `old`; `largeChild` is tested first; when neither child of
the parent is `old` it raises, with the write of step 1 kept (R151, R244). That the
splice is done also for operands R151 does not name is the model's choice (DESIGN CHOICE, notes/assumptions/22.md). -/
def Obligations.ContractNodeSplices : Prop :=
  ∀ (s : State) (old new : NodeIx),
    let f := s.nodeAt
    let par := (f old).parent
    ((f par).largeChild = old ∨ (f par).smallChild = old →
      ∃ t, exec (.contractNode old new) s = .next t ∧ t = { s with node := t.node, par := par } ∧
        ∀ n, t.nodeAt n =
          if n = old then NodeRec.zero
          else { parent := if n = new then par else (f n).parent
                 smallChild := if n = par ∧ (f par).largeChild ≠ old then new else (f n).smallChild
                 largeChild := if n = par ∧ (f par).largeChild = old then new else (f n).largeChild }) ∧
    ((f par).largeChild ≠ old → (f par).smallChild ≠ old →
      ∃ t, exec (.contractNode old new) s = .next t ∧
        t = { s with node := t.node, par := par, cause := .invariantViolation, fault := true, seq := .fault } ∧
        ∀ n, t.nodeAt n = if n = new then { f n with parent := par } else f n)

/-- ReplaceNode gives a slot that is not in the tree the exact position of a live one, both children with it; a write through an
absent child goes to the parent field of record 0; when neither child of the parent is `old` it raises (R152, R244). -/
def Obligations.ReplaceNodeTakesThePlace : Prop :=
  ∀ (s : State) (old new : NodeIx),
    let f := s.nodeAt
    let par := (f old).parent
    (TreeShape f → liveIn f old → new ≠ 0 → new ≠ 1024 → (f new).parent = 0 →
      ∃ t, exec (.replaceNode old new) s = .next t ∧ t = { s with node := t.node, par := par } ∧
        ∀ n, t.nodeAt n =
          if n = old then NodeRec.zero
          else if n = new then f old
          else { parent := if n = (f old).smallChild ∨ n = (f old).largeChild then new else (f n).parent
                 smallChild := if n = par ∧ (f par).smallChild = old then new else (f n).smallChild
                 largeChild := if n = par ∧ (f par).largeChild = old then new else (f n).largeChild }) ∧
    ((f par).smallChild ≠ old → (f par).largeChild ≠ old →
      exec (.replaceNode old new) s =
        .next { s with par := par, cause := .invariantViolation, fault := true, seq := .fault })

/-- FindNextNode: without a `smallChild` it raises; otherwise it returns the end of the walk along `largeChild`, and writes nothing
but its walker; in a tree the walk ends, at a live slot, which in an ordered tree holds the greatest key of the `smallChild` subtree
of the operand (R153). -/
def Obligations.FindNextNodeWalksToTheGreatest : Prop :=
  (∀ (s : State) (n : NodeIx), (s.nodeAt n).smallChild = 0 →
    exec (.findNextNode n) s = .next { s with cause := .invariantViolation, fault := true, seq := .fault }) ∧
  (∀ (s : State) (n r : NodeIx), (s.nodeAt n).smallChild ≠ 0 → LargeWalk s.nodeAt (s.nodeAt n).smallChild r →
    exec (.findNextNode n) s = .next { s with nxt := r, result := .node r } ∧ (s.nodeAt r).largeChild = 0) ∧
  (∀ (s : State) (n : NodeIx), TreeShape s.nodeAt → liveIn s.nodeAt n → (s.nodeAt n).smallChild ≠ 0 →
    ∃ r, LargeWalk s.nodeAt (s.nodeAt n).smallChild r ∧ liveIn s.nodeAt r ∧
      (Ordered s.nodeAt s.window → ∀ m, Under s.nodeAt (s.nodeAt n).smallChild m →
        m = r ∨ keyOf s.window (nodeToPos m) < keyOf s.window (nodeToPos r)))

/-- DeleteNode does nothing at all to a slot that is not live, and nothing at position 0 whatever record 0 holds (R154, decision
D4). -/
def Obligations.DeleteNodeToleratesDeadSlots : Prop :=
  ∀ (s : State) (n : Pos), n = 0 ∨ (s.nodeAt (posToNode n)).parent = 0 → exec (.deleteNode n) s = .next s

/-- DeleteNode takes a live slot out of the tree, clears its record, takes no other slot out, and leaves a tree; it touches `Node`
and its scratch registers only (R154 with R46 and R47). -/
def Obligations.DeleteNodeRemovesExactlyItsSlot : Prop :=
  ∀ (s : State) (n : Pos), TreeShape s.nodeAt → liveIn s.nodeAt (posToNode n) →
    ∃ t, exec (.deleteNode n) s = .next t ∧
      t = { s with node := t.node, par := t.par, nxt := t.nxt, repl := t.repl } ∧
      TreeShape t.nodeAt ∧ t.nodeAt (posToNode n) = NodeRec.zero ∧
      ∀ m, liveIn t.nodeAt m ↔ liveIn s.nodeAt m ∧ m ≠ posToNode n

/-- DeleteNode keeps the tree a search tree (R155). -/
def Obligations.DeleteNodeKeepsTheOrder : Prop :=
  ∀ (s t : State) (n : Pos), TreeShape s.nodeAt → Ordered s.nodeAt s.window → exec (.deleteNode n) s = .next t →
    Ordered t.nodeAt t.window

/-- The frame of the tree operations: `Node`, the scratch registers, the returned value, and, when a check fails, the three registers
a fault writes; never `Window`, a port, or a driver register. -/
def Obligations.TreeOperationsTouchOnlyTheTree : Prop :=
  ∀ (s t : State) (i : Instr),
    ((∃ p, i = .initTree p) ∨ (∃ o n, i = .contractNode o n) ∨ (∃ o n, i = .replaceNode o n) ∨ (∃ n, i = .findNextNode n) ∨
      (∃ p, i = .deleteNode p) ∨ (∃ p, i = .addNode p)) →
    exec i s = .next t →
    t = { s with node := t.node, par := t.par, nxt := t.nxt, repl := t.repl, testNode := t.testNode, i := t.i,
                 delta := t.delta, bestLen := t.bestLen, bestPos := t.bestPos, result := t.result,
                 cause := t.cause, fault := t.fault, seq := t.seq } ∧
    ((t.cause = s.cause ∧ t.fault = s.fault ∧ t.seq = s.seq) ∨
      (t.cause = .invariantViolation ∧ t.fault = true ∧ t.seq = .fault)) ∧
    ((∀ p, i ≠ .addNode p) →
      t.testNode = s.testNode ∧ t.i = s.i ∧ t.delta = s.delta ∧ t.bestLen = s.bestLen ∧ t.bestPos = s.bestPos)

/-! ## Match engine (42_match_engine.md) -/

/-- Compare: the length of the common prefix of the two keys, the signed difference at the first mismatch (0 when there is none), the
order of the keys in its sign, its range, and its frame (R181, R287). -/
def Obligations.CompareGivesPrefixAndSign : Prop :=
  ∀ (s : State) (new test : Pos), ∃ (c : Cnt) (d : BitVec 16),
    exec (.compare new test) s = .next { s with i := c, delta := d, result := .difference c d } ∧
    c.toNat = commonPrefix (keyOf s.window new) (keyOf s.window test) ∧ c.toNat ≤ 17 ∧
    (c.toNat < 17 → d ≠ 0 ∧ d.toInt =
      ((s.byteAt (new + c.setWidth 10)).toNat : Int) - ((s.byteAt (test + c.setWidth 10)).toNat : Int)) ∧
    (c.toNat = 17 → d = 0 ∧ keyOf s.window new = keyOf s.window test) ∧
    (0 < d.toInt ↔ keyOf s.window test < keyOf s.window new) ∧
    (d.toInt < 0 ↔ keyOf s.window new < keyOf s.window test) ∧
    -255 ≤ d.toInt ∧ d.toInt ≤ 255

/-- The guard and the two checks of AddNode: position 0 leaves the tree untouched and returns length 0 with `matchPos` as it stands; a
slot that is in the tree already, or an empty tree, raises (R182). -/
def Obligations.AddNodeGuards : Prop :=
  (∀ s : State, exec (.addNode 0) s = .next { s with result := .best 0 s.matchPos }) ∧
  (∀ (s : State) (new : Pos), new ≠ 0 → (s.nodeAt (posToNode new)).parent ≠ 0 →
    exec (.addNode new) s = .next { s with cause := .invariantViolation, fault := true, seq := .fault }) ∧
  (∀ (s : State) (new : Pos), new ≠ 0 → (s.nodeAt (posToNode new)).parent = 0 → (s.nodeAt 1024).largeChild = 0 →
    exec (.addNode new) s =
      .next { s with testNode := 0, cause := .invariantViolation, fault := true, seq := .fault })

/-- AddNode in a tree that is not empty, for a slot that is not in it: it completes; the match it reports is a live slot other than 0
whose first bytes are those at `new`, at most 17 of them; `new` is live afterwards, every other live slot stays, but for the reported
one when all 17 bytes agree, whose place `new` takes; a tree is left; nothing but `Node` and the scratch registers is written
(R182, R184, R185, R188). -/
def Obligations.AddNodeLinksAndMatches : Prop :=
  ∀ (s : State) (new : Pos), TreeShape s.nodeAt → (s.nodeAt 1024).largeChild ≠ 0 → new ≠ 0 →
    (s.nodeAt (posToNode new)).parent = 0 →
    ∃ (t : State) (m : Cnt) (p : Pos), exec (.addNode new) s = .next t ∧
      t = { s with node := t.node, par := t.par, testNode := t.testNode, i := t.i, delta := t.delta,
                   bestLen := m, bestPos := p, result := .best m p } ∧
      TreeShape t.nodeAt ∧ m ≤ 17 ∧ p ≠ 0 ∧ liveIn s.nodeAt (posToNode p) ∧
      (∀ j : Nat, j < m.toNat → s.byteAt (p + BitVec.ofNat 10 j) = s.byteAt (new + BitVec.ofNat 10 j)) ∧
      ∀ n, liveIn t.nodeAt n ↔ n = posToNode new ∨ (liveIn s.nodeAt n ∧ ¬ (m = 17 ∧ n = posToNode p))

/-- In an ordered tree the match AddNode reports is a longest one: no live slot shares more leading bytes with `new` (R188 (b)). -/
def Obligations.AddNodeFindsTheLongest : Prop :=
  ∀ (s : State) (new : Pos), TreeShape s.nodeAt → Ordered s.nodeAt s.window → (s.nodeAt 1024).largeChild ≠ 0 → new ≠ 0 →
    (s.nodeAt (posToNode new)).parent = 0 →
    ∃ (t : State) (m : Cnt) (p : Pos), exec (.addNode new) s = .next t ∧ t.result = .best m p ∧
      m.toNat = shared s.window new (posToNode p) ∧
      ∀ n, liveIn s.nodeAt n → shared s.window new n ≤ m.toNat

/-- Ties: of the nodes on the search path that share the most leading bytes with `new`, the deepest is reported (R183). -/
def Obligations.AddNodeTiesGoToTheDeepest : Prop :=
  ∀ (s : State) (new : Pos) (path : List NodeIx), TreeShape s.nodeAt → (s.nodeAt 1024).largeChild ≠ 0 → new ≠ 0 →
    (s.nodeAt (posToNode new)).parent = 0 → Visits s.nodeAt s.window new (s.nodeAt 1024).largeChild path →
    ∃ (t : State) (m : Cnt) (n : NodeIx) (above below : List NodeIx),
      exec (.addNode new) s = .next t ∧ t.result = .best m (nodeToPos n) ∧ path = above ++ n :: below ∧
      shared s.window new n = m.toNat ∧ (∀ x ∈ above, shared s.window new x ≤ m.toNat) ∧
      ∀ x ∈ below, shared s.window new x < m.toNat

/-- AddNode keeps the tree a search tree, with no two live keys equal (R47, R185). -/
def Obligations.AddNodeKeepsTheOrder : Prop :=
  ∀ (s t : State) (new : Pos), TreeShape s.nodeAt → Ordered s.nodeAt s.window → exec (.addNode new) s = .next t →
    Ordered t.nodeAt t.window

/-- Each of the checks of the block raises `InvariantViolation`; none is a silent continuation (R244). -/
def Obligations.ChecksRaise : Prop :=
  ∀ s : State,
    (∀ (i : Instr),
      (∃ o n, i = .contractNode o n ∧ (s.nodeAt (s.nodeAt o).parent).largeChild ≠ o ∧ (s.nodeAt (s.nodeAt o).parent).smallChild ≠ o) ∨
      (∃ o n, i = .replaceNode o n ∧ (s.nodeAt (s.nodeAt o).parent).smallChild ≠ o ∧ (s.nodeAt (s.nodeAt o).parent).largeChild ≠ o) ∨
      (∃ n, i = .findNextNode n ∧ (s.nodeAt n).smallChild = 0) ∨
      (∃ n, i = .addNode n ∧ n ≠ 0 ∧ (s.nodeAt (posToNode n)).parent ≠ 0) ∨
      (∃ n, i = .addNode n ∧ n ≠ 0 ∧ (s.nodeAt 1024).largeChild = 0) ∨
      (i = .emitMatch ∧ 17 < s.matchLen) ∨
      (i = .emitMatch ∧ s.matchPos = 0) →
      ∃ t, exec i s = .next t ∧ t.cause = .invariantViolation ∧ t.fault = true ∧ t.seq = .fault ∧ t.events = s.events)

/-! ## The driver (43_driver.md) -/

/-- Prefill: while there is room and no end of input was seen, one read, which stores its byte after the valid ones or sets `eos`;
otherwise on to `S_INIT` (R201). -/
def Obligations.PrefillReadsOnce : Prop :=
  (∀ (s : State) (b : Byte), s.aheadBytes < 17 → s.eos = false → s.nextInput = some (.byte b) → s.inEnded = false →
    ∃ t, exec .prefill s = .next t ∧
      t = { s with window := t.window, aheadBytes := s.aheadBytes + 1, seq := .fill, nReads := s.nReads + 1,
                   inPort := s.inPort.tail, events := s.events ++ [.read (.byte b)] } ∧
      ∀ a, t.byteAt a = if a = s.winPos + s.aheadBytes.setWidth 10 then b else s.byteAt a) ∧
  (∀ s : State, s.aheadBytes < 17 → s.eos = false → s.nextInput = some .eoi →
    exec .prefill s = .next { s with eos := true, seq := .fill, nReads := s.nReads + 1, inPort := s.inPort.tail,
                                     events := s.events ++ [.read .eoi], inEnded := true }) ∧
  (∀ s : State, 17 ≤ s.aheadBytes ∨ s.eos = true → exec .prefill s = .next { s with seq := .init })

/-- A read error in `S_FILL` and in `S_ADV`: nothing after the read happens; in an advance the delete of step 3a has been done and
stays (R243). -/
def Obligations.ReadErrorAborts : Prop :=
  (∀ s : State, s.aheadBytes < 17 → s.eos = false → s.nextInput = some .err →
    exec .prefill s = .next { s with nReads := s.nReads + 1, inPort := s.inPort.tail, events := s.events ++ [.read .err],
                                     cause := .inputReadError, fault := true, seq := .fault }) ∧
  (∀ s u : State, exec (.deleteNode (s.winPos + 17)) s = .next u → u.seq ≠ .fault → s.nextInput = some .err →
    exec .advance s = .next { u with nReads := s.nReads + 1, inPort := s.inPort.tail, events := s.events ++ [.read .err],
                                     cause := .inputReadError, fault := true, seq := .fault })

/-- The step in `S_INIT` is `InitTree(winPos)` and goes to `S_EMIT` (R202). -/
def Obligations.InitStepMakesTheTree : Prop :=
  ∀ s : State, s.stopped = false → s.seq = .init → s.winPos ≠ 0 →
    ∃ t, sequencerStep s = .next t ∧ t = { s with node := t.node, seq := .emit } ∧
      ∀ n, t.nodeAt n =
        if n = posToNode s.winPos then { parent := 1024, smallChild := 0, largeChild := 0 }
        else if n = 1024 then { parent := 0, smallChild := 0, largeChild := posToNode s.winPos }
        else s.nodeAt n

/-- The step in `S_EMIT`: the loop test; the clamp, which writes the register; the choice; one record; `replCnt` and `advCnt` (R203,
R206). -/
def Obligations.EmitStepClampsAndChooses : Prop :=
  ∀ s : State, s.stopped = false → s.seq = .emit →
    let m := if s.aheadBytes < s.matchLen then s.aheadBytes else s.matchLen
    (s.aheadBytes = 0 → sequencerStep s = .next { s with seq := .eos }) ∧
    (s.aheadBytes ≠ 0 → m ≤ 1 → s.sinkTakes 9 = true →
      ∃ u, PutsOut { s with matchLen := m } u (literalBits (s.byteAt s.winPos)) ∧
        sequencerStep s = .next { u with replCnt := 1, advCnt := 0, seq := .adv }) ∧
    (s.aheadBytes ≠ 0 → 1 < m → m ≤ 17 → s.matchPos ≠ 0 → s.sinkTakes 15 = true →
      ∃ u, PutsOut { s with matchLen := m } u (matchBits s.matchPos (lengthField m)) ∧
        sequencerStep s = .next { u with replCnt := m, advCnt := 0, seq := .adv }) ∧
    (s.aheadBytes ≠ 0 → 1 < m → 17 < m ∨ s.matchPos = 0 →
      sequencerStep s = .next { s with matchLen := m, cause := .invariantViolation, fault := true, seq := .fault })

/-- Advance, from a tree whose live slots lie in the window behind `winPos` and whose slot `winPos` is live, when the read is
answered: it completes. One read; the byte goes into the fill slot, or the look-ahead shrinks by one; `winPos` moves on; the slot
whose byte was about to be overwritten is out of the tree; the new match is a real one, or, when the look-ahead is empty, match
registers keep their values; the count goes up and says what runs next; a tree of the same kind is left (R207, R208, R49). -/
def Obligations.AdvanceMovesTheWindow : Prop :=
  ∀ (s : State) (r : Answer), TreeShape s.nodeAt → liveWithin s.nodeAt s.winPos 1007 → anchored s.nodeAt s.winPos →
    s.nextInput = some r → (r = .eoi ∨ (s.inEnded = false ∧ ∃ b, r = .byte b)) →
    ∃ t, exec .advance s = .next t ∧
      t = { s with node := t.node, window := t.window, par := t.par, nxt := t.nxt, repl := t.repl, testNode := t.testNode,
                   i := t.i, delta := t.delta, bestLen := t.bestLen, bestPos := t.bestPos,
                   matchLen := t.matchLen, matchPos := t.matchPos,
                   aheadBytes := if r = .eoi then s.aheadBytes - 1 else s.aheadBytes,
                   winPos := s.winPos + 1, advCnt := s.advCnt + 1,
                   seq := if s.advCnt + 1 = s.replCnt then .emit else .adv,
                   nReads := s.nReads + 1, inPort := s.inPort.tail, events := s.events ++ [.read r],
                   inEnded := if r = .eoi then true else s.inEnded } ∧
      (∀ a, t.byteAt a = match r with
        | .byte b => if a = s.winPos + 17 then b else s.byteAt a
        | _ => s.byteAt a) ∧
      (t.aheadBytes = 0 → t.matchLen = s.matchLen ∧ t.matchPos = s.matchPos) ∧
      (t.aheadBytes ≠ 0 → t.matchLen ≤ 17 ∧ (t.matchLen ≠ 0 → t.matchPos ≠ 0) ∧ ∀ j : Nat, j < t.matchLen.toNat →
        t.byteAt (t.matchPos + BitVec.ofNat 10 j) = t.byteAt (t.winPos + BitVec.ofNat 10 j)) ∧
      TreeShape t.nodeAt ∧ liveWithin t.nodeAt t.winPos 1007 ∧ ¬ liveIn t.nodeAt (posToNode (s.winPos + 17)) ∧
      (t.aheadBytes ≠ 0 → anchored t.nodeAt t.winPos)

/-- An advance keeps the search order: no key of a live slot is touched by the write of step 3b, and the tree searched in step 3d is
ordered (R76, R280, R47). -/
def Obligations.AdvanceKeepsTheOrder : Prop :=
  ∀ s t : State, TreeShape s.nodeAt → Ordered s.nodeAt s.window → liveWithin s.nodeAt s.winPos 1007 →
    exec .advance s = .next t → Ordered t.nodeAt t.window

/-! ## The sequencer and whole runs -/

/-- The table of R200: what can run next after each step that no fault ends and no port leaves waiting, and where the flags are
written. -/
def Obligations.SequencerTable : Prop :=
  ∀ s t : State, s.stopped = false → sequencerStep s = .next t → t.wait = none → t.seq ≠ .fault →
    (s.seq = .idle → t = s) ∧
    (s.seq = .fill → t.seq = .fill ∨ t.seq = .init) ∧
    (s.seq = .init → t.seq = .emit) ∧
    (s.seq = .emit → t.seq = .adv ∨ t.seq = .eos) ∧
    (s.seq = .adv → t.seq = .adv ∨ t.seq = .emit) ∧
    (s.seq = .eos → t.seq = .done ∧ t.done = true) ∧
    (s.seq ≠ .eos → t.done = s.done) ∧ (s.seq ≠ .fill → t.eos = s.eos) ∧ t.fault = s.fault ∧ t.cause = s.cause

/-- No read-ahead and no reordering: the reads of a run are one a prefill step and one an advance, its bits are those of records and of
the terminator, and each step's transactions follow those before it (R211, R284). -/
def Obligations.TransactionsInProgramOrder : Prop :=
  ∀ s t : State, sequencerStep s = .next t → ∃ new : List Event, t.events = s.events ++ new ∧
    (s.stopped = true ∨ s.seq = .idle ∨ s.seq = .init → new = []) ∧
    (s.seq = .fill ∨ s.seq = .adv → new.length ≤ 1 ∧ ∀ e ∈ new, ∃ a, e = .read a) ∧
    (s.seq = .emit ∨ s.seq = .eos → ∀ e ∈ new, ∃ b, e = .bit b ∨ e = .bitRefused b) ∧
    (s.stopped = false → t.wait = none → t.seq ≠ .fault →
      (s.seq = .adv → new.length = 1) ∧ (s.seq = .eos → new.length = 11) ∧
      (s.seq = .emit → new.length = 0 ∨ new.length = 9 ∨ new.length = 15))

/-- Which instructions write which state: `Window` and the input count only Prefill, Advance (and ReadByte the count); `Node` only the
tree operations, AddNode and Advance; the driver registers only Prefill and Advance; CompressData is made of them and Reset
writes everything (R31 to R37, R43, R44, R51). -/
def Obligations.WritersOfTheState : Prop :=
  ∀ (s t : State) (i : Instr), exec i s = .next t → i ≠ .compressData → i ≠ .reset →
    (i ≠ .prefill → i ≠ .advance → t.window = s.window ∧ t.aheadBytes = s.aheadBytes ∧
      (i ≠ .readByte → t.nReads = s.nReads ∧ t.inPort = s.inPort ∧ t.inEnded = s.inEnded)) ∧
    (i ≠ .advance → t.winPos = s.winPos ∧ t.matchLen = s.matchLen ∧ t.matchPos = s.matchPos ∧ t.advCnt = s.advCnt ∧
      ((∀ p, i ≠ .initTree p) → (∀ o n, i ≠ .contractNode o n) → (∀ o n, i ≠ .replaceNode o n) →
        (∀ n, i ≠ .deleteNode n) → (∀ n, i ≠ .addNode n) → t.node = s.node)) ∧
    (i ≠ .prefill → t.eos = s.eos) ∧ t.replCnt = s.replCnt ∧ (i ≠ .emitEos → t.done = s.done) ∧
    (s.emission i = none → t.outBits = s.outBits ∧ t.outPort = s.outPort)

/-- CompressData is the sequencer's steps, from the start of the run or from where it stands, until it is done, stopped on a fault or
left waiting (R200; that it can be asked for as one instruction is notes/assumptions/11.md). -/
def Obligations.CompressDataIsItsSteps : Prop :=
  ∀ s t : State, exec .compressData s = .next t ↔ ∃ n, runSteps n s.started = .next t ∧ t.stopped = true

/-- The model's bound on the number of steps of CompressData (DESIGN CHOICE, notes/assumptions/11.md) is never reached, from any state
whatever; in a state whose links form a cycle, which no run reaches, CompressData can still stop in a step that never ends
(notes/assumptions/12.md). From every state of a run it ends in a block that is done, stopped on a fault of the hardware, or left
waiting, or it is refused for a byte answered after the end of input (R131, R214, R285). -/
def Obligations.CompressDataEnds : Prop :=
  (∀ s : State, exec .compressData s ≠ .fault .runNeverEnds) ∧
  (∀ s : State, RunInv s →
    (∃ t, exec .compressData s = .next t ∧ t.stopped = true) ∨ exec .compressData s = .refused .byteAfterEndOfInput)

/-- From every state of a run, with an environment that keeps the input contract and answers without error, CompressData completes: the
run is done, without a fault (R18, R212, R285). -/
def Obligations.CompressDataCompletes : Prop :=
  ∀ s : State, RunInv s → inputContract s.inEnded s.inPort = true → s.inputAnswers = true → s.sinkAnswers = true →
    s.wait = none → s.seq ≠ .fault →
    ∃ t, exec .compressData s = .next t ∧ RunInv t ∧ t.seq = .done ∧ t.done = true ∧ t.fault = false

/-- On every input of bytes: the number of reads is `min(L + 1, 17) + L`; the output is data records that stand for `L` bytes and one
terminator, at most `9 L + 11` bits; the packed bytes are those bits, padded with at most 7 zeros (R211, R112, R135). -/
def Obligations.CompressDataCounts : Prop :=
  ∀ bs : List Byte, ∃ t, exec .compressData (State.onInput bs) = .next t ∧ t.seq = .done ∧
    eventBytes t.events = bs ∧ t.nReads = min (bs.length + 1) 17 + bs.length ∧
    streamOf t.outBits bs.length eosBits ∧ t.outBits.length ≤ 9 * bs.length + 11 ∧
    t.packedBits = t.outBits ++ List.replicate ((8 - t.outBits.length % 8) % 8) false

/-- "For every finite byte sequence S, decompress(compress(S)) == S" (R115): what CompressData puts out parses as a stream, and a
conforming reader of it yields the input. How a reader starts and copies is an inference of the spec, marked [derived]: "The start
position 1 and the byte-at-a-time copy are this spec's reading of "kept synchronized"; the source does not spell them out" (R115, N14);
`decompress` is written from that reading. -/
def Obligations.RoundTrip : Prop :=
  ∀ bs : List Byte, ∃ (t : State) (rs : List Instr), exec .compressData (State.onInput bs) = .next t ∧
    decodeStream t.outBits = .ok (rs ++ [.eos], []) ∧ decompress rs = bs

/-! ## The step -/

/-- A step performs what is raised: when the request decodes to an instruction, the step is that instruction's effect on the state with
the request taken; a stopped block performs Reset only; a request that decodes to nothing is refused; when nothing is raised the
sequencer takes its own step (R200, R210; the requests are notes/assumptions/1.md and 16.md). -/
def Obligations.StepRunsTheRaisedInstruction : Prop :=
  (∀ (s : State) (i : Instr), decode s.raised = .ok i → s.stopped = false ∨ i = .reset → step s = exec i s.dropRequest) ∧
  (∀ (s : State) (i : Instr), decode s.raised = .ok i → s.stopped = true → i ≠ .reset → step s = .next s.dropRequest) ∧
  (∀ s : State, s.raised = .quiet → step s = sequencerStep s.dropRequest) ∧
  (∀ (s : State) (e : DecodeError), s.raised ≠ .quiet → decode s.raised = .error e → step s = .refused (.badRequest e)) ∧
  (∀ (s : State) (i : Instr), s.dropRequest = { s with reqs := s.reqs.tail } ∧
    State.raised { s with reqs := encode i :: s.reqs } = encode i)

/-- Taking a fault: the operation stops at the raise, the cause, the flag and the sequencer are written and nothing else (R246); from then
on no step but one that performs Reset changes anything but the queue of requests: no read, no bit, no flush. That a stopped block
takes every other request off the queue and performs none is the model's reading (DEDUCED, notes/assumptions/16.md), over a queue
that is the model's own (DESIGN CHOICE, notes/assumptions/1.md). -/
def Obligations.FaultStopsTheBlock : Prop :=
  (∀ (c : Cause) (s : State) (k : Unit → State → Res Unit),
    (raise c s).andThen k = .stop { s with cause := c, fault := true, seq := .fault }) ∧
  (∀ s t : State, s.seq = .fault → decode s.raised ≠ .ok .reset → step s = .next t → t = s.dropRequest)

/-- Done, and waiting for an answer that does not come: no step but one that performs Reset changes anything but the queue of requests
(R212, R18, R252; that it is so for every request is notes/assumptions/16.md). -/
def Obligations.StoppedBlockStays : Prop :=
  ∀ s t : State, s.seq = .done ∨ s.wait ≠ none → decode s.raised ≠ .ok .reset → step s = .next t → t = s.dropRequest

/-- Every step keeps the memories in their canonical form, the flags in agreement with the sequencer, and the counts in agreement with
the transactions, whatever is raised (R41, R51, R70, R17). -/
def Obligations.EveryStepKeepsTheBookkeeping : Prop :=
  ∀ s t : State, s.memoriesWf = true → s.flagsAgree = true → s.traceAgrees = true → step s = .next t →
    t.memoriesWf = true ∧ t.flagsAgree = true ∧ t.traceAgrees = true

/-- The invariant of the runs of the hardware holds at reset, and the empty tree is a search tree. -/
def Obligations.RunInvAtReset : Prop := RunInv State.reset ∧ Ordered State.reset.nodeAt State.reset.window

/-- Every step of a run of the hardware keeps its invariant: the shape of the tree (R44 to R49), the window (R81), the driver's registers
(R31 to R37, R213, R214), the flags, the counts, the packed bytes, the records put out so far (R100, R112), and that no internal
check has failed (R285). -/
def Obligations.RunInvIsKept : Prop :=
  ∀ s t : State, RunInv s → step s = .next t → RunInv t

/-- No run of the hardware faults in the model or is refused, but for an environment that breaks the input contract (R131, R285); one
that keeps it keeps it. -/
def Obligations.RunsGoOn : Prop :=
  (∀ s : State, RunInv s → (∃ t, step s = .next t) ∨ step s = .refused .byteAfterEndOfInput) ∧
  (∀ s : State, RunInv s → inputContract s.inEnded s.inPort = true →
    ∃ t, step s = .next t ∧ inputContract t.inEnded t.inPort = true)

/-- The search order is kept through a run: the tree is a search tree after every step (R47). -/
def Obligations.RunsKeepTheOrder : Prop :=
  ∀ s t : State, RunInv s → Ordered s.nodeAt s.window → step s = .next t → Ordered t.nodeAt t.window

end Statements
end

