-- ==== Sys2Proof/Laws/Memory.lean ====
section
/-! SUPPORT. The laws of the two memories: read after write, other addresses, the canonical form, and that two canonical
memories which read alike are the same list. -/

namespace Sys2Proof.Machine

/-! ## Sparse lists -/

section Sparse

variable {α : Type} (d : α)

theorem sparseRead_erase_same (m : List (Nat × α)) (a : Nat) : sparseRead d (sparseErase a m) a = d := by
  induction m with
  | nil => rfl
  | cons c t ih =>
    by_cases h : c.1 = a
    · simp [sparseErase, h, ih]
    · simp [sparseErase, h, sparseRead, ih]

theorem sparseRead_erase_other (m : List (Nat × α)) {a b : Nat} (hab : b ≠ a) :
    sparseRead d (sparseErase a m) b = sparseRead d m b := by
  induction m with
  | nil => rfl
  | cons c t ih =>
    by_cases h : c.1 = a
    · have : c.1 ≠ b := fun e => hab (e.symm.trans h)
      simp [sparseErase, h, sparseRead, ih, Ne.symm hab]
    · simp only [sparseErase, h, if_false, sparseRead, ih]

theorem sparseRead_insert_other (m : List (Nat × α)) {a b : Nat} (v : α) (hab : b ≠ a) :
    sparseRead d (sparseInsert a v m) b = sparseRead d m b := by
  induction m with
  | nil => simp [sparseInsert, sparseRead, Ne.symm hab]
  | cons c t ih =>
    by_cases hc : a < c.1
    · simp [sparseInsert, hc, sparseRead, Ne.symm hab]
    · simp only [sparseInsert, hc, if_false, sparseRead, ih]

theorem sparseErase_keys (m : List (Nat × α)) (a : Nat) : ∀ c ∈ sparseErase a m, c.1 ≠ a := by
  induction m with
  | nil => simp [sparseErase]
  | cons c t ih =>
    by_cases h : c.1 = a
    · simpa [sparseErase, h] using ih
    · intro x hx
      simp only [sparseErase, h, if_false, List.mem_cons] at hx
      rcases hx with rfl | hx
      · exact h
      · exact ih x hx

theorem sparseRead_insert_same (m : List (Nat × α)) (a : Nat) (v : α) (h : ∀ c ∈ m, c.1 ≠ a) :
    sparseRead d (sparseInsert a v m) a = v := by
  induction m with
  | nil => simp [sparseInsert, sparseRead]
  | cons c t ih =>
    by_cases hc : a < c.1
    · simp [sparseInsert, hc, sparseRead]
    · have hne : c.1 ≠ a := h c (by simp)
      simp [sparseInsert, hc, sparseRead, hne, ih fun x hx => h x (by simp [hx])]

variable [DecidableEq α]

theorem sparseRead_write_same (m : List (Nat × α)) (a : Nat) (v : α) : sparseRead d (sparseWrite d m a v) a = v := by
  unfold sparseWrite
  split
  · next h => rw [sparseRead_erase_same, h]
  · exact sparseRead_insert_same d _ a v (sparseErase_keys m a)

theorem sparseRead_write_other (m : List (Nat × α)) {a b : Nat} (v : α) (hab : b ≠ a) :
    sparseRead d (sparseWrite d m a v) b = sparseRead d m b := by
  unfold sparseWrite
  split
  · exact sparseRead_erase_other d m hab
  · rw [sparseRead_insert_other d _ v hab, sparseRead_erase_other d m hab]

/-- Everything the canonical form says of a list with a first entry. -/
theorem sparseWf_cons {size lo k : Nat} {v : α} {t : List (Nat × α)} :
    sparseWf d size lo ((k, v) :: t) = true ↔ lo ≤ k ∧ k < size ∧ v ≠ d ∧ sparseWf d size (k + 1) t = true := by
  simp [sparseWf, and_assoc]

theorem sparseWf_mono {size lo lo' : Nat} {m : List (Nat × α)} (h : sparseWf d size lo m = true) (hl : lo' ≤ lo) :
    sparseWf d size lo' m = true := by
  cases m with
  | nil => rfl
  | cons c t =>
    obtain ⟨h1, h2⟩ := (sparseWf_cons d).mp h
    exact (sparseWf_cons d).mpr ⟨by omega, h2⟩

theorem sparseWf_erase {size lo : Nat} {m : List (Nat × α)} (a : Nat) (h : sparseWf d size lo m = true) :
    sparseWf d size lo (sparseErase a m) = true := by
  induction m generalizing lo with
  | nil => rfl
  | cons c t ih =>
    obtain ⟨h1, h2, h3, h4⟩ := (sparseWf_cons d).mp h
    by_cases hc : c.1 = a
    · simpa [sparseErase, hc] using sparseWf_mono d (ih h4) (by omega : lo ≤ c.1 + 1)
    · simpa [sparseErase, hc] using (sparseWf_cons d).mpr ⟨h1, h2, h3, ih h4⟩

theorem sparseWf_insert {size lo : Nat} {m : List (Nat × α)} {a : Nat} {v : α} (h : sparseWf d size lo m = true)
    (hk : ∀ c ∈ m, c.1 ≠ a) (ha : a < size) (hlo : lo ≤ a) (hv : v ≠ d) : sparseWf d size lo (sparseInsert a v m) = true := by
  induction m generalizing lo with
  | nil => simp [sparseInsert, sparseWf, ha, hlo, hv]
  | cons c t ih =>
    obtain ⟨h1, h2, h3, h4⟩ := (sparseWf_cons d).mp h
    have hne : c.1 ≠ a := hk c (by simp)
    by_cases hc : a < c.1
    · simp only [sparseInsert, hc, if_true]
      exact (sparseWf_cons d).mpr ⟨hlo, ha, hv, (sparseWf_cons d).mpr ⟨hc, h2, h3, h4⟩⟩
    · simp only [sparseInsert, hc, if_false]
      exact (sparseWf_cons d).mpr ⟨h1, h2, h3, ih h4 (fun x hx => hk x (by simp [hx])) (by omega)⟩

theorem sparseWf_write {size : Nat} {m : List (Nat × α)} {a : Nat} (v : α) (h : sparseWf d size 0 m = true) (ha : a < size) :
    sparseWf d size 0 (sparseWrite d m a v) = true := by
  unfold sparseWrite
  split
  · exact sparseWf_erase d a h
  · next hv => exact sparseWf_insert d (sparseWf_erase d a h) (sparseErase_keys m a) ha (Nat.zero_le _) hv

/-- Below its lower bound a canonical list reads as the reset value. -/
theorem sparseRead_below {size lo a : Nat} {m : List (Nat × α)} (h : sparseWf d size lo m = true) (ha : a < lo) :
    sparseRead d m a = d := by
  induction m generalizing lo with
  | nil => rfl
  | cons c t ih =>
    obtain ⟨h1, _, _, h4⟩ := (sparseWf_cons d).mp h
    have : c.1 ≠ a := by omega
    simpa [sparseRead, this] using ih h4 (by omega)

/-- Two canonical lists that read alike are equal. -/
theorem sparse_ext {size lo : Nat} {m n : List (Nat × α)} (hm : sparseWf d size lo m = true) (hn : sparseWf d size lo n = true)
    (h : ∀ a, sparseRead d m a = sparseRead d n a) : m = n := by
  induction m generalizing n lo with
  | nil =>
    cases n with
    | nil => rfl
    | cons c t =>
      obtain ⟨_, _, h3, _⟩ := (sparseWf_cons d).mp hn
      exact absurd (by simpa [sparseRead] using (h c.1).symm) h3
  | cons c t ih =>
    obtain ⟨a1, a2, a3, a4⟩ := (sparseWf_cons d).mp hm
    cases n with
    | nil => exact absurd (by simpa [sparseRead] using h c.1) a3
    | cons e u =>
      obtain ⟨b1, b2, b3, b4⟩ := (sparseWf_cons d).mp hn
      have hk : c.1 = e.1 := by
        rcases Nat.lt_trichotomy c.1 e.1 with hlt | heq | hgt
        · have := h c.1
          rw [sparseRead_below d (lo := e.1) ((sparseWf_cons d).mpr ⟨Nat.le_refl _, b2, b3, b4⟩) hlt] at this
          exact absurd (by simpa [sparseRead] using this) a3
        · exact heq
        · have := h e.1
          rw [sparseRead_below d (lo := c.1) ((sparseWf_cons d).mpr ⟨Nat.le_refl _, a2, a3, a4⟩) hgt] at this
          exact absurd (by simpa [sparseRead] using this.symm) b3
      have hv : c.2 = e.2 := by simpa [sparseRead, hk] using h c.1
      have htu : t = u := by
        refine ih a4 (by rw [hk]; exact b4) fun a => ?_
        by_cases hca : c.1 = a
        · rw [sparseRead_below d a4 (by omega), sparseRead_below d b4 (by omega)]
        · have := h a
          simpa [sparseRead, hca, hk ▸ hca] using this
      rw [htu, show c = e from Prod.ext hk hv]

end Sparse

/-! ## `Window` -/

theorem Memory.read_write_same (m : Memory) (a : Pos) (v : Byte) : Memory.read (Memory.write m a v) a = v :=
  sparseRead_write_same _ m _ v

theorem Memory.read_write_other (m : Memory) {a b : Pos} (v : Byte) (h : b ≠ a) :
    Memory.read (Memory.write m a v) b = Memory.read m b :=
  sparseRead_write_other _ m v fun e => h (BitVec.eq_of_toNat_eq e)

theorem Memory.read_write (m : Memory) (a b : Pos) (v : Byte) :
    Memory.read (Memory.write m a v) b = if b = a then v else Memory.read m b := by
  split
  · next h => rw [h, Memory.read_write_same]
  · next h => exact Memory.read_write_other m v h

theorem Memory.wf_write {m : Memory} (a : Pos) (v : Byte) (h : Memory.wf m = true) : Memory.wf (Memory.write m a v) = true :=
  sparseWf_write _ v h a.isLt

theorem Memory.wf_nil : Memory.wf [] = true := rfl

@[simp] theorem Memory.read_nil (a : Pos) : Memory.read [] a = 0 := rfl

/-- Equal memories are equal data. -/
theorem Memory.ext_read {m n : Memory} (hm : Memory.wf m = true) (hn : Memory.wf n = true)
    (h : ∀ a, Memory.read m a = Memory.read n a) : m = n := by
  refine sparse_ext _ hm hn fun a => ?_
  by_cases ha : a < 1024
  · have hr := h (BitVec.ofNat 10 a)
    simp only [Memory.read, BitVec.toNat_ofNat] at hr
    rwa [Nat.mod_eq_of_lt ha] at hr
  · have aux : ∀ (p : Memory) (lo : Nat), sparseWf Config.windowReset 1024 lo p = true →
        sparseRead Config.windowReset p a = Config.windowReset := by
      intro p
      induction p with
      | nil => intro _ _; rfl
      | cons c t ih =>
        intro lo hp
        obtain ⟨_, h2, _, h4⟩ := (sparseWf_cons _).mp hp
        have : c.1 ≠ a := by omega
        simpa [sparseRead, this] using ih _ h4
    rw [aux m 0 hm, aux n 0 hn]

/-! ## `Node` -/

theorem NodeMemory.read_write_same (m : NodeMemory) (n : NodeIx) (r : NodeRec) :
    NodeMemory.read (NodeMemory.write m n r) n = r :=
  sparseRead_write_same _ m _ r

theorem NodeMemory.read_write_other (m : NodeMemory) {n k : NodeIx} (r : NodeRec) (h : k ≠ n) :
    NodeMemory.read (NodeMemory.write m n r) k = NodeMemory.read m k :=
  sparseRead_write_other _ m r fun e => h (Fin.ext e)

theorem NodeMemory.read_write (m : NodeMemory) (n k : NodeIx) (r : NodeRec) :
    NodeMemory.read (NodeMemory.write m n r) k = if k = n then r else NodeMemory.read m k := by
  split
  · next h => rw [h, NodeMemory.read_write_same]
  · next h => exact NodeMemory.read_write_other m r h

theorem NodeMemory.wf_write {m : NodeMemory} (n : NodeIx) (r : NodeRec) (h : NodeMemory.wf m = true) :
    NodeMemory.wf (NodeMemory.write m n r) = true :=
  sparseWf_write _ r h n.isLt

theorem NodeMemory.wf_nil : NodeMemory.wf [] = true := rfl

@[simp] theorem NodeMemory.read_nil (n : NodeIx) : NodeMemory.read [] n = NodeRec.zero := rfl

/-! ## The memories of State -/

theorem State.byteAt_putByte (s : State) (a b : Pos) (v : Byte) :
    (s.putByte a v).byteAt b = if b = a then v else s.byteAt b :=
  Memory.read_write s.window a b v

theorem State.nodeAt_putNode (s : State) (n k : NodeIx) (r : NodeRec) :
    (s.putNode n r).nodeAt k = if k = n then r else s.nodeAt k :=
  NodeMemory.read_write s.node n k r

theorem State.nodeAt_putParent (s : State) (n k v : NodeIx) :
    (s.putParent n v).nodeAt k = if k = n then { s.nodeAt n with parent := v } else s.nodeAt k :=
  s.nodeAt_putNode n k _

theorem State.nodeAt_putSmall (s : State) (n k v : NodeIx) :
    (s.putSmall n v).nodeAt k = if k = n then { s.nodeAt n with smallChild := v } else s.nodeAt k :=
  s.nodeAt_putNode n k _

theorem State.nodeAt_putLarge (s : State) (n k v : NodeIx) :
    (s.putLarge n v).nodeAt k = if k = n then { s.nodeAt n with largeChild := v } else s.nodeAt k :=
  s.nodeAt_putNode n k _

theorem State.putByte_wf {s : State} (a : Pos) (v : Byte) (h : Memory.wf s.window = true) :
    Memory.wf (s.putByte a v).window = true := Memory.wf_write a v h

/-- Both memories have the canonical form at reset. -/
theorem State.reset_wf : Memory.wf State.reset.window = true ∧ NodeMemory.wf State.reset.node = true := ⟨rfl, rfl⟩

end Sys2Proof.Machine
end

