-- ==== Sys2Proof/Laws/State.lean ====
section
/-! SUPPORT. What each update of State does to each field: one lemma per field per update, all by rfl. -/

namespace Sys2Proof.Machine

variable (s : State)

/-! ## putByte -/

@[simp] theorem State.putByte_winPos (a : Pos) (v : Byte) : (s.putByte a v).winPos = s.winPos := rfl
@[simp] theorem State.putByte_aheadBytes (a : Pos) (v : Byte) : (s.putByte a v).aheadBytes = s.aheadBytes := rfl
@[simp] theorem State.putByte_matchLen (a : Pos) (v : Byte) : (s.putByte a v).matchLen = s.matchLen := rfl
@[simp] theorem State.putByte_matchPos (a : Pos) (v : Byte) : (s.putByte a v).matchPos = s.matchPos := rfl
@[simp] theorem State.putByte_eos (a : Pos) (v : Byte) : (s.putByte a v).eos = s.eos := rfl
@[simp] theorem State.putByte_replCnt (a : Pos) (v : Byte) : (s.putByte a v).replCnt = s.replCnt := rfl
@[simp] theorem State.putByte_advCnt (a : Pos) (v : Byte) : (s.putByte a v).advCnt = s.advCnt := rfl
@[simp] theorem State.putByte_testNode (a : Pos) (v : Byte) : (s.putByte a v).testNode = s.testNode := rfl
@[simp] theorem State.putByte_i (a : Pos) (v : Byte) : (s.putByte a v).i = s.i := rfl
@[simp] theorem State.putByte_delta (a : Pos) (v : Byte) : (s.putByte a v).delta = s.delta := rfl
@[simp] theorem State.putByte_bestLen (a : Pos) (v : Byte) : (s.putByte a v).bestLen = s.bestLen := rfl
@[simp] theorem State.putByte_bestPos (a : Pos) (v : Byte) : (s.putByte a v).bestPos = s.bestPos := rfl
@[simp] theorem State.putByte_par (a : Pos) (v : Byte) : (s.putByte a v).par = s.par := rfl
@[simp] theorem State.putByte_nxt (a : Pos) (v : Byte) : (s.putByte a v).nxt = s.nxt := rfl
@[simp] theorem State.putByte_repl (a : Pos) (v : Byte) : (s.putByte a v).repl = s.repl := rfl
@[simp] theorem State.putByte_seq (a : Pos) (v : Byte) : (s.putByte a v).seq = s.seq := rfl
@[simp] theorem State.putByte_done (a : Pos) (v : Byte) : (s.putByte a v).done = s.done := rfl
@[simp] theorem State.putByte_fault (a : Pos) (v : Byte) : (s.putByte a v).fault = s.fault := rfl
@[simp] theorem State.putByte_cause (a : Pos) (v : Byte) : (s.putByte a v).cause = s.cause := rfl
@[simp] theorem State.putByte_window (a : Pos) (v : Byte) : (s.putByte a v).window = Memory.write s.window a v := rfl
@[simp] theorem State.putByte_node (a : Pos) (v : Byte) : (s.putByte a v).node = s.node := rfl
@[simp] theorem State.putByte_bsAcc (a : Pos) (v : Byte) : (s.putByte a v).bsAcc = s.bsAcc := rfl
@[simp] theorem State.putByte_bsCnt (a : Pos) (v : Byte) : (s.putByte a v).bsCnt = s.bsCnt := rfl
@[simp] theorem State.putByte_wait (a : Pos) (v : Byte) : (s.putByte a v).wait = s.wait := rfl
@[simp] theorem State.putByte_nReads (a : Pos) (v : Byte) : (s.putByte a v).nReads = s.nReads := rfl
@[simp] theorem State.putByte_outBits (a : Pos) (v : Byte) : (s.putByte a v).outBits = s.outBits := rfl
@[simp] theorem State.putByte_events (a : Pos) (v : Byte) : (s.putByte a v).events = s.events := rfl
@[simp] theorem State.putByte_outBytes (a : Pos) (v : Byte) : (s.putByte a v).outBytes = s.outBytes := rfl
@[simp] theorem State.putByte_inPort (a : Pos) (v : Byte) : (s.putByte a v).inPort = s.inPort := rfl
@[simp] theorem State.putByte_outPort (a : Pos) (v : Byte) : (s.putByte a v).outPort = s.outPort := rfl
@[simp] theorem State.putByte_inEnded (a : Pos) (v : Byte) : (s.putByte a v).inEnded = s.inEnded := rfl
@[simp] theorem State.putByte_reqs (a : Pos) (v : Byte) : (s.putByte a v).reqs = s.reqs := rfl
@[simp] theorem State.putByte_result (a : Pos) (v : Byte) : (s.putByte a v).result = s.result := rfl

/-! ## putNode -/

@[simp] theorem State.putNode_winPos (n : NodeIx) (r : NodeRec) : (s.putNode n r).winPos = s.winPos := rfl
@[simp] theorem State.putNode_aheadBytes (n : NodeIx) (r : NodeRec) : (s.putNode n r).aheadBytes = s.aheadBytes := rfl
@[simp] theorem State.putNode_matchLen (n : NodeIx) (r : NodeRec) : (s.putNode n r).matchLen = s.matchLen := rfl
@[simp] theorem State.putNode_matchPos (n : NodeIx) (r : NodeRec) : (s.putNode n r).matchPos = s.matchPos := rfl
@[simp] theorem State.putNode_eos (n : NodeIx) (r : NodeRec) : (s.putNode n r).eos = s.eos := rfl
@[simp] theorem State.putNode_replCnt (n : NodeIx) (r : NodeRec) : (s.putNode n r).replCnt = s.replCnt := rfl
@[simp] theorem State.putNode_advCnt (n : NodeIx) (r : NodeRec) : (s.putNode n r).advCnt = s.advCnt := rfl
@[simp] theorem State.putNode_testNode (n : NodeIx) (r : NodeRec) : (s.putNode n r).testNode = s.testNode := rfl
@[simp] theorem State.putNode_i (n : NodeIx) (r : NodeRec) : (s.putNode n r).i = s.i := rfl
@[simp] theorem State.putNode_delta (n : NodeIx) (r : NodeRec) : (s.putNode n r).delta = s.delta := rfl
@[simp] theorem State.putNode_bestLen (n : NodeIx) (r : NodeRec) : (s.putNode n r).bestLen = s.bestLen := rfl
@[simp] theorem State.putNode_bestPos (n : NodeIx) (r : NodeRec) : (s.putNode n r).bestPos = s.bestPos := rfl
@[simp] theorem State.putNode_par (n : NodeIx) (r : NodeRec) : (s.putNode n r).par = s.par := rfl
@[simp] theorem State.putNode_nxt (n : NodeIx) (r : NodeRec) : (s.putNode n r).nxt = s.nxt := rfl
@[simp] theorem State.putNode_repl (n : NodeIx) (r : NodeRec) : (s.putNode n r).repl = s.repl := rfl
@[simp] theorem State.putNode_seq (n : NodeIx) (r : NodeRec) : (s.putNode n r).seq = s.seq := rfl
@[simp] theorem State.putNode_done (n : NodeIx) (r : NodeRec) : (s.putNode n r).done = s.done := rfl
@[simp] theorem State.putNode_fault (n : NodeIx) (r : NodeRec) : (s.putNode n r).fault = s.fault := rfl
@[simp] theorem State.putNode_cause (n : NodeIx) (r : NodeRec) : (s.putNode n r).cause = s.cause := rfl
@[simp] theorem State.putNode_window (n : NodeIx) (r : NodeRec) : (s.putNode n r).window = s.window := rfl
@[simp] theorem State.putNode_node (n : NodeIx) (r : NodeRec) : (s.putNode n r).node = NodeMemory.write s.node n r := rfl
@[simp] theorem State.putNode_bsAcc (n : NodeIx) (r : NodeRec) : (s.putNode n r).bsAcc = s.bsAcc := rfl
@[simp] theorem State.putNode_bsCnt (n : NodeIx) (r : NodeRec) : (s.putNode n r).bsCnt = s.bsCnt := rfl
@[simp] theorem State.putNode_wait (n : NodeIx) (r : NodeRec) : (s.putNode n r).wait = s.wait := rfl
@[simp] theorem State.putNode_nReads (n : NodeIx) (r : NodeRec) : (s.putNode n r).nReads = s.nReads := rfl
@[simp] theorem State.putNode_outBits (n : NodeIx) (r : NodeRec) : (s.putNode n r).outBits = s.outBits := rfl
@[simp] theorem State.putNode_events (n : NodeIx) (r : NodeRec) : (s.putNode n r).events = s.events := rfl
@[simp] theorem State.putNode_outBytes (n : NodeIx) (r : NodeRec) : (s.putNode n r).outBytes = s.outBytes := rfl
@[simp] theorem State.putNode_inPort (n : NodeIx) (r : NodeRec) : (s.putNode n r).inPort = s.inPort := rfl
@[simp] theorem State.putNode_outPort (n : NodeIx) (r : NodeRec) : (s.putNode n r).outPort = s.outPort := rfl
@[simp] theorem State.putNode_inEnded (n : NodeIx) (r : NodeRec) : (s.putNode n r).inEnded = s.inEnded := rfl
@[simp] theorem State.putNode_reqs (n : NodeIx) (r : NodeRec) : (s.putNode n r).reqs = s.reqs := rfl
@[simp] theorem State.putNode_result (n : NodeIx) (r : NodeRec) : (s.putNode n r).result = s.result := rfl

/-! ## putParent -/

@[simp] theorem State.putParent_winPos (n v : NodeIx) : (s.putParent n v).winPos = s.winPos := rfl
@[simp] theorem State.putParent_aheadBytes (n v : NodeIx) : (s.putParent n v).aheadBytes = s.aheadBytes := rfl
@[simp] theorem State.putParent_matchLen (n v : NodeIx) : (s.putParent n v).matchLen = s.matchLen := rfl
@[simp] theorem State.putParent_matchPos (n v : NodeIx) : (s.putParent n v).matchPos = s.matchPos := rfl
@[simp] theorem State.putParent_eos (n v : NodeIx) : (s.putParent n v).eos = s.eos := rfl
@[simp] theorem State.putParent_replCnt (n v : NodeIx) : (s.putParent n v).replCnt = s.replCnt := rfl
@[simp] theorem State.putParent_advCnt (n v : NodeIx) : (s.putParent n v).advCnt = s.advCnt := rfl
@[simp] theorem State.putParent_testNode (n v : NodeIx) : (s.putParent n v).testNode = s.testNode := rfl
@[simp] theorem State.putParent_i (n v : NodeIx) : (s.putParent n v).i = s.i := rfl
@[simp] theorem State.putParent_delta (n v : NodeIx) : (s.putParent n v).delta = s.delta := rfl
@[simp] theorem State.putParent_bestLen (n v : NodeIx) : (s.putParent n v).bestLen = s.bestLen := rfl
@[simp] theorem State.putParent_bestPos (n v : NodeIx) : (s.putParent n v).bestPos = s.bestPos := rfl
@[simp] theorem State.putParent_par (n v : NodeIx) : (s.putParent n v).par = s.par := rfl
@[simp] theorem State.putParent_nxt (n v : NodeIx) : (s.putParent n v).nxt = s.nxt := rfl
@[simp] theorem State.putParent_repl (n v : NodeIx) : (s.putParent n v).repl = s.repl := rfl
@[simp] theorem State.putParent_seq (n v : NodeIx) : (s.putParent n v).seq = s.seq := rfl
@[simp] theorem State.putParent_done (n v : NodeIx) : (s.putParent n v).done = s.done := rfl
@[simp] theorem State.putParent_fault (n v : NodeIx) : (s.putParent n v).fault = s.fault := rfl
@[simp] theorem State.putParent_cause (n v : NodeIx) : (s.putParent n v).cause = s.cause := rfl
@[simp] theorem State.putParent_window (n v : NodeIx) : (s.putParent n v).window = s.window := rfl
@[simp] theorem State.putParent_node (n v : NodeIx) : (s.putParent n v).node = NodeMemory.write s.node n { s.nodeAt n with parent := v } := rfl
@[simp] theorem State.putParent_bsAcc (n v : NodeIx) : (s.putParent n v).bsAcc = s.bsAcc := rfl
@[simp] theorem State.putParent_bsCnt (n v : NodeIx) : (s.putParent n v).bsCnt = s.bsCnt := rfl
@[simp] theorem State.putParent_wait (n v : NodeIx) : (s.putParent n v).wait = s.wait := rfl
@[simp] theorem State.putParent_nReads (n v : NodeIx) : (s.putParent n v).nReads = s.nReads := rfl
@[simp] theorem State.putParent_outBits (n v : NodeIx) : (s.putParent n v).outBits = s.outBits := rfl
@[simp] theorem State.putParent_events (n v : NodeIx) : (s.putParent n v).events = s.events := rfl
@[simp] theorem State.putParent_outBytes (n v : NodeIx) : (s.putParent n v).outBytes = s.outBytes := rfl
@[simp] theorem State.putParent_inPort (n v : NodeIx) : (s.putParent n v).inPort = s.inPort := rfl
@[simp] theorem State.putParent_outPort (n v : NodeIx) : (s.putParent n v).outPort = s.outPort := rfl
@[simp] theorem State.putParent_inEnded (n v : NodeIx) : (s.putParent n v).inEnded = s.inEnded := rfl
@[simp] theorem State.putParent_reqs (n v : NodeIx) : (s.putParent n v).reqs = s.reqs := rfl
@[simp] theorem State.putParent_result (n v : NodeIx) : (s.putParent n v).result = s.result := rfl

/-! ## putSmall -/

@[simp] theorem State.putSmall_winPos (n v : NodeIx) : (s.putSmall n v).winPos = s.winPos := rfl
@[simp] theorem State.putSmall_aheadBytes (n v : NodeIx) : (s.putSmall n v).aheadBytes = s.aheadBytes := rfl
@[simp] theorem State.putSmall_matchLen (n v : NodeIx) : (s.putSmall n v).matchLen = s.matchLen := rfl
@[simp] theorem State.putSmall_matchPos (n v : NodeIx) : (s.putSmall n v).matchPos = s.matchPos := rfl
@[simp] theorem State.putSmall_eos (n v : NodeIx) : (s.putSmall n v).eos = s.eos := rfl
@[simp] theorem State.putSmall_replCnt (n v : NodeIx) : (s.putSmall n v).replCnt = s.replCnt := rfl
@[simp] theorem State.putSmall_advCnt (n v : NodeIx) : (s.putSmall n v).advCnt = s.advCnt := rfl
@[simp] theorem State.putSmall_testNode (n v : NodeIx) : (s.putSmall n v).testNode = s.testNode := rfl
@[simp] theorem State.putSmall_i (n v : NodeIx) : (s.putSmall n v).i = s.i := rfl
@[simp] theorem State.putSmall_delta (n v : NodeIx) : (s.putSmall n v).delta = s.delta := rfl
@[simp] theorem State.putSmall_bestLen (n v : NodeIx) : (s.putSmall n v).bestLen = s.bestLen := rfl
@[simp] theorem State.putSmall_bestPos (n v : NodeIx) : (s.putSmall n v).bestPos = s.bestPos := rfl
@[simp] theorem State.putSmall_par (n v : NodeIx) : (s.putSmall n v).par = s.par := rfl
@[simp] theorem State.putSmall_nxt (n v : NodeIx) : (s.putSmall n v).nxt = s.nxt := rfl
@[simp] theorem State.putSmall_repl (n v : NodeIx) : (s.putSmall n v).repl = s.repl := rfl
@[simp] theorem State.putSmall_seq (n v : NodeIx) : (s.putSmall n v).seq = s.seq := rfl
@[simp] theorem State.putSmall_done (n v : NodeIx) : (s.putSmall n v).done = s.done := rfl
@[simp] theorem State.putSmall_fault (n v : NodeIx) : (s.putSmall n v).fault = s.fault := rfl
@[simp] theorem State.putSmall_cause (n v : NodeIx) : (s.putSmall n v).cause = s.cause := rfl
@[simp] theorem State.putSmall_window (n v : NodeIx) : (s.putSmall n v).window = s.window := rfl
@[simp] theorem State.putSmall_node (n v : NodeIx) : (s.putSmall n v).node = NodeMemory.write s.node n { s.nodeAt n with smallChild := v } := rfl
@[simp] theorem State.putSmall_bsAcc (n v : NodeIx) : (s.putSmall n v).bsAcc = s.bsAcc := rfl
@[simp] theorem State.putSmall_bsCnt (n v : NodeIx) : (s.putSmall n v).bsCnt = s.bsCnt := rfl
@[simp] theorem State.putSmall_wait (n v : NodeIx) : (s.putSmall n v).wait = s.wait := rfl
@[simp] theorem State.putSmall_nReads (n v : NodeIx) : (s.putSmall n v).nReads = s.nReads := rfl
@[simp] theorem State.putSmall_outBits (n v : NodeIx) : (s.putSmall n v).outBits = s.outBits := rfl
@[simp] theorem State.putSmall_events (n v : NodeIx) : (s.putSmall n v).events = s.events := rfl
@[simp] theorem State.putSmall_outBytes (n v : NodeIx) : (s.putSmall n v).outBytes = s.outBytes := rfl
@[simp] theorem State.putSmall_inPort (n v : NodeIx) : (s.putSmall n v).inPort = s.inPort := rfl
@[simp] theorem State.putSmall_outPort (n v : NodeIx) : (s.putSmall n v).outPort = s.outPort := rfl
@[simp] theorem State.putSmall_inEnded (n v : NodeIx) : (s.putSmall n v).inEnded = s.inEnded := rfl
@[simp] theorem State.putSmall_reqs (n v : NodeIx) : (s.putSmall n v).reqs = s.reqs := rfl
@[simp] theorem State.putSmall_result (n v : NodeIx) : (s.putSmall n v).result = s.result := rfl

/-! ## putLarge -/

@[simp] theorem State.putLarge_winPos (n v : NodeIx) : (s.putLarge n v).winPos = s.winPos := rfl
@[simp] theorem State.putLarge_aheadBytes (n v : NodeIx) : (s.putLarge n v).aheadBytes = s.aheadBytes := rfl
@[simp] theorem State.putLarge_matchLen (n v : NodeIx) : (s.putLarge n v).matchLen = s.matchLen := rfl
@[simp] theorem State.putLarge_matchPos (n v : NodeIx) : (s.putLarge n v).matchPos = s.matchPos := rfl
@[simp] theorem State.putLarge_eos (n v : NodeIx) : (s.putLarge n v).eos = s.eos := rfl
@[simp] theorem State.putLarge_replCnt (n v : NodeIx) : (s.putLarge n v).replCnt = s.replCnt := rfl
@[simp] theorem State.putLarge_advCnt (n v : NodeIx) : (s.putLarge n v).advCnt = s.advCnt := rfl
@[simp] theorem State.putLarge_testNode (n v : NodeIx) : (s.putLarge n v).testNode = s.testNode := rfl
@[simp] theorem State.putLarge_i (n v : NodeIx) : (s.putLarge n v).i = s.i := rfl
@[simp] theorem State.putLarge_delta (n v : NodeIx) : (s.putLarge n v).delta = s.delta := rfl
@[simp] theorem State.putLarge_bestLen (n v : NodeIx) : (s.putLarge n v).bestLen = s.bestLen := rfl
@[simp] theorem State.putLarge_bestPos (n v : NodeIx) : (s.putLarge n v).bestPos = s.bestPos := rfl
@[simp] theorem State.putLarge_par (n v : NodeIx) : (s.putLarge n v).par = s.par := rfl
@[simp] theorem State.putLarge_nxt (n v : NodeIx) : (s.putLarge n v).nxt = s.nxt := rfl
@[simp] theorem State.putLarge_repl (n v : NodeIx) : (s.putLarge n v).repl = s.repl := rfl
@[simp] theorem State.putLarge_seq (n v : NodeIx) : (s.putLarge n v).seq = s.seq := rfl
@[simp] theorem State.putLarge_done (n v : NodeIx) : (s.putLarge n v).done = s.done := rfl
@[simp] theorem State.putLarge_fault (n v : NodeIx) : (s.putLarge n v).fault = s.fault := rfl
@[simp] theorem State.putLarge_cause (n v : NodeIx) : (s.putLarge n v).cause = s.cause := rfl
@[simp] theorem State.putLarge_window (n v : NodeIx) : (s.putLarge n v).window = s.window := rfl
@[simp] theorem State.putLarge_node (n v : NodeIx) : (s.putLarge n v).node = NodeMemory.write s.node n { s.nodeAt n with largeChild := v } := rfl
@[simp] theorem State.putLarge_bsAcc (n v : NodeIx) : (s.putLarge n v).bsAcc = s.bsAcc := rfl
@[simp] theorem State.putLarge_bsCnt (n v : NodeIx) : (s.putLarge n v).bsCnt = s.bsCnt := rfl
@[simp] theorem State.putLarge_wait (n v : NodeIx) : (s.putLarge n v).wait = s.wait := rfl
@[simp] theorem State.putLarge_nReads (n v : NodeIx) : (s.putLarge n v).nReads = s.nReads := rfl
@[simp] theorem State.putLarge_outBits (n v : NodeIx) : (s.putLarge n v).outBits = s.outBits := rfl
@[simp] theorem State.putLarge_events (n v : NodeIx) : (s.putLarge n v).events = s.events := rfl
@[simp] theorem State.putLarge_outBytes (n v : NodeIx) : (s.putLarge n v).outBytes = s.outBytes := rfl
@[simp] theorem State.putLarge_inPort (n v : NodeIx) : (s.putLarge n v).inPort = s.inPort := rfl
@[simp] theorem State.putLarge_outPort (n v : NodeIx) : (s.putLarge n v).outPort = s.outPort := rfl
@[simp] theorem State.putLarge_inEnded (n v : NodeIx) : (s.putLarge n v).inEnded = s.inEnded := rfl
@[simp] theorem State.putLarge_reqs (n v : NodeIx) : (s.putLarge n v).reqs = s.reqs := rfl
@[simp] theorem State.putLarge_result (n v : NodeIx) : (s.putLarge n v).result = s.result := rfl

/-! ## enterFault -/

@[simp] theorem State.enterFault_winPos (c : Cause) : (s.enterFault c).winPos = s.winPos := rfl
@[simp] theorem State.enterFault_aheadBytes (c : Cause) : (s.enterFault c).aheadBytes = s.aheadBytes := rfl
@[simp] theorem State.enterFault_matchLen (c : Cause) : (s.enterFault c).matchLen = s.matchLen := rfl
@[simp] theorem State.enterFault_matchPos (c : Cause) : (s.enterFault c).matchPos = s.matchPos := rfl
@[simp] theorem State.enterFault_eos (c : Cause) : (s.enterFault c).eos = s.eos := rfl
@[simp] theorem State.enterFault_replCnt (c : Cause) : (s.enterFault c).replCnt = s.replCnt := rfl
@[simp] theorem State.enterFault_advCnt (c : Cause) : (s.enterFault c).advCnt = s.advCnt := rfl
@[simp] theorem State.enterFault_testNode (c : Cause) : (s.enterFault c).testNode = s.testNode := rfl
@[simp] theorem State.enterFault_i (c : Cause) : (s.enterFault c).i = s.i := rfl
@[simp] theorem State.enterFault_delta (c : Cause) : (s.enterFault c).delta = s.delta := rfl
@[simp] theorem State.enterFault_bestLen (c : Cause) : (s.enterFault c).bestLen = s.bestLen := rfl
@[simp] theorem State.enterFault_bestPos (c : Cause) : (s.enterFault c).bestPos = s.bestPos := rfl
@[simp] theorem State.enterFault_par (c : Cause) : (s.enterFault c).par = s.par := rfl
@[simp] theorem State.enterFault_nxt (c : Cause) : (s.enterFault c).nxt = s.nxt := rfl
@[simp] theorem State.enterFault_repl (c : Cause) : (s.enterFault c).repl = s.repl := rfl
@[simp] theorem State.enterFault_seq (c : Cause) : (s.enterFault c).seq = .fault := rfl
@[simp] theorem State.enterFault_done (c : Cause) : (s.enterFault c).done = s.done := rfl
@[simp] theorem State.enterFault_fault (c : Cause) : (s.enterFault c).fault = true := rfl
@[simp] theorem State.enterFault_cause (c : Cause) : (s.enterFault c).cause = c := rfl
@[simp] theorem State.enterFault_window (c : Cause) : (s.enterFault c).window = s.window := rfl
@[simp] theorem State.enterFault_node (c : Cause) : (s.enterFault c).node = s.node := rfl
@[simp] theorem State.enterFault_bsAcc (c : Cause) : (s.enterFault c).bsAcc = s.bsAcc := rfl
@[simp] theorem State.enterFault_bsCnt (c : Cause) : (s.enterFault c).bsCnt = s.bsCnt := rfl
@[simp] theorem State.enterFault_wait (c : Cause) : (s.enterFault c).wait = s.wait := rfl
@[simp] theorem State.enterFault_nReads (c : Cause) : (s.enterFault c).nReads = s.nReads := rfl
@[simp] theorem State.enterFault_outBits (c : Cause) : (s.enterFault c).outBits = s.outBits := rfl
@[simp] theorem State.enterFault_events (c : Cause) : (s.enterFault c).events = s.events := rfl
@[simp] theorem State.enterFault_outBytes (c : Cause) : (s.enterFault c).outBytes = s.outBytes := rfl
@[simp] theorem State.enterFault_inPort (c : Cause) : (s.enterFault c).inPort = s.inPort := rfl
@[simp] theorem State.enterFault_outPort (c : Cause) : (s.enterFault c).outPort = s.outPort := rfl
@[simp] theorem State.enterFault_inEnded (c : Cause) : (s.enterFault c).inEnded = s.inEnded := rfl
@[simp] theorem State.enterFault_reqs (c : Cause) : (s.enterFault c).reqs = s.reqs := rfl
@[simp] theorem State.enterFault_result (c : Cause) : (s.enterFault c).result = s.result := rfl

/-! ## issueRead -/

@[simp] theorem State.issueRead_winPos : s.issueRead.winPos = s.winPos := rfl
@[simp] theorem State.issueRead_aheadBytes : s.issueRead.aheadBytes = s.aheadBytes := rfl
@[simp] theorem State.issueRead_matchLen : s.issueRead.matchLen = s.matchLen := rfl
@[simp] theorem State.issueRead_matchPos : s.issueRead.matchPos = s.matchPos := rfl
@[simp] theorem State.issueRead_eos : s.issueRead.eos = s.eos := rfl
@[simp] theorem State.issueRead_replCnt : s.issueRead.replCnt = s.replCnt := rfl
@[simp] theorem State.issueRead_advCnt : s.issueRead.advCnt = s.advCnt := rfl
@[simp] theorem State.issueRead_testNode : s.issueRead.testNode = s.testNode := rfl
@[simp] theorem State.issueRead_i : s.issueRead.i = s.i := rfl
@[simp] theorem State.issueRead_delta : s.issueRead.delta = s.delta := rfl
@[simp] theorem State.issueRead_bestLen : s.issueRead.bestLen = s.bestLen := rfl
@[simp] theorem State.issueRead_bestPos : s.issueRead.bestPos = s.bestPos := rfl
@[simp] theorem State.issueRead_par : s.issueRead.par = s.par := rfl
@[simp] theorem State.issueRead_nxt : s.issueRead.nxt = s.nxt := rfl
@[simp] theorem State.issueRead_repl : s.issueRead.repl = s.repl := rfl
@[simp] theorem State.issueRead_seq : s.issueRead.seq = s.seq := rfl
@[simp] theorem State.issueRead_done : s.issueRead.done = s.done := rfl
@[simp] theorem State.issueRead_fault : s.issueRead.fault = s.fault := rfl
@[simp] theorem State.issueRead_cause : s.issueRead.cause = s.cause := rfl
@[simp] theorem State.issueRead_window : s.issueRead.window = s.window := rfl
@[simp] theorem State.issueRead_node : s.issueRead.node = s.node := rfl
@[simp] theorem State.issueRead_bsAcc : s.issueRead.bsAcc = s.bsAcc := rfl
@[simp] theorem State.issueRead_bsCnt : s.issueRead.bsCnt = s.bsCnt := rfl
@[simp] theorem State.issueRead_wait : s.issueRead.wait = s.wait := rfl
@[simp] theorem State.issueRead_nReads : s.issueRead.nReads = s.nReads + 1 := rfl
@[simp] theorem State.issueRead_outBits : s.issueRead.outBits = s.outBits := rfl
@[simp] theorem State.issueRead_events : s.issueRead.events = s.events := rfl
@[simp] theorem State.issueRead_outBytes : s.issueRead.outBytes = s.outBytes := rfl
@[simp] theorem State.issueRead_inPort : s.issueRead.inPort = s.inPort.tail := rfl
@[simp] theorem State.issueRead_outPort : s.issueRead.outPort = s.outPort := rfl
@[simp] theorem State.issueRead_inEnded : s.issueRead.inEnded = s.inEnded := rfl
@[simp] theorem State.issueRead_reqs : s.issueRead.reqs = s.reqs := rfl
@[simp] theorem State.issueRead_result : s.issueRead.result = s.result := rfl

/-! ## record -/

@[simp] theorem State.record_winPos (e : Event) : (s.record e).winPos = s.winPos := rfl
@[simp] theorem State.record_aheadBytes (e : Event) : (s.record e).aheadBytes = s.aheadBytes := rfl
@[simp] theorem State.record_matchLen (e : Event) : (s.record e).matchLen = s.matchLen := rfl
@[simp] theorem State.record_matchPos (e : Event) : (s.record e).matchPos = s.matchPos := rfl
@[simp] theorem State.record_eos (e : Event) : (s.record e).eos = s.eos := rfl
@[simp] theorem State.record_replCnt (e : Event) : (s.record e).replCnt = s.replCnt := rfl
@[simp] theorem State.record_advCnt (e : Event) : (s.record e).advCnt = s.advCnt := rfl
@[simp] theorem State.record_testNode (e : Event) : (s.record e).testNode = s.testNode := rfl
@[simp] theorem State.record_i (e : Event) : (s.record e).i = s.i := rfl
@[simp] theorem State.record_delta (e : Event) : (s.record e).delta = s.delta := rfl
@[simp] theorem State.record_bestLen (e : Event) : (s.record e).bestLen = s.bestLen := rfl
@[simp] theorem State.record_bestPos (e : Event) : (s.record e).bestPos = s.bestPos := rfl
@[simp] theorem State.record_par (e : Event) : (s.record e).par = s.par := rfl
@[simp] theorem State.record_nxt (e : Event) : (s.record e).nxt = s.nxt := rfl
@[simp] theorem State.record_repl (e : Event) : (s.record e).repl = s.repl := rfl
@[simp] theorem State.record_seq (e : Event) : (s.record e).seq = s.seq := rfl
@[simp] theorem State.record_done (e : Event) : (s.record e).done = s.done := rfl
@[simp] theorem State.record_fault (e : Event) : (s.record e).fault = s.fault := rfl
@[simp] theorem State.record_cause (e : Event) : (s.record e).cause = s.cause := rfl
@[simp] theorem State.record_window (e : Event) : (s.record e).window = s.window := rfl
@[simp] theorem State.record_node (e : Event) : (s.record e).node = s.node := rfl
@[simp] theorem State.record_bsAcc (e : Event) : (s.record e).bsAcc = s.bsAcc := rfl
@[simp] theorem State.record_bsCnt (e : Event) : (s.record e).bsCnt = s.bsCnt := rfl
@[simp] theorem State.record_wait (e : Event) : (s.record e).wait = s.wait := rfl
@[simp] theorem State.record_nReads (e : Event) : (s.record e).nReads = s.nReads := rfl
@[simp] theorem State.record_outBits (e : Event) : (s.record e).outBits = s.outBits := rfl
@[simp] theorem State.record_events (e : Event) : (s.record e).events = s.events ++ [e] := rfl
@[simp] theorem State.record_outBytes (e : Event) : (s.record e).outBytes = s.outBytes := rfl
@[simp] theorem State.record_inPort (e : Event) : (s.record e).inPort = s.inPort := rfl
@[simp] theorem State.record_outPort (e : Event) : (s.record e).outPort = s.outPort := rfl
@[simp] theorem State.record_inEnded (e : Event) : (s.record e).inEnded = s.inEnded := rfl
@[simp] theorem State.record_reqs (e : Event) : (s.record e).reqs = s.reqs := rfl
@[simp] theorem State.record_result (e : Event) : (s.record e).result = s.result := rfl

/-! ## issueBit -/

@[simp] theorem State.issueBit_winPos : s.issueBit.winPos = s.winPos := rfl
@[simp] theorem State.issueBit_aheadBytes : s.issueBit.aheadBytes = s.aheadBytes := rfl
@[simp] theorem State.issueBit_matchLen : s.issueBit.matchLen = s.matchLen := rfl
@[simp] theorem State.issueBit_matchPos : s.issueBit.matchPos = s.matchPos := rfl
@[simp] theorem State.issueBit_eos : s.issueBit.eos = s.eos := rfl
@[simp] theorem State.issueBit_replCnt : s.issueBit.replCnt = s.replCnt := rfl
@[simp] theorem State.issueBit_advCnt : s.issueBit.advCnt = s.advCnt := rfl
@[simp] theorem State.issueBit_testNode : s.issueBit.testNode = s.testNode := rfl
@[simp] theorem State.issueBit_i : s.issueBit.i = s.i := rfl
@[simp] theorem State.issueBit_delta : s.issueBit.delta = s.delta := rfl
@[simp] theorem State.issueBit_bestLen : s.issueBit.bestLen = s.bestLen := rfl
@[simp] theorem State.issueBit_bestPos : s.issueBit.bestPos = s.bestPos := rfl
@[simp] theorem State.issueBit_par : s.issueBit.par = s.par := rfl
@[simp] theorem State.issueBit_nxt : s.issueBit.nxt = s.nxt := rfl
@[simp] theorem State.issueBit_repl : s.issueBit.repl = s.repl := rfl
@[simp] theorem State.issueBit_seq : s.issueBit.seq = s.seq := rfl
@[simp] theorem State.issueBit_done : s.issueBit.done = s.done := rfl
@[simp] theorem State.issueBit_fault : s.issueBit.fault = s.fault := rfl
@[simp] theorem State.issueBit_cause : s.issueBit.cause = s.cause := rfl
@[simp] theorem State.issueBit_window : s.issueBit.window = s.window := rfl
@[simp] theorem State.issueBit_node : s.issueBit.node = s.node := rfl
@[simp] theorem State.issueBit_bsAcc : s.issueBit.bsAcc = s.bsAcc := rfl
@[simp] theorem State.issueBit_bsCnt : s.issueBit.bsCnt = s.bsCnt := rfl
@[simp] theorem State.issueBit_wait : s.issueBit.wait = s.wait := rfl
@[simp] theorem State.issueBit_nReads : s.issueBit.nReads = s.nReads := rfl
@[simp] theorem State.issueBit_outBits : s.issueBit.outBits = s.outBits := rfl
@[simp] theorem State.issueBit_events : s.issueBit.events = s.events := rfl
@[simp] theorem State.issueBit_outBytes : s.issueBit.outBytes = s.outBytes := rfl
@[simp] theorem State.issueBit_inPort : s.issueBit.inPort = s.inPort := rfl
@[simp] theorem State.issueBit_outPort : s.issueBit.outPort = s.outPort.tail := rfl
@[simp] theorem State.issueBit_inEnded : s.issueBit.inEnded = s.inEnded := rfl
@[simp] theorem State.issueBit_reqs : s.issueBit.reqs = s.reqs := rfl
@[simp] theorem State.issueBit_result : s.issueBit.result = s.result := rfl

/-! ## appendBit -/

@[simp] theorem State.appendBit_winPos (b : Bool) : (s.appendBit b).winPos = s.winPos := rfl
@[simp] theorem State.appendBit_aheadBytes (b : Bool) : (s.appendBit b).aheadBytes = s.aheadBytes := rfl
@[simp] theorem State.appendBit_matchLen (b : Bool) : (s.appendBit b).matchLen = s.matchLen := rfl
@[simp] theorem State.appendBit_matchPos (b : Bool) : (s.appendBit b).matchPos = s.matchPos := rfl
@[simp] theorem State.appendBit_eos (b : Bool) : (s.appendBit b).eos = s.eos := rfl
@[simp] theorem State.appendBit_replCnt (b : Bool) : (s.appendBit b).replCnt = s.replCnt := rfl
@[simp] theorem State.appendBit_advCnt (b : Bool) : (s.appendBit b).advCnt = s.advCnt := rfl
@[simp] theorem State.appendBit_testNode (b : Bool) : (s.appendBit b).testNode = s.testNode := rfl
@[simp] theorem State.appendBit_i (b : Bool) : (s.appendBit b).i = s.i := rfl
@[simp] theorem State.appendBit_delta (b : Bool) : (s.appendBit b).delta = s.delta := rfl
@[simp] theorem State.appendBit_bestLen (b : Bool) : (s.appendBit b).bestLen = s.bestLen := rfl
@[simp] theorem State.appendBit_bestPos (b : Bool) : (s.appendBit b).bestPos = s.bestPos := rfl
@[simp] theorem State.appendBit_par (b : Bool) : (s.appendBit b).par = s.par := rfl
@[simp] theorem State.appendBit_nxt (b : Bool) : (s.appendBit b).nxt = s.nxt := rfl
@[simp] theorem State.appendBit_repl (b : Bool) : (s.appendBit b).repl = s.repl := rfl
@[simp] theorem State.appendBit_seq (b : Bool) : (s.appendBit b).seq = s.seq := rfl
@[simp] theorem State.appendBit_done (b : Bool) : (s.appendBit b).done = s.done := rfl
@[simp] theorem State.appendBit_fault (b : Bool) : (s.appendBit b).fault = s.fault := rfl
@[simp] theorem State.appendBit_cause (b : Bool) : (s.appendBit b).cause = s.cause := rfl
@[simp] theorem State.appendBit_window (b : Bool) : (s.appendBit b).window = s.window := rfl
@[simp] theorem State.appendBit_node (b : Bool) : (s.appendBit b).node = s.node := rfl
@[simp] theorem State.appendBit_bsAcc (b : Bool) : (s.appendBit b).bsAcc = s.bsAcc := rfl
@[simp] theorem State.appendBit_bsCnt (b : Bool) : (s.appendBit b).bsCnt = s.bsCnt := rfl
@[simp] theorem State.appendBit_wait (b : Bool) : (s.appendBit b).wait = s.wait := rfl
@[simp] theorem State.appendBit_nReads (b : Bool) : (s.appendBit b).nReads = s.nReads := rfl
@[simp] theorem State.appendBit_outBits (b : Bool) : (s.appendBit b).outBits = s.outBits ++ [b] := rfl
@[simp] theorem State.appendBit_events (b : Bool) : (s.appendBit b).events = s.events := rfl
@[simp] theorem State.appendBit_outBytes (b : Bool) : (s.appendBit b).outBytes = s.outBytes := rfl
@[simp] theorem State.appendBit_inPort (b : Bool) : (s.appendBit b).inPort = s.inPort := rfl
@[simp] theorem State.appendBit_outPort (b : Bool) : (s.appendBit b).outPort = s.outPort := rfl
@[simp] theorem State.appendBit_inEnded (b : Bool) : (s.appendBit b).inEnded = s.inEnded := rfl
@[simp] theorem State.appendBit_reqs (b : Bool) : (s.appendBit b).reqs = s.reqs := rfl
@[simp] theorem State.appendBit_result (b : Bool) : (s.appendBit b).result = s.result := rfl

/-! ## dropRequest -/

@[simp] theorem State.dropRequest_winPos : s.dropRequest.winPos = s.winPos := rfl
@[simp] theorem State.dropRequest_aheadBytes : s.dropRequest.aheadBytes = s.aheadBytes := rfl
@[simp] theorem State.dropRequest_matchLen : s.dropRequest.matchLen = s.matchLen := rfl
@[simp] theorem State.dropRequest_matchPos : s.dropRequest.matchPos = s.matchPos := rfl
@[simp] theorem State.dropRequest_eos : s.dropRequest.eos = s.eos := rfl
@[simp] theorem State.dropRequest_replCnt : s.dropRequest.replCnt = s.replCnt := rfl
@[simp] theorem State.dropRequest_advCnt : s.dropRequest.advCnt = s.advCnt := rfl
@[simp] theorem State.dropRequest_testNode : s.dropRequest.testNode = s.testNode := rfl
@[simp] theorem State.dropRequest_i : s.dropRequest.i = s.i := rfl
@[simp] theorem State.dropRequest_delta : s.dropRequest.delta = s.delta := rfl
@[simp] theorem State.dropRequest_bestLen : s.dropRequest.bestLen = s.bestLen := rfl
@[simp] theorem State.dropRequest_bestPos : s.dropRequest.bestPos = s.bestPos := rfl
@[simp] theorem State.dropRequest_par : s.dropRequest.par = s.par := rfl
@[simp] theorem State.dropRequest_nxt : s.dropRequest.nxt = s.nxt := rfl
@[simp] theorem State.dropRequest_repl : s.dropRequest.repl = s.repl := rfl
@[simp] theorem State.dropRequest_seq : s.dropRequest.seq = s.seq := rfl
@[simp] theorem State.dropRequest_done : s.dropRequest.done = s.done := rfl
@[simp] theorem State.dropRequest_fault : s.dropRequest.fault = s.fault := rfl
@[simp] theorem State.dropRequest_cause : s.dropRequest.cause = s.cause := rfl
@[simp] theorem State.dropRequest_window : s.dropRequest.window = s.window := rfl
@[simp] theorem State.dropRequest_node : s.dropRequest.node = s.node := rfl
@[simp] theorem State.dropRequest_bsAcc : s.dropRequest.bsAcc = s.bsAcc := rfl
@[simp] theorem State.dropRequest_bsCnt : s.dropRequest.bsCnt = s.bsCnt := rfl
@[simp] theorem State.dropRequest_wait : s.dropRequest.wait = s.wait := rfl
@[simp] theorem State.dropRequest_nReads : s.dropRequest.nReads = s.nReads := rfl
@[simp] theorem State.dropRequest_outBits : s.dropRequest.outBits = s.outBits := rfl
@[simp] theorem State.dropRequest_events : s.dropRequest.events = s.events := rfl
@[simp] theorem State.dropRequest_outBytes : s.dropRequest.outBytes = s.outBytes := rfl
@[simp] theorem State.dropRequest_inPort : s.dropRequest.inPort = s.inPort := rfl
@[simp] theorem State.dropRequest_outPort : s.dropRequest.outPort = s.outPort := rfl
@[simp] theorem State.dropRequest_inEnded : s.dropRequest.inEnded = s.inEnded := rfl
@[simp] theorem State.dropRequest_reqs : s.dropRequest.reqs = s.reqs.tail := rfl
@[simp] theorem State.dropRequest_result : s.dropRequest.result = s.result := rfl

end Sys2Proof.Machine
end

