-- ==== Sys2Proof/Laws/Ops.lean ====
section
/-! SUPPORT. What each shared operation can do, said once: the outcomes of an operation inside a step, the port
transactions, the packing of the bit sink. -/

namespace Sys2Proof.Machine

/-! ## Res -/

section Res

variable {α β : Type}

@[simp] theorem Res.ret_andThen (a : α) (s : State) (k : α → State → Res β) : (Res.ret a s).andThen k = k a s := rfl
@[simp] theorem Res.stop_andThen (s : State) (k : α → State → Res β) : (Res.stop s).andThen k = .stop s := rfl
@[simp] theorem Res.fault_andThen (f : Fault) (k : α → State → Res β) : (Res.fault f).andThen k = .fault f := rfl
@[simp] theorem Res.refused_andThen (r : Refusal) (k : α → State → Res β) : (Res.refused r).andThen k = .refused r := rfl

@[simp] theorem Res.ret_outcome (a : α) (s : State) (k : α → State → State) : (Res.ret a s).outcome k = .next (k a s) := rfl
@[simp] theorem Res.stop_outcome (s : State) (k : α → State → State) : (Res.stop (α := α) s).outcome k = .next s := rfl
@[simp] theorem Res.fault_outcome (f : Fault) (k : α → State → State) : (Res.fault (α := α) f).outcome k = .fault f := rfl
@[simp] theorem Res.refused_outcome (r : Refusal) (k : α → State → State) :
    (Res.refused (α := α) r).outcome k = .refused r := rfl

theorem Res.andThen_eq_ret {x : Res α} {k : α → State → Res β} {b : β} {t : State} :
    x.andThen k = .ret b t ↔ ∃ a s, x = .ret a s ∧ k a s = .ret b t := by
  cases x <;> simp

theorem Res.andThen_eq_stop {x : Res α} {k : α → State → Res β} {t : State} :
    x.andThen k = .stop t ↔ x = .stop t ∨ ∃ a s, x = .ret a s ∧ k a s = .stop t := by
  cases x <;> simp

theorem Res.andThen_eq_fault {x : Res α} {k : α → State → Res β} {f : Fault} :
    x.andThen k = .fault f ↔ x = .fault f ∨ ∃ a s, x = .ret a s ∧ k a s = .fault f := by
  cases x <;> simp

theorem Res.andThen_eq_refused {x : Res α} {k : α → State → Res β} {r : Refusal} :
    x.andThen k = .refused r ↔ x = .refused r ∨ ∃ a s, x = .ret a s ∧ k a s = .refused r := by
  cases x <;> simp

theorem Res.outcome_eq_next {x : Res α} {k : α → State → State} {t : State} :
    x.outcome k = .next t ↔ (∃ a s, x = .ret a s ∧ k a s = t) ∨ x = .stop t := by
  cases x <;> simp

/-- Every state an operation ends in, returning or stopping, meets its condition. -/
def Res.Sat (x : Res α) (returns : α → State → Prop) (stops : State → Prop) : Prop :=
  match x with
  | .ret a s   => returns a s
  | .stop s    => stops s
  | .fault _   => True
  | .refused _ => True

theorem Res.Sat.andThen {x : Res α} {k : α → State → Res β} {q : α → State → Prop} {q' : β → State → Prop}
    {r : State → Prop} (hx : x.Sat q r) (hk : ∀ a s, q a s → (k a s).Sat q' r) : (x.andThen k).Sat q' r := by
  cases x with
  | ret a s => exact hk a s hx
  | stop s => exact hx
  | fault f => trivial
  | refused r => trivial

theorem Res.Sat.mono {x : Res α} {q q' : α → State → Prop} {r r' : State → Prop} (hx : x.Sat q r)
    (hq : ∀ a s, q a s → q' a s) (hr : ∀ s, r s → r' s) : x.Sat q' r' := by
  cases x with
  | ret a s => exact hq a s hx
  | stop s => exact hr s hx
  | fault f => trivial
  | refused r => trivial

theorem Res.Sat.next {x : Res α} {k : α → State → State} {q : α → State → Prop} {p : State → Prop} {t : State}
    (hx : x.Sat q p) (hk : ∀ a s, q a s → p (k a s)) (h : x.outcome k = .next t) : p t := by
  rcases Res.outcome_eq_next.mp h with ⟨a, s, rfl, rfl⟩ | rfl
  · exact hk a s hx
  · exact hx

end Res

/-! ## Input port -/

/-- Everything a `ReadByte` can do (R130, R131, R243). -/
theorem readByte_cases (s : State) :
    (s.nextInput = none ∧ readByte s = .stop { s.issueRead with wait := some .read }) ∨
    (s.nextInput = some .err ∧ readByte s = .stop ((s.issueRead.record (.read .err)).enterFault .inputReadError)) ∨
    (s.nextInput = some .eoi ∧ readByte s = .ret .eoi { s.issueRead.record (.read .eoi) with inEnded := true }) ∨
    (∃ b, s.nextInput = some (.byte b) ∧ s.inEnded = false ∧
      readByte s = .ret (.byte b) (s.issueRead.record (.read (.byte b)))) ∨
    (∃ b, s.nextInput = some (.byte b) ∧ s.inEnded = true ∧ readByte s = .refused .byteAfterEndOfInput) := by
  unfold readByte block raise
  cases h : s.nextInput with
  | none => simp
  | some a =>
    cases a with
    | byte b => cases hE : s.inEnded <;> simp
    | eoi => simp
    | err => simp

/-! ## Bit sink -/

@[simp] theorem msbBits_length (k v : Nat) : (msbBits k v).length = k := by
  induction k with
  | zero => rfl
  | succ k ih => simp [msbBits, ih]

/-- What putting bits out changes, and that the packed view grows by exactly those bits (R132, R135). -/
structure Emitted (s t : State) (bits : List Bool) : Prop where
  frame  : t = { s with outBits := s.outBits ++ bits, events := s.events ++ bits.map .bit,
                        outPort := s.outPort.drop bits.length,
                        outBytes := t.outBytes, bsAcc := t.bsAcc, bsCnt := t.bsCnt }
  packed : t.packedBits = s.packedBits ++ bits
  clean  : (msbBits 8 s.bsAcc.toNat).drop s.bsCnt.toNat = List.replicate (8 - s.bsCnt.toNat) false →
             (msbBits 8 t.bsAcc.toNat).drop t.bsCnt.toNat = List.replicate (8 - t.bsCnt.toNat) false

theorem Emitted.refl (s : State) : Emitted s s [] := ⟨by simp, by simp, id⟩

theorem Emitted.trans {s t u : State} {a b : List Bool} (h1 : Emitted s t a) (h2 : Emitted t u b) : Emitted s u (a ++ b) where
  frame := by
    have e1 := h1.frame
    have e2 := h2.frame
    generalize u.outBytes = ob at *
    generalize u.bsAcc = ac at *
    generalize u.bsCnt = cn at *
    rw [e2, e1]
    simp [List.drop_drop]
  packed := by rw [h2.packed, h1.packed, List.append_assoc]
  clean := fun h => h2.clean (h1.clean h)

/-- The filled part of the accumulator after a bit is placed, for every accumulator and every place: checked by cases on the place. -/
theorem placeBit_bits (acc : Byte) (cnt : BitVec 3) (b : Bool) :
    (msbBits 8 (placeBit acc cnt b).toNat).take (cnt.toNat + 1) = (msbBits 8 acc.toNat).take cnt.toNat ++ [b] := by
  revert acc cnt b
  decide +kernel

theorem placeBit_clean (acc : Byte) (cnt : BitVec 3) (b : Bool) :
    (msbBits 8 acc.toNat).drop cnt.toNat = List.replicate (8 - cnt.toNat) false →
    (msbBits 8 (placeBit acc cnt b).toNat).drop (cnt.toNat + 1) = List.replicate (8 - (cnt.toNat + 1)) false := by
  revert acc cnt b
  decide +kernel

theorem packBit_emitted (s : State) (b : Bool) :
    (s.packBit b).packedBits = s.packedBits ++ [b] ∧
    ((msbBits 8 s.bsAcc.toNat).drop s.bsCnt.toNat = List.replicate (8 - s.bsCnt.toNat) false →
      (msbBits 8 (s.packBit b).bsAcc.toNat).drop (s.packBit b).bsCnt.toNat =
        List.replicate (8 - (s.packBit b).bsCnt.toNat) false) := by
  have hp := placeBit_bits s.bsAcc s.bsCnt b
  have hc := placeBit_clean s.bsAcc s.bsCnt b
  unfold State.packBit State.packedBits
  by_cases h : s.bsCnt = 7
  · simp only [h, if_true] at hp ⊢
    constructor
    · have hp' := hp
      rw [List.take_of_length_le (by simp)] at hp'
      simp only [List.flatMap_append, List.flatMap_cons, List.flatMap_nil, List.append_nil, hp']
      simp
    · intro _; decide
  · have hlt : s.bsCnt.toNat + 1 < 8 := by
      have h7 : s.bsCnt.toNat ≠ 7 := fun e => h (BitVec.eq_of_toNat_eq (by simpa using e))
      have := s.bsCnt.isLt
      omega
    have e1 : (s.bsCnt + 1).toNat = s.bsCnt.toNat + 1 := by
      simp [BitVec.toNat_add, Nat.mod_eq_of_lt hlt]
    simp only [h, if_false]
    constructor
    · rw [e1, hp, List.append_assoc]
    · rw [e1]; exact hc

/-- Packing a bit touches the packed view only. -/
theorem packBit_frame (s : State) (b : Bool) :
    s.packBit b = { s with outBytes := (s.packBit b).outBytes, bsAcc := (s.packBit b).bsAcc, bsCnt := (s.packBit b).bsCnt } := by
  unfold State.packBit; split <;> rfl

/-- The state in which a `WriteBit` that is not answered leaves the step (R18). -/
def State.waitsOnBit (s : State) (b : Bool) : State := { s.issueBit with wait := some (.bit b) }

/-- The state in which a refused `WriteBit` leaves the step (R242). -/
def State.bitRefused (s : State) (b : Bool) : State := (s.issueBit.record (.bitRefused b)).enterFault .outputWriteError

/-- Everything a `WriteBit` can do (R132, R242). -/
theorem writeBit_cases (b : Bool) (s : State) :
    (s.nextSink = some true ∧ ∃ t, writeBit b s = .ret () t ∧ Emitted s t [b]) ∨
    (s.nextSink = some false ∧ writeBit b s = .stop (s.bitRefused b)) ∨
    (s.nextSink = none ∧ writeBit b s = .stop (s.waitsOnBit b)) := by
  unfold writeBit block raise
  cases h : s.nextSink with
  | none => exact .inr (.inr ⟨rfl, rfl⟩)
  | some a =>
    cases a with
    | false => exact .inr (.inl ⟨rfl, rfl⟩)
    | true =>
      refine .inl ⟨rfl, _, rfl, ?_⟩
      have hp := packBit_emitted ((s.issueBit.record (.bit b)).appendBit b) b
      have hf := packBit_frame ((s.issueBit.record (.bit b)).appendBit b) b
      exact ⟨hf.trans (by simp [State.appendBit, State.record, State.issueBit]), hp.1, hp.2⟩

theorem sinkTakes_zero (s : State) : s.sinkTakes 0 = true := by simp [State.sinkTakes]

theorem sinkTakes_succ {s : State} {k : Nat} (h : s.sinkTakes (k + 1) = true) :
    s.nextSink = some true ∧ ∀ t : State, t.outPort = s.outPort.drop 1 → t.sinkTakes k = true := by
  unfold State.sinkTakes State.nextSink at *
  cases hp : s.outPort with
  | nil => exact ⟨by simp [OutItem.taken, OutItem.answer], fun t ht => by simp [show t.outPort = [] by simpa using ht]⟩
  | cons x xs =>
    simp only [hp, List.take_succ_cons, List.all_cons, Bool.and_eq_true, decide_eq_true_eq] at h
    refine ⟨by simpa using h.1, fun t ht => ?_⟩
    simpa [ht] using h.2

theorem sinkTakes_mono {s : State} {j k : Nat} (hjk : j ≤ k) (h : s.sinkTakes k = true) : s.sinkTakes j = true := by
  unfold State.sinkTakes at *
  rw [List.all_eq_true] at *
  exact fun x hx => h x ((List.take_subset_take_left _ hjk) hx)

theorem sinkTakes_drop {s t : State} {j k : Nat} (h : s.sinkTakes (j + k) = true) (ht : t.outPort = s.outPort.drop j) :
    t.sinkTakes k = true := by
  unfold State.sinkTakes at *
  rw [List.all_eq_true] at *
  rw [ht]
  intro x hx
  refine h x ?_
  rw [List.take_add]
  exact List.mem_append_right _ hx

/-- `WriteBits` puts out bits `k-1` down to 0 when the sink takes them (R133). -/
theorem writeBits_taken (v : BitVec 32) (k : Nat) (s : State) (h : s.sinkTakes k = true) :
    ∃ t, writeBits v k s = .ret () t ∧ Emitted s t (msbBits k v.toNat) := by
  induction k generalizing s with
  | zero => exact ⟨s, rfl, Emitted.refl s⟩
  | succ k ih =>
    obtain ⟨hs, hrest⟩ := sinkTakes_succ h
    rcases writeBit_cases (v.getLsbD k) s with ⟨-, t, ht, he⟩ | ⟨h', -⟩ | ⟨h', -⟩
    · have htp : t.outPort = s.outPort.drop 1 := by rw [he.frame]; rfl
      obtain ⟨u, hu, hue⟩ := ih t (hrest t htp)
      refine ⟨u, ?_, ?_⟩
      · simp only [writeBits, ht, Res.ret_andThen]; exact hu
      · have := he.trans hue
        simpa [msbBits, BitVec.getLsbD] using this
    · rw [hs] at h'; cases h'
    · rw [hs] at h'; cases h'

/-- Where a `WriteBits` that does not return stops: some of its bits are out, and the next one is refused or not answered
(R133: "if bit j faults, bits k-1 .. j+1 have been emitted and the rest are not"). -/
theorem writeBits_stops (v : BitVec 32) (k : Nat) (s : State) :
    (writeBits v k s).Sat (fun _ t => Emitted s t (msbBits k v.toNat))
      (fun t => ∃ u bits b rest, msbBits k v.toNat = bits ++ b :: rest ∧ Emitted s u bits ∧
        (t = u.bitRefused b ∨ t = u.waitsOnBit b)) := by
  induction k generalizing s with
  | zero => exact Emitted.refl s
  | succ k ih =>
    have hb : msbBits (k + 1) v.toNat = v.getLsbD k :: msbBits k v.toNat := by simp [msbBits, BitVec.getLsbD]
    rw [hb]
    unfold writeBits
    rcases writeBit_cases (v.getLsbD k) s with ⟨-, t, ht, he⟩ | ⟨-, ht⟩ | ⟨-, ht⟩
    · rw [ht]
      refine (ih t).mono (fun _ u hu => he.trans hu) ?_
      rintro w ⟨u, bits, b, rest, h1, h2, h3⟩
      exact ⟨u, v.getLsbD k :: bits, b, rest, by simp [h1], he.trans h2, h3⟩
    · rw [ht]
      exact ⟨s, [], _, _, rfl, Emitted.refl s, .inl rfl⟩
    · rw [ht]
      exact ⟨s, [], _, _, rfl, Emitted.refl s, .inr rfl⟩

/-- Two emissions one after the other. -/
theorem emits_andThen {x : Res Unit} {k : Unit → State → Res Unit} {s : State} {a c : List Bool}
    (hx : x.Sat (fun _ t => Emitted s t a)
      (fun t => ∃ u bits b rest, a = bits ++ b :: rest ∧ Emitted s u bits ∧ (t = u.bitRefused b ∨ t = u.waitsOnBit b)))
    (hk : ∀ t, (k () t).Sat (fun _ w => Emitted t w c)
      (fun w => ∃ u bits b rest, c = bits ++ b :: rest ∧ Emitted t u bits ∧ (w = u.bitRefused b ∨ w = u.waitsOnBit b))) :
    (x.andThen k).Sat (fun _ t => Emitted s t (a ++ c))
      (fun t => ∃ u bits b rest, a ++ c = bits ++ b :: rest ∧ Emitted s u bits ∧ (t = u.bitRefused b ∨ t = u.waitsOnBit b)) := by
  cases x with
  | ret _ t =>
    refine (hk t).mono (fun _ w hw => Emitted.trans hx hw) ?_
    rintro w ⟨u, bits, b, rest, h1, h2, h3⟩
    exact ⟨u, a ++ bits, b, rest, by simp [h1], Emitted.trans hx h2, h3⟩
  | stop t =>
    obtain ⟨u, bits, b, rest, h1, h2, h3⟩ := hx
    exact ⟨u, bits, b, rest ++ c, by simp [h1], h2, h3⟩
  | fault f => trivial
  | refused r => trivial

/-- `WriteBit` as an emission of one bit. -/
theorem writeBit_emits (b : Bool) (s : State) :
    (writeBit b s).Sat (fun _ t => Emitted s t [b])
      (fun t => ∃ u bits c rest, [b] = bits ++ c :: rest ∧ Emitted s u bits ∧ (t = u.bitRefused c ∨ t = u.waitsOnBit c)) := by
  rcases writeBit_cases b s with ⟨-, t, ht, he⟩ | ⟨-, ht⟩ | ⟨-, ht⟩
  · rw [ht]; exact he
  · rw [ht]; exact ⟨s, [], b, [], rfl, Emitted.refl s, .inl rfl⟩
  · rw [ht]; exact ⟨s, [], b, [], rfl, Emitted.refl s, .inr rfl⟩

end Sys2Proof.Machine
end

