-- ==== Sys2Proof/Laws/Emit.lean ====
section
/-! SUPPORT. Every operation that puts bits out is a sequence of `WriteBit`s, `putBits`; what such a sequence does when the sink takes,
refuses or does not answer a bit is said here once. -/

namespace Sys2Proof.Machine

/-- The bits handed to `WriteBit` one after the other. -/
def putBits : List Bool → State → Res Unit
  | [], s => .ret () s
  | b :: t, s => (writeBit b s).andThen fun _ s => putBits t s

theorem Res.andThen_assoc {α β γ : Type} (x : Res α) (f : α → State → Res β) (g : β → State → Res γ) :
    (x.andThen f).andThen g = x.andThen fun a s => (f a s).andThen g := by
  cases x <;> rfl

theorem putBits_append (a b : List Bool) (s : State) : putBits (a ++ b) s = (putBits a s).andThen fun _ t => putBits b t := by
  induction a generalizing s with
  | nil => rfl
  | cons x a ih =>
    simp only [List.cons_append, putBits, Res.andThen_assoc]
    congr 1
    funext _ t
    exact ih t

theorem writeBits_eq_putBits (v : BitVec 32) (k : Nat) (s : State) : writeBits v k s = putBits (msbBits k v.toNat) s := by
  induction k generalizing s with
  | zero => rfl
  | succ k ih =>
    simp only [writeBits, msbBits, putBits]
    congr 1
    funext _ t
    exact ih t

theorem writeBit_eq_putBits (b : Bool) (s : State) : writeBit b s = putBits [b] s := by
  simp only [putBits]
  cases writeBit b s <;> rfl

theorem emitLiteralRecord_eq_putBits (v : BitVec 32) (s : State) :
    emitLiteralRecord v s = putBits (true :: msbBits 8 v.toNat) s := by
  simp only [emitLiteralRecord, putBits, writeBits_eq_putBits]

theorem emitMatchRecord_eq_putBits (p l : BitVec 32) (s : State) :
    emitMatchRecord p l s = putBits (false :: (msbBits 10 p.toNat ++ msbBits 4 l.toNat)) s := by
  simp only [emitMatchRecord, putBits, putBits_append, writeBits_eq_putBits]

theorem emitEosRecord_eq_putBits (s : State) : emitEosRecord s = putBits eosBits s := by
  simp only [emitEosRecord, eosBits, putBits, writeBits_eq_putBits]
  rfl

/-- The literal record of a byte (R102, R107). -/
theorem emitLiteralRecord_byte (b : Byte) (s : State) :
    emitLiteralRecord (literalOperand b) s = putBits (literalBits b) s := by
  rw [emitLiteralRecord_eq_putBits]
  have : b.toNat < 256 := b.isLt
  rw [literalOperand, literalBits, BitVec.toNat_setWidth, Nat.mod_eq_of_lt (by omega)]

/-- Putting out the low bits of a number does not look at the bits above them. -/
theorem msbBits_mod (k v w : Nat) (h : v % 2 ^ k = w % 2 ^ k) : msbBits k v = msbBits k w := by
  induction k with
  | zero => rfl
  | succ k ih =>
    have h1 : v.testBit k = w.testBit k := by
      have := congrArg (fun x => x.testBit k) h
      simpa [Nat.testBit_mod_two_pow] using this
    have h2 : v % 2 ^ k = w % 2 ^ k := by
      have := congrArg (fun x => x % 2 ^ k) h
      simpa [Nat.mod_mod_of_dvd, Nat.pow_dvd_pow] using this
    simp [msbBits, h1, ih h2]

/-- The match record of a position and a length field (R103, R105). -/
theorem emitMatchRecord_fields (p : Pos) (l : BitVec 32) (f : BitVec 4) (h : f = l.setWidth 4) (s : State) :
    emitMatchRecord (positionOperand p) l s = putBits (matchBits p f) s := by
  rw [emitMatchRecord_eq_putBits]
  subst h
  have hp : p.toNat < 1024 := p.isLt
  have hl : msbBits 4 l.toNat = msbBits 4 (l.setWidth 4).toNat := msbBits_mod 4 _ _ (by simp [BitVec.toNat_setWidth])
  rw [hl]
  rw [positionOperand, matchBits, BitVec.toNat_setWidth, Nat.mod_eq_of_lt (by omega)]

/-- The match record the driver puts out for a length (R106, R205). -/
theorem emitMatchRecord_length (p : Pos) (m : Cnt) (s : State) :
    emitMatchRecord (positionOperand p) (lengthOperand m) s = putBits (matchBits p (lengthField m)) s := by
  refine emitMatchRecord_fields p _ _ ?_ s
  simp [lengthOperand, lengthField, BitVec.setWidth_setWidth_of_le]

theorem msbBits_eq_range (v : BitVec 32) (k : Nat) : msbBits k v.toNat = (List.range k).reverse.map v.getLsbD := by
  induction k with
  | zero => rfl
  | succ k ih => simp [msbBits, ih, List.range_succ, BitVec.getLsbD]

/-! ## What a sequence of bits does -/

/-- Everything a sequence of bits can do: it is all taken; or, after some of it, a bit is refused or not answered. -/
theorem putBits_sat (bits : List Bool) (s : State) :
    (putBits bits s).Sat (fun _ t => Emitted s t bits)
      (fun t => ∃ u own b rest, bits = own ++ b :: rest ∧ Emitted s u own ∧ (t = u.bitRefused b ∨ t = u.waitsOnBit b)) := by
  induction bits generalizing s with
  | nil => exact Emitted.refl s
  | cons b bits ih => exact emits_andThen (writeBit_emits b s) ih

/-- It never ends in a fault of the model or a refusal. -/
theorem putBits_cases (bits : List Bool) (s : State) :
    (∃ t, putBits bits s = .ret () t ∧ Emitted s t bits) ∨
    (∃ u own b rest, bits = own ++ b :: rest ∧ Emitted s u own ∧
      (putBits bits s = .stop (u.bitRefused b) ∨ putBits bits s = .stop (u.waitsOnBit b))) := by
  have h := putBits_sat bits s
  cases hx : putBits bits s with
  | ret a t => rw [hx] at h; exact .inl ⟨t, rfl, h⟩
  | stop t =>
    rw [hx] at h
    obtain ⟨u, own, b, rest, h1, h2, h3⟩ := h
    exact .inr ⟨u, own, b, rest, h1, h2, h3.imp (fun e => by rw [e]) (fun e => by rw [e])⟩
  | fault f =>
    exfalso
    clear h
    induction bits generalizing s with
    | nil => cases hx
    | cons b bits ih =>
      simp only [putBits] at hx
      rcases writeBit_cases b s with ⟨-, t, ht, -⟩ | ⟨-, ht⟩ | ⟨-, ht⟩ <;> rw [ht] at hx
      · exact ih t hx
      · cases hx
      · cases hx
  | refused r =>
    exfalso
    clear h
    induction bits generalizing s with
    | nil => cases hx
    | cons b bits ih =>
      simp only [putBits] at hx
      rcases writeBit_cases b s with ⟨-, t, ht, -⟩ | ⟨-, ht⟩ | ⟨-, ht⟩ <;> rw [ht] at hx
      · exact ih t hx
      · cases hx
      · cases hx

/-- The sink takes them all. -/
theorem putBits_taken (bits : List Bool) (s : State) (h : s.sinkTakes bits.length = true) :
    ∃ t, putBits bits s = .ret () t ∧ Emitted s t bits := by
  induction bits generalizing s with
  | nil => exact ⟨s, rfl, Emitted.refl s⟩
  | cons b bits ih =>
    obtain ⟨hs, hrest⟩ := sinkTakes_succ h
    rcases writeBit_cases b s with ⟨-, t, ht, he⟩ | ⟨h', -⟩ | ⟨h', -⟩
    · obtain ⟨u, hu, hue⟩ := ih t (hrest t (by rw [he.frame]; rfl))
      exact ⟨u, by simp only [putBits, ht, Res.ret_andThen]; exact hu, he.trans hue⟩
    · rw [hs] at h'; cases h'
    · rw [hs] at h'; cases h'

/-- The first `m` are taken; what happens next is up to the sink's next answer. -/
theorem putBits_upto (bits : List Bool) (m : Nat) (s : State) (hm : m < bits.length) (h : s.sinkTakes m = true) :
    ∃ u, Emitted s u (bits.take m) ∧ u.outPort = s.outPort.drop m ∧
      putBits bits s = (writeBit (bits.getD m false) u).andThen fun _ v => putBits (bits.drop (m + 1)) v := by
  have hl : (bits.take m).length = m := by simp; omega
  obtain ⟨u, hu, he⟩ := putBits_taken (bits.take m) s (by rw [hl]; exact h)
  refine ⟨u, he, by rw [he.frame, hl], ?_⟩
  have hb : bits = bits.take m ++ (bits.getD m false :: bits.drop (m + 1)) := by
    rw [List.getD_eq_getElem _ _ hm, ← List.drop_eq_getElem_cons hm, List.take_append_drop]
  conv_lhs => rw [hb]
  rw [putBits_append, hu]
  rfl

/-- The bit after the first `m` is refused (R242). -/
theorem putBits_refused (bits : List Bool) (m : Nat) (s : State) (hm : m < bits.length) (h : s.sinkRefusesAt m = true) :
    ∃ u, Emitted s u (bits.take m) ∧ putBits bits s = .stop (u.bitRefused (bits.getD m false)) := by
  simp only [State.sinkRefusesAt, Bool.and_eq_true, decide_eq_true_eq] at h
  obtain ⟨u, he, hp, hx⟩ := putBits_upto bits m s hm h.1
  have hn : u.nextSink = some false := by unfold State.nextSink; rw [hp]; exact h.2
  refine ⟨u, he, ?_⟩
  rw [hx]
  rcases writeBit_cases (bits.getD m false) u with ⟨h', -⟩ | ⟨-, ht⟩ | ⟨h', -⟩
  · rw [hn] at h'; cases h'
  · rw [ht]; rfl
  · rw [hn] at h'; cases h'

/-- The bit after the first `m` is not answered (R18). -/
theorem putBits_waits (bits : List Bool) (m : Nat) (s : State) (hm : m < bits.length) (h : s.sinkWaitsAt m = true) :
    ∃ u, Emitted s u (bits.take m) ∧ putBits bits s = .stop (u.waitsOnBit (bits.getD m false)) := by
  simp only [State.sinkWaitsAt, Bool.and_eq_true, decide_eq_true_eq] at h
  obtain ⟨u, he, hp, hx⟩ := putBits_upto bits m s hm h.1
  have hn : u.nextSink = none := by unfold State.nextSink; rw [hp]; exact h.2
  refine ⟨u, he, ?_⟩
  rw [hx]
  rcases writeBit_cases (bits.getD m false) u with ⟨h', -⟩ | ⟨h', -⟩ | ⟨-, ht⟩
  · rw [hn] at h'; cases h'
  · rw [hn] at h'; cases h'
  · rw [ht]; rfl

theorem Emitted.putsOut {s t : State} {bits : List Bool} (h : Emitted s t bits) : PutsOut s t bits := ⟨h.frame, h.packed⟩

end Sys2Proof.Machine
end

