-- ==== Sys2Proof/Laws/Links.lean ====
section
/-! SUPPORT. The pointer structure of the tree, `TreeShape`, under the writes of the tree operations: splicing a slot out, putting
one slot in another's place, linking a leaf. Stated over the three link functions of any index type, so that the case
analysis is about which slots are equal and nothing else. -/

namespace Sys2Proof.Machine

/-- `TreeShape` over link functions: `z` is "none" and `r` the permanent root. -/
structure Links {ι : Type} (z r : ι) (P S L : ι → ι) : Prop where
  zr     : z ≠ r
  root   : P r = z ∧ S r = z
  scr    : S z = z ∧ L z = z
  dead   : ∀ n, n ≠ z → n ≠ r → P n = z → S n = z ∧ L n = z
  up     : ∀ n, n ≠ z → n ≠ r → P n ≠ z → (P n = r ∨ (P n ≠ z ∧ P n ≠ r ∧ P (P n) ≠ z)) ∧ (S (P n) = n ∨ L (P n) = n)
  small  : ∀ p, (p = r ∨ (p ≠ z ∧ p ≠ r ∧ P p ≠ z)) → S p ≠ z → S p ≠ r ∧ P (S p) = p
  large  : ∀ p, (p = r ∨ (p ≠ z ∧ p ≠ r ∧ P p ≠ z)) → L p ≠ z → L p ≠ r ∧ P (L p) = p
  apart  : ∀ p, (p = r ∨ (p ≠ z ∧ p ≠ r ∧ P p ≠ z)) → S p = L p → S p = z
  ranked : ∃ k : ι → Nat, ∀ n, n ≠ z → n ≠ r → P n ≠ z → k (P n) < k n

section Links

variable {ι : Type} {z r : ι} {P S L P' S' L' : ι → ι}

/-- Splicing `o` out from under `p`, whose `largeChild` it is: its only child `n` (or none) takes its place. -/
theorem Links.splice_large (h : Links z r P S L) {o n p : ι} (ho1 : o ≠ z) (ho2 : o ≠ r) (ho3 : P o ≠ z) (hp : p = P o)
    (hn : (S o = z ∧ n = L o) ∨ (L o = z ∧ n = S o)) (hl : L p = o)
    (a1 : P' o = z) (a2 : S' o = z) (a3 : L' o = z) (b1 : P' n = p) (b2 : S' n = S n) (b3 : L' n = L n)
    (c1 : P' p = P p) (c2 : S' p = S p) (c3 : L' p = n)
    (d : ∀ k, k ≠ o → k ≠ n → k ≠ p → P' k = P k ∧ S' k = S k ∧ L' k = L k) : Links z r P' S' L' := by
  obtain ⟨zr, root, scr, dead, up, small, large, apart, k, hk⟩ := h
  have hop : o ≠ p := by intro e; have := hk o ho1 ho2 ho3; rw [← hp, ← e] at this; omega
  have upo := up o ho1 ho2 ho3
  have smo := small o (.inr ⟨ho1, ho2, ho3⟩)
  have lgo := large o (.inr ⟨ho1, ho2, ho3⟩)
  have hko := hk o ho1 ho2 ho3
  have hnp : n ≠ p := by intro e; have := hk p; clear dead up small large apart d hk; grind
  have hno : n ≠ o := by clear dead up small large apart d hk; grind
  have hnn : n = z ∨ (n ≠ z ∧ n ≠ r ∧ P n = o) := by clear dead up small large apart d hk; grind
  have hpp : p = r ∨ (p ≠ z ∧ p ≠ r ∧ P p ≠ z) := by clear dead up small large apart d hk; grind
  have app := apart p hpp
  have smp := small p hpp
  have lgp := large p hpp
  have smn := small n
  have lgn := large n
  have apn := apart n
  refine ⟨zr, ?_, ?_, ?_, ?_, ?_, ?_, ?_, k, ?_⟩
  · have := d r; clear dead up small large apart d hk; by_cases r = n <;> by_cases r = p <;> grind
  · have := d z; clear dead up small large apart d hk; by_cases z = n <;> by_cases z = p <;> grind
  · intro m; have := d m; have := dead m; clear dead up small large apart d hk; by_cases h0 : m = o <;> by_cases h1 : m = n <;> by_cases h2 : m = p <;> grind
  · intro m m1 m2 m3; have := d m; have := up m m1 m2; have := d (P m); clear dead up small large apart d hk; by_cases h0 : m = o <;> by_cases h1 : m = n <;> by_cases h2 : m = p <;> by_cases i0 : P m = o <;> by_cases i1 : P m = n <;> by_cases i2 : P m = p <;> grind
  · intro m; have := d m; have := small m; have := d (S m); clear dead up small large apart d hk; by_cases h0 : m = o <;> by_cases h1 : m = n <;> by_cases h2 : m = p <;> by_cases i0 : S m = o <;> by_cases i1 : S m = n <;> by_cases i2 : S m = p <;> grind
  · intro m; have := d m; have := large m; have := d (L m); clear dead up small large apart d hk; by_cases h0 : m = o <;> by_cases h1 : m = n <;> by_cases h2 : m = p <;> by_cases i0 : L m = o <;> by_cases i1 : L m = n <;> by_cases i2 : L m = p <;> grind
  · intro m; have := d m; have := apart m; have := dead m; clear dead up small large apart d hk; by_cases h0 : m = o <;> by_cases h1 : m = n <;> by_cases h2 : m = p <;> grind
  · intro m; have := d m; have := hk m; have := hk n; have := hk p; clear dead up small large apart d hk; by_cases h0 : m = o <;> by_cases h1 : m = n <;> by_cases h2 : m = p <;> grind

/-- Splicing `o` out from under `p`, whose `smallChild` it is: its only child `n` (or none) takes its place. -/
theorem Links.splice_small (h : Links z r P S L) {o n p : ι} (ho1 : o ≠ z) (ho2 : o ≠ r) (ho3 : P o ≠ z) (hp : p = P o)
    (hn : (S o = z ∧ n = L o) ∨ (L o = z ∧ n = S o)) (hl : S p = o)
    (a1 : P' o = z) (a2 : S' o = z) (a3 : L' o = z) (b1 : P' n = p) (b2 : S' n = S n) (b3 : L' n = L n)
    (c1 : P' p = P p) (c2 : L' p = L p) (c3 : S' p = n)
    (d : ∀ k, k ≠ o → k ≠ n → k ≠ p → P' k = P k ∧ S' k = S k ∧ L' k = L k) : Links z r P' S' L' := by
  obtain ⟨zr, root, scr, dead, up, small, large, apart, k, hk⟩ := h
  have hop : o ≠ p := by intro e; have := hk o ho1 ho2 ho3; rw [← hp, ← e] at this; omega
  have upo := up o ho1 ho2 ho3
  have smo := small o (.inr ⟨ho1, ho2, ho3⟩)
  have lgo := large o (.inr ⟨ho1, ho2, ho3⟩)
  have hko := hk o ho1 ho2 ho3
  have hnp : n ≠ p := by intro e; have := hk p; clear dead up small large apart d hk; grind
  have hno : n ≠ o := by clear dead up small large apart d hk; grind
  have hnn : n = z ∨ (n ≠ z ∧ n ≠ r ∧ P n = o) := by clear dead up small large apart d hk; grind
  have hpp : p = r ∨ (p ≠ z ∧ p ≠ r ∧ P p ≠ z) := by clear dead up small large apart d hk; grind
  have app := apart p hpp
  have smp := small p hpp
  have lgp := large p hpp
  have smn := small n
  have lgn := large n
  have apn := apart n
  refine ⟨zr, ?_, ?_, ?_, ?_, ?_, ?_, ?_, k, ?_⟩
  · have := d r; clear dead up small large apart d hk; by_cases r = n <;> by_cases r = p <;> grind
  · have := d z; clear dead up small large apart d hk; by_cases z = n <;> by_cases z = p <;> grind
  · intro m; have := d m; have := dead m; clear dead up small large apart d hk; by_cases h0 : m = o <;> by_cases h1 : m = n <;> by_cases h2 : m = p <;> grind
  · intro m m1 m2 m3; have := d m; have := up m m1 m2; have := d (P m); clear dead up small large apart d hk; by_cases h0 : m = o <;> by_cases h1 : m = n <;> by_cases h2 : m = p <;> by_cases i0 : P m = o <;> by_cases i1 : P m = n <;> by_cases i2 : P m = p <;> grind
  · intro m; have := d m; have := small m; have := d (S m); clear dead up small large apart d hk; by_cases h0 : m = o <;> by_cases h1 : m = n <;> by_cases h2 : m = p <;> by_cases i0 : S m = o <;> by_cases i1 : S m = n <;> by_cases i2 : S m = p <;> grind
  · intro m; have := d m; have := large m; have := d (L m); clear dead up small large apart d hk; by_cases h0 : m = o <;> by_cases h1 : m = n <;> by_cases h2 : m = p <;> by_cases i0 : L m = o <;> by_cases i1 : L m = n <;> by_cases i2 : L m = p <;> grind
  · intro m; have := d m; have := apart m; have := dead m; clear dead up small large apart d hk; by_cases h0 : m = o <;> by_cases h1 : m = n <;> by_cases h2 : m = p <;> grind
  · intro m; have := d m; have := hk m; have := hk n; have := hk p; clear dead up small large apart d hk; by_cases h0 : m = o <;> by_cases h1 : m = n <;> by_cases h2 : m = p <;> grind

/-- The structure does not look at the parent link of "none". -/
theorem Links.congr (h : Links z r P S L) (hP : ∀ x, x ≠ z → P' x = P x) (hS : ∀ x, S' x = S x) (hL : ∀ x, L' x = L x) :
    Links z r P' S' L' := by
  obtain ⟨zr, root, scr, dead, up, small, large, apart, k, hk⟩ := h
  obtain rfl : S' = S := funext hS
  obtain rfl : L' = L := funext hL
  refine ⟨zr, ?_, scr, ?_, ?_, ?_, ?_, ?_, k, ?_⟩
  · rw [hP r zr.symm]; exact root
  · intro n a b c; rw [hP n a] at c; exact dead n a b c
  · intro n a b c
    rw [hP n a] at c ⊢
    rw [hP (P n) c]
    exact up n a b c
  · intro p hp e
    rw [hP _ e]
    exact small p (hp.imp id fun ⟨a, b, c⟩ => ⟨a, b, by rwa [hP p a] at c⟩) e
  · intro p hp e
    rw [hP _ e]
    exact large p (hp.imp id fun ⟨a, b, c⟩ => ⟨a, b, by rwa [hP p a] at c⟩) e
  · intro p hp e
    exact apart p (hp.imp id fun ⟨a, b, c⟩ => ⟨a, b, by rwa [hP p a] at c⟩) e
  · intro n a b c; rw [hP n a] at c ⊢; exact hk n a b c

/-- The structure does not depend on the names of the slots. -/
theorem Links.rename (h : Links z r P S L) {s : ι → ι} (hs : ∀ x, s (s x) = x) (hz : s z = z) (hr : s r = r) :
    Links z r (fun x => s (P (s x))) (fun x => s (S (s x))) (fun x => s (L (s x))) := by
  obtain ⟨zr, root, scr, dead, up, small, large, apart, k, hk⟩ := h
  have inj : ∀ {x y}, s x = s y ↔ x = y := fun {x y} => ⟨fun e => by rw [← hs x, e, hs], fun e => by rw [e]⟩
  have ez : ∀ {x}, s x = z ↔ x = z := fun {x} => by rw [← hz, inj, hz]
  have er : ∀ {x}, s x = r ↔ x = r := fun {x} => by rw [← hr, inj, hr]
  have es : ∀ {x y}, s x = y ↔ x = s y := fun {x y} => by rw [← hs y, inj, hs]
  refine ⟨zr, ?_, ?_, ?_, ?_, ?_, ?_, ?_, fun x => k (s x), ?_⟩
  · simp only [hr, ez]; exact root
  · simp only [hz, ez]; exact scr
  · intro n a b c
    simp only [ez] at c ⊢
    exact dead (s n) (mt ez.mp a) (mt er.mp b) c
  · intro n a b c
    simp only [ez, er, hs, ne_eq] at c ⊢
    have := up (s n) (mt ez.mp a) (mt er.mp b) c
    refine ⟨this.1, this.2.imp (fun e => by rw [e, hs]) (fun e => by rw [e, hs])⟩
  · intro p hp e
    simp only [ez, er, hs, ne_eq] at hp e ⊢
    have := small (s p) (hp.imp er.mpr fun ⟨a, b, c⟩ => ⟨mt ez.mp a, mt er.mp b, c⟩) e
    exact ⟨this.1, by rw [this.2, hs]⟩
  · intro p hp e
    simp only [ez, er, hs, ne_eq] at hp e ⊢
    have := large (s p) (hp.imp er.mpr fun ⟨a, b, c⟩ => ⟨mt ez.mp a, mt er.mp b, c⟩) e
    exact ⟨this.1, by rw [this.2, hs]⟩
  · intro p hp e
    simp only [ez, inj, ne_eq] at hp e ⊢
    exact apart (s p) (hp.imp er.mpr fun ⟨a, b, c⟩ => ⟨mt ez.mp a, mt er.mp b, c⟩) e
  · intro n a b c
    simp only [ez, hs, ne_eq] at c ⊢
    exact hk (s n) (mt ez.mp a) (mt er.mp b) c

/-- The dead slot `n` takes the place of `o` under `p`, with both of its children: the two slots exchange their names. -/
theorem Links.replace [DecidableEq ι] (h : Links z r P S L) {o n p : ι} (ho1 : o ≠ z) (ho2 : o ≠ r) (ho3 : P o ≠ z)
    (hp : p = P o) (hn1 : n ≠ z) (hn2 : n ≠ r) (hn3 : P n = z)
    (a1 : P' o = z) (a2 : S' o = z) (a3 : L' o = z) (b1 : P' n = p) (b2 : S' n = S o) (b3 : L' n = L o)
    (c1 : P' p = P p) (c2 : S' p = if S p = o then n else S p) (c3 : L' p = if L p = o then n else L p)
    (e1 : P' (S o) = n) (e2 : S' (S o) = S (S o)) (e3 : L' (S o) = L (S o))
    (f1 : P' (L o) = n) (f2 : S' (L o) = S (L o)) (f3 : L' (L o) = L (L o))
    (d : ∀ k, k ≠ o → k ≠ n → k ≠ p → k ≠ S o → k ≠ L o → P' k = P k ∧ S' k = S k ∧ L' k = L k) :
    Links z r P' S' L' := by
  let s : ι → ι := fun x => if x = o then n else if x = n then o else x
  have hno : n ≠ o := fun e => ho3 (e ▸ hn3)
  have sz : s z = z := by simp [s, Ne.symm ho1, Ne.symm hn1]
  have sr : s r = r := by simp [s, Ne.symm ho2, Ne.symm hn2]
  have ss : ∀ x, s (s x) = x := fun x => by simp only [s]; split_ifs <;> simp_all
  have so : s o = n := by simp [s]
  have sn : s n = o := by simp [s, hno]
  have sx : ∀ x, x ≠ o → x ≠ n → s x = x := fun x a b => by simp [s, a, b]
  have hr := h.rename ss sz sr
  clear_value s
  obtain ⟨zr, root, scr, dead, up, small, large, apart, k, hk⟩ := h
  have upo := up o ho1 ho2 ho3
  have smo := small o (.inr ⟨ho1, ho2, ho3⟩)
  have lgo := large o (.inr ⟨ho1, ho2, ho3⟩)
  have den := dead n hn1 hn2 hn3
  have hko := hk o ho1 ho2 ho3
  have hpp : p = r ∨ (p ≠ z ∧ p ≠ r ∧ P p ≠ z) := hp ▸ upo.1
  have hnp : n ≠ p := by rintro rfl; rcases hpp with e | ⟨_, _, e⟩ <;> contradiction
  have hop : o ≠ p := by rintro e; rw [← hp, ← e] at hko; omega
  -- a link that names `n` comes from nowhere, a link that names `o` comes from its neighbours
  have noN : ∀ x, x ≠ z → P x ≠ n ∧ S x ≠ n ∧ L x ≠ n := by
    intro x hx
    have u := up x hx; have t := small x; have g := large x; have q := dead x hx
    by_cases xr : x = r
    · subst xr; clear up small large apart dead d hk; grind
    · clear up small large apart dead d hk; grind
  have fromO : ∀ x, x ≠ z → (P x = o → x = S o ∨ x = L o) ∧ (S x = o → x = p) ∧ (L x = o → x = p) := by
    intro x hx
    have u := up x hx; have t := small x; have g := large x; have q := dead x hx
    by_cases xr : x = r
    · subst xr; clear up small large apart dead d hk; grind
    · clear up small large apart dead d hk; grind
  have hSn : S o ≠ n := (noN o ho1).2.1
  have hLn : L o ≠ n := (noN o ho1).2.2
  have hSo : S o ≠ o := by intro e; have := (fromO o ho1).2.1 e; exact hop this
  have hLo : L o ≠ o := by intro e; have := (fromO o ho1).2.2 e; exact hop this
  refine hr.congr ?_ ?_ ?_
  · intro x xz
    have := d x; have q := noN x xz; have t := fromO x xz; have w := sx (P x)
    by_cases h0 : x = o
    · subst h0; rw [so, hn3, sz, a1]
    by_cases h1 : x = n
    · subst h1; rw [sn, b1, hp, sx _ (hp ▸ hop.symm) (hp ▸ hnp.symm)]
    rw [sx x h0 h1]
    clear up small large apart dead d hk noN fromO hr
    by_cases hx : x = z <;> by_cases h2 : x = p <;> by_cases h3 : x = S o <;> by_cases h4 : x = L o <;> grind
  · intro x
    have := d x; have w := sx (S x); have q := noN x; have t := fromO x
    by_cases h0 : x = o
    · subst h0; rw [so, den.1, sz, a2]
    by_cases h1 : x = n
    · subst h1; rw [sn, b2, sx _ hSo hSn]
    rw [sx x h0 h1]
    clear up small large apart dead d hk noN fromO hr
    by_cases hx : x = z <;> by_cases h2 : x = p <;> by_cases h3 : x = S o <;> by_cases h4 : x = L o <;> grind
  · intro x
    have := d x; have w := sx (L x); have q := noN x; have t := fromO x
    by_cases h0 : x = o
    · subst h0; rw [so, den.2, sz, a3]
    by_cases h1 : x = n
    · subst h1; rw [sn, b3, sx _ hLo hLn]
    rw [sx x h0 h1]
    clear up small large apart dead d hk noN fromO hr
    by_cases hx : x = z <;> by_cases h2 : x = p <;> by_cases h3 : x = S o <;> by_cases h4 : x = L o <;> grind

/-- The dead slot `n` becomes a leaf, the `largeChild` of the linked slot `t`. -/
theorem Links.leaf_large [DecidableEq ι] (h : Links z r P S L) {t n : ι} (ht : t = r ∨ (t ≠ z ∧ t ≠ r ∧ P t ≠ z))
    (hc : L t = z) (hn1 : n ≠ z) (hn2 : n ≠ r) (hn3 : P n = z)
    (b1 : P' n = t) (b2 : S' n = z) (b3 : L' n = z) (c1 : P' t = P t) (c2 : S' t = S t) (c3 : L' t = n)
    (d : ∀ k, k ≠ n → k ≠ t → P' k = P k ∧ S' k = S k ∧ L' k = L k) : Links z r P' S' L' := by
  obtain ⟨zr, root, scr, dead, up, small, large, apart, k, hk⟩ := h
  have den := dead n hn1 hn2 hn3
  have htn : t ≠ n := by clear dead up small large apart d hk; grind
  have smt := small t ht
  have lgt := large t ht
  have apt := apart t ht
  refine ⟨zr, ?_, ?_, ?_, ?_, ?_, ?_, ?_, fun x => if x = n then k t + 1 else k x, ?_⟩
  · have := d r; clear dead up small large apart d hk; by_cases h0 : r = t <;> grind
  · have := d z; clear dead up small large apart d hk; by_cases h0 : z = t <;> grind
  · intro m; have := d m; have := dead m; clear dead up small large apart d hk; by_cases h0 : m = t <;> by_cases h1 : m = n <;> grind
  · intro m m1 m2 m3; have := d m; have := up m m1 m2; have := d (P m); clear dead up small large apart d hk; by_cases h0 : m = t <;> by_cases h1 : m = n <;> by_cases i0 : P m = t <;> by_cases i1 : P m = n <;> grind
  · intro m; have := d m; have := small m; have := d (S m); clear dead up small large apart d hk; by_cases h0 : m = t <;> by_cases h1 : m = n <;> by_cases i0 : S m = t <;> by_cases i1 : S m = n <;> grind
  · intro m; have := d m; have := large m; have := d (L m); clear dead up small large apart d hk; by_cases h0 : m = t <;> by_cases h1 : m = n <;> by_cases i0 : L m = t <;> by_cases i1 : L m = n <;> grind
  · intro m; have := d m; have := apart m; have := dead m; clear dead up small large apart d hk; by_cases h0 : m = t <;> by_cases h1 : m = n <;> grind
  · intro m; have := d m; have := hk m; have := up m; clear dead up small large apart d hk; by_cases h0 : m = t <;> by_cases h1 : m = n <;> grind

/-- The dead slot `n` becomes a leaf, the `smallChild` of the linked slot `t`. -/
theorem Links.leaf_small [DecidableEq ι] (h : Links z r P S L) {t n : ι} (ht : t = r ∨ (t ≠ z ∧ t ≠ r ∧ P t ≠ z)) (ht' : t ≠ r)
    (hc : S t = z) (hn1 : n ≠ z) (hn2 : n ≠ r) (hn3 : P n = z)
    (b1 : P' n = t) (b2 : S' n = z) (b3 : L' n = z) (c1 : P' t = P t) (c2 : L' t = L t) (c3 : S' t = n)
    (d : ∀ k, k ≠ n → k ≠ t → P' k = P k ∧ S' k = S k ∧ L' k = L k) : Links z r P' S' L' := by
  obtain ⟨zr, root, scr, dead, up, small, large, apart, k, hk⟩ := h
  have den := dead n hn1 hn2 hn3
  have htn : t ≠ n := by clear dead up small large apart d hk; grind
  have smt := small t ht
  have lgt := large t ht
  have apt := apart t ht
  refine ⟨zr, ?_, ?_, ?_, ?_, ?_, ?_, ?_, fun x => if x = n then k t + 1 else k x, ?_⟩
  · have := d r; clear dead up small large apart d hk; by_cases h0 : r = t <;> grind
  · have := d z; clear dead up small large apart d hk; by_cases h0 : z = t <;> grind
  · intro m; have := d m; have := dead m; clear dead up small large apart d hk; by_cases h0 : m = t <;> by_cases h1 : m = n <;> grind
  · intro m m1 m2 m3; have := d m; have := up m m1 m2; have := d (P m); clear dead up small large apart d hk; by_cases h0 : m = t <;> by_cases h1 : m = n <;> by_cases i0 : P m = t <;> by_cases i1 : P m = n <;> grind
  · intro m; have := d m; have := small m; have := d (S m); clear dead up small large apart d hk; by_cases h0 : m = t <;> by_cases h1 : m = n <;> by_cases i0 : S m = t <;> by_cases i1 : S m = n <;> grind
  · intro m; have := d m; have := large m; have := d (L m); clear dead up small large apart d hk; by_cases h0 : m = t <;> by_cases h1 : m = n <;> by_cases i0 : L m = t <;> by_cases i1 : L m = n <;> grind
  · intro m; have := d m; have := apart m; have := dead m; clear dead up small large apart d hk; by_cases h0 : m = t <;> by_cases h1 : m = n <;> grind
  · intro m; have := d m; have := hk m; have := up m; clear dead up small large apart d hk; by_cases h0 : m = t <;> by_cases h1 : m = n <;> grind

end Links

/-- `TreeShape` is `Links` of the three fields. -/
theorem treeShape_iff_links {f : NodeIx → NodeRec} : TreeShape f ↔
    Links 0 1024 (fun n => (f n).parent) (fun n => (f n).smallChild) (fun n => (f n).largeChild) := by
  have hz : (0 : NodeIx) ≠ 1024 := by decide
  constructor
  · intro h
    refine ⟨hz, h.root, h.scratch, fun n a b c => ?_, fun n a b c => h.up n ⟨a, b, c⟩, fun p hp e => ?_, fun p hp e => ?_,
      h.apart, ?_⟩
    · have := h.dead n a b c
      exact ⟨by simp [this, NodeRec.zero], by simp [this, NodeRec.zero]⟩
    · obtain ⟨⟨_, h2, _⟩, h4⟩ := h.small p hp e
      exact ⟨h2, h4⟩
    · obtain ⟨⟨_, h2, _⟩, h4⟩ := h.large p hp e
      exact ⟨h2, h4⟩
    · obtain ⟨k, hk⟩ := h.rank
      exact ⟨k, fun n a b c => hk n ⟨a, b, c⟩⟩
  · intro h
    have pz : ∀ p : NodeIx, linkedIn f p → p ≠ 0 := fun p hp e => by
      rcases hp with rfl | ⟨h1, _⟩
      · exact absurd e (by decide)
      · exact h1 e
    refine ⟨h.root, h.scr, fun n a b c => ?_, fun n hn => h.up n hn.1 hn.2.1 hn.2.2, fun p hp e => ?_, fun p hp e => ?_,
      h.apart, ?_⟩
    · obtain ⟨h1, h2⟩ := h.dead n a b c
      cases hf : f n
      simp_all [NodeRec.zero]
    · obtain ⟨h2, h4⟩ := h.small p hp e
      exact ⟨⟨e, h2, by rw [h4]; exact pz p hp⟩, h4⟩
    · obtain ⟨h2, h4⟩ := h.large p hp e
      exact ⟨⟨e, h2, by rw [h4]; exact pz p hp⟩, h4⟩
    · obtain ⟨k, hk⟩ := h.ranked
      exact ⟨k, fun n hn => hk n hn.1 hn.2.1 hn.2.2⟩

end Sys2Proof.Machine
end

