-- ==== Sys2Proof/Laws/Tree.lean ====
section
/-! SUPPORT. What the tree operations do to `Node`, point by point, and that they keep `TreeShape`. A caller cites these and
never unfolds an operation. -/

namespace Sys2Proof.Machine

/-! ## ContractNode -/

/-- `Node` after `ContractNode(old, new)` that finds `old` under its parent (R151). -/
def spliced (f : NodeIx → NodeRec) (old new : NodeIx) (n : NodeIx) : NodeRec :=
  let par := (f old).parent
  if n = old then NodeRec.zero
  else { parent := if n = new then par else (f n).parent
         smallChild := if n = par ∧ (f par).largeChild ≠ old then new else (f n).smallChild
         largeChild := if n = par ∧ (f par).largeChild = old then new else (f n).largeChild }

theorem NodeRec.eq_of {a b : NodeRec} (h1 : a.parent = b.parent) (h2 : a.smallChild = b.smallChild)
    (h3 : a.largeChild = b.largeChild) : a = b := by
  cases a; cases b; simp_all

/-- Only `Node` changed. -/
def NodeOnly (s t : State) : Prop := ∃ m, t = { s with node := m }

theorem NodeOnly.frame {s t : State} (h : NodeOnly s t) : t = { s with node := t.node } := by
  obtain ⟨m, rfl⟩ := h; rfl
theorem NodeOnly.trans {s t u : State} (h1 : NodeOnly s t) (h2 : NodeOnly t u) : NodeOnly s u := by
  obtain ⟨m, rfl⟩ := h1
  obtain ⟨m', rfl⟩ := h2
  exact ⟨m', rfl⟩
theorem putNode_nodeOnly (s : State) (n : NodeIx) (r : NodeRec) : NodeOnly s (s.putNode n r) := ⟨_, rfl⟩
theorem putParent_nodeOnly (s : State) (n v : NodeIx) : NodeOnly s (s.putParent n v) := ⟨_, rfl⟩
theorem putSmall_nodeOnly (s : State) (n v : NodeIx) : NodeOnly s (s.putSmall n v) := ⟨_, rfl⟩
theorem putLarge_nodeOnly (s : State) (n v : NodeIx) : NodeOnly s (s.putLarge n v) := ⟨_, rfl⟩
theorem takeOver_nodeOnly (s : State) (old new : NodeIx) : NodeOnly s (s.takeOver old new) :=
  (((putNode_nodeOnly _ _ _).trans (putParent_nodeOnly _ _ _)).trans (putParent_nodeOnly _ _ _)).trans (putNode_nodeOnly _ _ _)

theorem putNode_wf {s : State} (n : NodeIx) (r : NodeRec) (h : NodeMemory.wf s.node = true) :
    NodeMemory.wf (s.putNode n r).node = true := NodeMemory.wf_write n r h
theorem putParent_wf {s : State} (n v : NodeIx) (h : NodeMemory.wf s.node = true) :
    NodeMemory.wf (s.putParent n v).node = true := putNode_wf n _ h
theorem putSmall_wf {s : State} (n v : NodeIx) (h : NodeMemory.wf s.node = true) :
    NodeMemory.wf (s.putSmall n v).node = true := putNode_wf n _ h
theorem putLarge_wf {s : State} (n v : NodeIx) (h : NodeMemory.wf s.node = true) :
    NodeMemory.wf (s.putLarge n v).node = true := putNode_wf n _ h
theorem takeOver_wf {s : State} (old new : NodeIx) (h : NodeMemory.wf s.node = true) :
    NodeMemory.wf (s.takeOver old new).node = true :=
  putNode_wf _ _ (putParent_wf _ _ (putParent_wf _ _ (putNode_wf _ _ h)))

theorem nodeAt_putNode (s : State) (n : NodeIx) (r : NodeRec) : (s.putNode n r).nodeAt = Function.update s.nodeAt n r := by
  funext k; rw [State.nodeAt_putNode]; simp [Function.update_apply]
theorem nodeAt_putParent (s : State) (n v : NodeIx) :
    (s.putParent n v).nodeAt = Function.update s.nodeAt n { s.nodeAt n with parent := v } := nodeAt_putNode s n _
theorem nodeAt_putSmall (s : State) (n v : NodeIx) :
    (s.putSmall n v).nodeAt = Function.update s.nodeAt n { s.nodeAt n with smallChild := v } := nodeAt_putNode s n _
theorem nodeAt_putLarge (s : State) (n v : NodeIx) :
    (s.putLarge n v).nodeAt = Function.update s.nodeAt n { s.nodeAt n with largeChild := v } := nodeAt_putNode s n _

/-- Step 1 of ContractNode changes no child link. -/
theorem contractNode_step1 (s : State) (new par : NodeIx) :
    ((State.putParent { s with par := par } new par).nodeAt par).largeChild = (s.nodeAt par).largeChild ∧
    ((State.putParent { s with par := par } new par).nodeAt par).smallChild = (s.nodeAt par).smallChild := by
  have e1 : (State.putParent { s with par := par } new par).nodeAt =
      Function.update s.nodeAt new { s.nodeAt new with parent := par } := nodeAt_putParent _ _ _
  rw [e1, Function.update_apply]
  split <;> simp_all

theorem contractNode_ret {s : State} {old new : NodeIx}
    (h : (s.nodeAt (s.nodeAt old).parent).largeChild = old ∨ (s.nodeAt (s.nodeAt old).parent).smallChild = old) :
    ∃ t, contractNode old new s = .ret () t ∧ t = { s with node := t.node, par := (s.nodeAt old).parent } ∧
      (∀ n, t.nodeAt n = spliced s.nodeAt old new n) ∧
      (NodeMemory.wf s.node = true → NodeMemory.wf t.node = true) := by
  generalize hp : (s.nodeAt old).parent = par at h
  let s1 : State := { s with par := par }.putParent new par
  have e1 : s1.nodeAt = Function.update s.nodeAt new { s.nodeAt new with parent := par } := nodeAt_putParent _ _ _
  have el : (s1.nodeAt par).largeChild = (s.nodeAt par).largeChild := by
    rw [e1, Function.update_apply]; split <;> simp_all
  have es : (s1.nodeAt par).smallChild = (s.nodeAt par).smallChild := by
    rw [e1, Function.update_apply]; split <;> simp_all
  have hx : contractNode old new s = if (s1.nodeAt par).largeChild = old then .ret () ((s1.putLarge par new).putNode old NodeRec.zero)
      else if (s1.nodeAt par).smallChild = old then .ret () ((s1.putSmall par new).putNode old NodeRec.zero)
      else raise .invariantViolation s1 := by subst hp; rfl
  have w1 : NodeMemory.wf s.node = true → NodeMemory.wf s1.node = true := putParent_wf (s := { s with par := par }) _ _
  have fr : NodeOnly { s with par := par } s1 := putParent_nodeOnly _ _ _
  clear_value s1
  rw [el, es] at hx
  by_cases hl : (s.nodeAt par).largeChild = old
  · refine ⟨_, by rw [hx, if_pos hl],
      ((fr.trans (putLarge_nodeOnly _ _ _)).trans (putNode_nodeOnly _ _ _)).frame, fun n => ?_,
      fun hw => putNode_wf _ _ (putLarge_wf _ _ (w1 hw))⟩
    simp only [nodeAt_putNode, nodeAt_putLarge, e1, Function.update_apply, spliced, hp]
    clear hx fr w1 el es e1 h
    generalize s.nodeAt = f at *
    by_cases h1 : n = old
    · simp [h1]
    · refine NodeRec.eq_of ?_ ?_ ?_ <;> by_cases h2 : n = par <;> by_cases h3 : n = new <;> by_cases h4 : par = new <;> grind
  · have hs : (s.nodeAt par).smallChild = old := h.resolve_left hl
    refine ⟨_, by rw [hx, if_neg hl, if_pos hs],
      ((fr.trans (putSmall_nodeOnly _ _ _)).trans (putNode_nodeOnly _ _ _)).frame, fun n => ?_,
      fun hw => putNode_wf _ _ (putSmall_wf _ _ (w1 hw))⟩
    simp only [nodeAt_putNode, nodeAt_putSmall, e1, Function.update_apply, spliced, hp]
    clear hx fr w1 el es e1 h
    generalize s.nodeAt = f at *
    by_cases h1 : n = old
    · simp [h1]
    · refine NodeRec.eq_of ?_ ?_ ?_ <;> by_cases h2 : n = par <;> by_cases h3 : n = new <;> by_cases h4 : par = new <;> grind

/-- The check of ContractNode: the write of step 1 is kept. -/
theorem contractNode_raises {s : State} {old new : NodeIx}
    (hl : (s.nodeAt (s.nodeAt old).parent).largeChild ≠ old) (hs : (s.nodeAt (s.nodeAt old).parent).smallChild ≠ old) :
    contractNode old new s = .stop (({ s with par := (s.nodeAt old).parent }.putParent new (s.nodeAt old).parent).enterFault
      .invariantViolation) := by
  generalize hp : (s.nodeAt old).parent = par at hl hs
  have e1 := contractNode_step1 s new par
  have hx : contractNode old new s =
      if ((State.putParent { s with par := par } new par).nodeAt par).largeChild = old then
        .ret () (((State.putParent { s with par := par } new par).putLarge par new).putNode old NodeRec.zero)
      else if ((State.putParent { s with par := par } new par).nodeAt par).smallChild = old then
        .ret () (((State.putParent { s with par := par } new par).putSmall par new).putNode old NodeRec.zero)
      else raise .invariantViolation (State.putParent { s with par := par } new par) := by subst hp; rfl
  rw [hx, e1.1, e1.2, if_neg hl, if_neg hs, raise]

theorem liveIn.ne_zero {f : NodeIx → NodeRec} {n : NodeIx} (h : liveIn f n) : n ≠ 0 := h.1
theorem liveIn.ne_root {f : NodeIx → NodeRec} {n : NodeIx} (h : liveIn f n) : n ≠ 1024 := h.2.1

/-- The parent of a live slot is not the slot itself. -/
theorem TreeShape.parent_ne {f : NodeIx → NodeRec} (h : TreeShape f) {n : NodeIx} (hn : liveIn f n) : (f n).parent ≠ n := by
  obtain ⟨k, hk⟩ := h.rank
  intro e
  have := hk n hn
  rw [e] at this
  omega

/-- Splicing out a live slot with at most one child leaves a tree with exactly that slot gone. -/
theorem TreeShape.splice {f : NodeIx → NodeRec} (h : TreeShape f) {old new : NodeIx} (ho : liveIn f old)
    (hn : ((f old).smallChild = 0 ∧ new = (f old).largeChild) ∨ ((f old).largeChild = 0 ∧ new = (f old).smallChild)) :
    TreeShape (spliced f old new) := by
  have hpo := h.parent_ne ho
  have hup := h.up old ho
  have hnew : new ≠ old ∧ new ≠ (f old).parent := by
    have hs := h.small old (.inr ho)
    have hl := h.large old (.inr ho)
    have key : new = 0 ∨ (liveIn f new ∧ (f new).parent = old) := by grind
    have hp0 : (f old).parent ≠ 0 := ho.2.2
    rcases key with rfl | ⟨h1, h2⟩
    · exact ⟨ho.1.symm, hp0.symm⟩
    · refine ⟨?_, ?_⟩
      · rintro rfl; exact hpo h2
      · intro e
        obtain ⟨k, hk⟩ := h.rank
        have a := hk old ho
        have b := hk new h1
        rw [h2] at b
        rw [← e] at a
        omega
  have key : ∀ k, k ≠ old → k ≠ new → k ≠ (f old).parent → spliced f old new k = f k := by
    intro k h1 h2 h3
    simp [spliced, h1, h2, h3]
  rw [treeShape_iff_links] at h ⊢
  by_cases hl : (f (f old).parent).largeChild = old
  · refine Links.splice_large h (o := old) (n := new) (p := (f old).parent) ho.1 ho.2.1 ho.2.2 rfl hn hl ?_ ?_ ?_ ?_ ?_ ?_ ?_ ?_ ?_ ?_
    all_goals simp_all [spliced, NodeRec.zero, Ne.symm hpo, Ne.symm hnew.2]
  · have hs : (f (f old).parent).smallChild = old := by tauto
    refine Links.splice_small h (o := old) (n := new) (p := (f old).parent) ho.1 ho.2.1 ho.2.2 rfl hn hs ?_ ?_ ?_ ?_ ?_ ?_ ?_ ?_ ?_ ?_
    all_goals simp_all [spliced, NodeRec.zero, Ne.symm hpo, Ne.symm hnew.2]

theorem spliced_live {f : NodeIx → NodeRec} (h : TreeShape f) {old new : NodeIx} (ho : liveIn f old)
    (hn : ((f old).smallChild = 0 ∧ new = (f old).largeChild) ∨ ((f old).largeChild = 0 ∧ new = (f old).smallChild))
    (n : NodeIx) : liveIn (spliced f old new) n ↔ liveIn f n ∧ n ≠ old := by
  have hs := h.small old (.inr ho)
  have hl := h.large old (.inr ho)
  have key : new = 0 ∨ (liveIn f new ∧ (f new).parent = old) := by grind
  unfold liveIn at *
  by_cases h1 : n = old
  · simp [spliced, h1, NodeRec.zero]
  · by_cases h2 : n = new
    · subst h2
      simp only [spliced, h1, if_true, if_false]
      rcases key with rfl | ⟨h3, h4⟩
      · simp
      · simp [h3, ho.2.2, h1]
    · simp [spliced, h1, h2]

/-! ## ReplaceNode -/

/-- `Node` after `ReplaceNode(old, new)` in a tree (R152). -/
def replaced (f : NodeIx → NodeRec) (old new : NodeIx) (n : NodeIx) : NodeRec :=
  let par := (f old).parent
  if n = old then NodeRec.zero
  else if n = new then f old
  else { parent := if n = (f old).smallChild ∨ n = (f old).largeChild then new else (f n).parent
         smallChild := if n = par ∧ (f par).smallChild = old then new else (f n).smallChild
         largeChild := if n = par ∧ (f par).largeChild = old then new else (f n).largeChild }

/-- A slot that is not in the tree is named by no link of the tree. -/
theorem TreeShape.unlinked {f : NodeIx → NodeRec} (h : TreeShape f) {n p : NodeIx} (hn : n ≠ 0) (hr : n ≠ 1024)
    (hd : (f n).parent = 0) (hp : p ≠ 0) : (f p).smallChild ≠ n ∧ (f p).largeChild ≠ n ∧ (f p).parent ≠ n := by
  have hs := h.small p
  have hl := h.large p
  have hu := h.up p
  have hz := h.dead p hp
  have hroot := h.root
  unfold linkedIn liveIn at *
  by_cases hpr : p = 1024
  · subst hpr
    refine ⟨?_, ?_, ?_⟩ <;> intro e <;> simp_all
  · by_cases hpl : (f p).parent = 0
    · have := hz hpr hpl
      simp_all [NodeRec.zero, Ne.symm hn]
    · refine ⟨?_, ?_, ?_⟩ <;> intro e <;> simp_all

/-- `takeOver` point by point, for two slots neither of which the first names as a child. -/
theorem nodeAt_takeOver {u : State} {old new : NodeIx} (hno : new ≠ old)
    (h1 : (u.nodeAt old).smallChild ≠ old) (h2 : (u.nodeAt old).largeChild ≠ old)
    (h3 : (u.nodeAt old).smallChild ≠ new) (h4 : (u.nodeAt old).largeChild ≠ new) (n : NodeIx) :
    (u.takeOver old new).nodeAt n = if n = old then NodeRec.zero else if n = new then u.nodeAt old
      else if n = (u.nodeAt old).smallChild ∨ n = (u.nodeAt old).largeChild then { u.nodeAt n with parent := new }
      else u.nodeAt n := by
  unfold State.takeOver
  simp only [nodeAt_putNode, nodeAt_putParent, Function.update_apply]
  generalize u.nodeAt = f at *
  rcases hf : f old with ⟨p, a, b⟩
  simp only [hf] at h1 h2 h3 h4
  by_cases e1 : n = old
  · simp [e1]
  · refine NodeRec.eq_of ?_ ?_ ?_ <;> by_cases e2 : n = new <;> by_cases e3 : n = b <;> by_cases e4 : n = a <;>
      by_cases e5 : b = a <;> grind

theorem replaceNode_ret {s : State} {old new : NodeIx} (h : TreeShape s.nodeAt) (ho : liveIn s.nodeAt old) (hn : new ≠ 0)
    (hr : new ≠ 1024) (hd : (s.nodeAt new).parent = 0) :
    ∃ t, replaceNode old new s = .ret () t ∧ t = { s with node := t.node, par := (s.nodeAt old).parent } ∧
      (∀ n, t.nodeAt n = replaced s.nodeAt old new n) ∧
      (NodeMemory.wf s.node = true → NodeMemory.wf t.node = true) := by
  have hpo := h.parent_ne ho
  have hup := h.up old ho
  have hun := h.unlinked hn hr hd ho.1
  have hno : new ≠ old := by rintro rfl; exact ho.2.2 hd
  have hpn : (s.nodeAt old).parent ≠ new := hun.2.2
  have hso : (s.nodeAt old).smallChild ≠ old := by
    intro e
    have := (h.small old (.inr ho) (by rw [e]; exact ho.1)).2
    rw [e] at this
    exact hpo this
  have hlo : (s.nodeAt old).largeChild ≠ old := by
    intro e
    have := (h.large old (.inr ho) (by rw [e]; exact ho.1)).2
    rw [e] at this
    exact hpo this
  have hap := h.apart (s.nodeAt old).parent hup.1
  generalize hp : (s.nodeAt old).parent = par at hup hpo hpn hap
  have hpo' : old ≠ par := Ne.symm hpo
  have hon : old ≠ new := Ne.symm hno
  have hx : replaceNode old new s =
      if (s.nodeAt par).smallChild = old then .ret () (({ s with par := par }.putSmall par new).takeOver old new)
      else if (s.nodeAt par).largeChild = old then .ret () (({ s with par := par }.putLarge par new).takeOver old new)
      else raise .invariantViolation { s with par := par } := by subst hp; rfl
  by_cases hs : (s.nodeAt par).smallChild = old
  · have hl : (s.nodeAt par).largeChild ≠ old := by
      intro e; exact ho.1 (by rw [← hs]; exact hap (by rw [hs, e]))
    refine ⟨_, by rw [hx, if_pos hs], 
      ((putSmall_nodeOnly { s with par := par } par new).trans (takeOver_nodeOnly _ old new)).frame, fun n => ?_,
      fun hw => takeOver_wf _ _ (putSmall_wf (s := { s with par := par }) _ _ hw)⟩
    have hu : (State.putSmall { s with par := par } par new).nodeAt = Function.update s.nodeAt par { s.nodeAt par with smallChild := new } :=
      nodeAt_putSmall _ _ _
    have ho' : (State.putSmall { s with par := par } par new).nodeAt old = s.nodeAt old := by
      rw [hu, Function.update_apply, if_neg hpo']
    rw [nodeAt_takeOver hno (by rw [ho']; exact hso) (by rw [ho']; exact hlo) (by rw [ho']; exact hun.1) (by rw [ho']; exact hun.2.1),
      ho', hu]
    simp only [replaced, hp, Function.update_apply]
    clear hu ho' hx hup hun h hap
    generalize s.nodeAt = f at *
    by_cases h1 : n = old
    · simp [h1]
    by_cases h2 : n = new
    · simp [h2, hno]
    refine NodeRec.eq_of ?_ ?_ ?_ <;> by_cases h3 : n = par <;> by_cases h4 : n = (f old).smallChild <;>
      by_cases h5 : n = (f old).largeChild <;> grind
  · have hl : (s.nodeAt par).largeChild = old := hup.2.resolve_left hs
    refine ⟨_, by rw [hx, if_neg hs, if_pos hl], 
      ((putLarge_nodeOnly { s with par := par } par new).trans (takeOver_nodeOnly _ old new)).frame, fun n => ?_,
      fun hw => takeOver_wf _ _ (putLarge_wf (s := { s with par := par }) _ _ hw)⟩
    have hu : (State.putLarge { s with par := par } par new).nodeAt = Function.update s.nodeAt par { s.nodeAt par with largeChild := new } :=
      nodeAt_putLarge _ _ _
    have ho' : (State.putLarge { s with par := par } par new).nodeAt old = s.nodeAt old := by
      rw [hu, Function.update_apply, if_neg hpo']
    rw [nodeAt_takeOver hno (by rw [ho']; exact hso) (by rw [ho']; exact hlo) (by rw [ho']; exact hun.1) (by rw [ho']; exact hun.2.1),
      ho', hu]
    simp only [replaced, hp, Function.update_apply]
    clear hu ho' hx hup hun h hap
    generalize s.nodeAt = f at *
    by_cases h1 : n = old
    · simp [h1]
    by_cases h2 : n = new
    · simp [h2, hno]
    refine NodeRec.eq_of ?_ ?_ ?_ <;> by_cases h3 : n = par <;> by_cases h4 : n = (f old).smallChild <;>
      by_cases h5 : n = (f old).largeChild <;> grind

/-- The check of ReplaceNode: nothing but the scratch register is written before it. -/
theorem replaceNode_raises {s : State} {old new : NodeIx}
    (hs : (s.nodeAt (s.nodeAt old).parent).smallChild ≠ old) (hl : (s.nodeAt (s.nodeAt old).parent).largeChild ≠ old) :
    replaceNode old new s = .stop (State.enterFault { s with par := (s.nodeAt old).parent } .invariantViolation) := by
  generalize hp : (s.nodeAt old).parent = par at hl hs
  have hx : replaceNode old new s =
      if (s.nodeAt par).smallChild = old then .ret () (({ s with par := par }.putSmall par new).takeOver old new)
      else if (s.nodeAt par).largeChild = old then .ret () (({ s with par := par }.putLarge par new).takeOver old new)
      else raise .invariantViolation { s with par := par } := by subst hp; rfl
  rw [hx, if_neg hs, if_neg hl, raise]

/-- Putting a slot that is not in the tree in the place of a live one leaves a tree. -/
theorem TreeShape.replace {f : NodeIx → NodeRec} (h : TreeShape f) {old new : NodeIx} (ho : liveIn f old) (hn : new ≠ 0)
    (hr : new ≠ 1024) (hd : (f new).parent = 0) : TreeShape (replaced f old new) := by
  have hpo := h.parent_ne ho
  have hup := h.up old ho
  have hun := h.unlinked hn hr hd ho.1
  have hno : new ≠ old := by rintro rfl; exact ho.2.2 hd
  have hs0 := h.small old (.inr ho)
  have hl0 := h.large old (.inr ho)
  have hso : (f old).smallChild ≠ old := fun e => hpo (by have := (hs0 (by rw [e]; exact ho.1)).2; rwa [e] at this)
  have hlo : (f old).largeChild ≠ old := fun e => hpo (by have := (hl0 (by rw [e]; exact ho.1)).2; rwa [e] at this)
  have hps : (f old).parent ≠ (f old).smallChild ∧ (f old).parent ≠ (f old).largeChild := by
    obtain ⟨k, hk⟩ := h.rank
    have a := hk old ho
    refine ⟨fun e => ?_, fun e => ?_⟩
    · have b := hs0 (by rw [← e]; exact ho.2.2)
      have c := hk _ b.1
      rw [b.2, ← e] at c; omega
    · have b := hl0 (by rw [← e]; exact ho.2.2)
      have c := hk _ b.1
      rw [b.2, ← e] at c; omega
  have hsc := h.scratch
  have hdn := h.dead new hn hr hd
  have ho1 := ho.1
  have ho3 := ho.2.2
  rw [treeShape_iff_links] at h ⊢
  refine Links.replace h (o := old) (n := new) (p := (f old).parent) ho.1 ho.2.1 ho.2.2 rfl hn hr hd ?_ ?_ ?_ ?_ ?_ ?_ ?_ ?_ ?_ ?_ ?_ ?_
    ?_ ?_ ?_ ?_
  all_goals clear h
  all_goals generalize hp : (f old).parent = par at *
  all_goals generalize hsm : (f old).smallChild = a at *
  all_goals generalize hlg : (f old).largeChild = b at *
  all_goals clear hup hs0 hl0
  all_goals simp only [replaced, hp, hsm, hlg, NodeRec.zero]
  all_goals grind

theorem replaced_live {f : NodeIx → NodeRec} (h : TreeShape f) {old new : NodeIx} (ho : liveIn f old) (hn : new ≠ 0)
    (hr : new ≠ 1024) (hd : (f new).parent = 0) (n : NodeIx) :
    liveIn (replaced f old new) n ↔ n = new ∨ (liveIn f n ∧ n ≠ old) := by
  have hno : new ≠ old := by rintro rfl; exact ho.2.2 hd
  have hs0 := h.small old (.inr ho)
  have hl0 := h.large old (.inr ho)
  have ho3 := ho.2.2
  unfold liveIn at *
  by_cases h1 : n = old
  · subst h1; simp [replaced, NodeRec.zero, Ne.symm hno]
  by_cases h2 : n = new
  · subst h2; simp [replaced, h1, hn, hr, ho3]
  by_cases h3 : n = (f old).smallChild ∨ n = (f old).largeChild
  · simp only [replaced, h1, h2, h3, if_true, if_false]
    grind
  · simp [replaced, h1, h2, h3]

end Sys2Proof.Machine
end

