-- ==== Sys2Proof/Laws/Walk.lean ====
section
/-! SUPPORT. Walks along links: a walk that ends visits no slot twice, so it is no longer than the number of slots; FindNextNode's
walk ends in a tree, and DeleteNode's result follows. -/

namespace Sys2Proof.Machine

section Walks

variable {ι : Type} {g : ι → ι} {stop : ι → Prop}

/-- The slots a walk along `g` visits until it stops. -/
inductive Path (g : ι → ι) (stop : ι → Prop) : ι → List ι → Prop where
  | last (t : ι) : stop t → Path g stop t [t]
  | step (t : ι) (p : List ι) : ¬ stop t → Path g stop (g t) p → Path g stop t (t :: p)

theorem Path.unique {t : ι} {p q : List ι} (hp : Path g stop t p) (hq : Path g stop t q) : p = q := by
  induction hp generalizing q with
  | last t h =>
    cases hq with
    | last => rfl
    | step _ _ h' => exact absurd h h'
  | step t p h _ ih =>
    cases hq with
    | last _ h' => exact absurd h' h
    | step _ q _ hq => rw [ih hq]

/-- Every slot of a walk begins the rest of it. -/
theorem Path.suffix {t : ι} {p : List ι} (hp : Path g stop t p) {x : ι} (hx : x ∈ p) :
    ∃ q, Path g stop x q ∧ q.length ≤ p.length := by
  induction hp with
  | last t h =>
    rw [List.mem_singleton] at hx
    subst hx
    exact ⟨_, Path.last x h, le_refl _⟩
  | step t p h hp ih =>
    rcases List.mem_cons.mp hx with rfl | hx
    · exact ⟨_, Path.step x p h hp, le_refl _⟩
    · obtain ⟨q, hq, hl⟩ := ih hx
      exact ⟨q, hq, by simp; omega⟩

theorem Path.nodup {t : ι} {p : List ι} (hp : Path g stop t p) : p.Nodup := by
  induction hp with
  | last t h => simp
  | step t p h hp ih =>
    refine List.nodup_cons.mpr ⟨fun hx => ?_, ih⟩
    obtain ⟨q, hq, hl⟩ := hp.suffix hx
    have := (Path.step t p h hp).unique hq
    rw [← this] at hl
    simp at hl

theorem Path.length_le [Fintype ι] {t : ι} {p : List ι} (hp : Path g stop t p) : p.length ≤ Fintype.card ι :=
  hp.nodup.length_le_card

theorem Path.ne_nil {t : ι} {p : List ι} (hp : Path g stop t p) : p ≠ [] := by
  cases hp <;> simp

/-- A walk that goes up in a bounded rank ends. -/
theorem Path.exists_of_rank {I : ι → Prop} (hI : ∀ t, I t → ¬ stop t → I (g t)) (k : ι → Nat) (B : Nat) (hB : ∀ t, I t → k t ≤ B)
    (hk : ∀ t, I t → ¬ stop t → k t < k (g t)) (t : ι) (ht : I t) : ∃ p, Path g stop t p ∧ ∀ x ∈ p, I x := by
  generalize hm : B - k t = m
  induction m using Nat.strong_induction_on generalizing t with
  | _ m ih =>
    by_cases hs : stop t
    · exact ⟨[t], Path.last t hs, by simpa using ht⟩
    · have h1 := hB (g t) (hI t ht hs)
      have h2 := hk t ht hs
      obtain ⟨p, hp, hx⟩ := ih (B - k (g t)) (by omega) (g t) (hI t ht hs) rfl
      refine ⟨t :: p, Path.step t p hs hp, ?_⟩
      intro x hx'
      rcases List.mem_cons.mp hx' with rfl | h
      · exact ht
      · exact hx x h

end Walks

/-- A rank of the tree that stays below a bound. -/
theorem TreeShape.bounded_rank {f : NodeIx → NodeRec} (h : TreeShape f) :
    ∃ (k : NodeIx → Nat) (B : Nat), (∀ n, k n ≤ B) ∧ ∀ n, liveIn f n → k (f n).parent < k n := by
  obtain ⟨k, hk⟩ := h.rank
  exact ⟨k, Finset.univ.sup k, fun n => Finset.le_sup (Finset.mem_univ n), hk⟩

/-! ## FindNextNode -/

theorem LargeWalk.path {f : NodeIx → NodeRec} {n r : NodeIx} (h : LargeWalk f n r) :
    ∃ p, Path (fun x => (f x).largeChild) (fun x => (f x).largeChild = 0) n p ∧ p.getLast? = some r ∧ (f r).largeChild = 0 := by
  induction h with
  | here n h => exact ⟨[n], Path.last n h, rfl, h⟩
  | step n r h _ ih =>
    obtain ⟨p, hp, hl, hr⟩ := ih
    refine ⟨n :: p, Path.step n p h hp, ?_, hr⟩
    rw [List.getLast?_cons, hl]
    rfl

theorem walkLarge_path {m : NodeMemory} {n r : NodeIx} {p : List NodeIx}
    (hp : Path (fun x => (NodeMemory.read m x).largeChild) (fun x => (NodeMemory.read m x).largeChild = 0) n p)
    (hr : p.getLast? = some r) (fuel : Nat) (hf : p.length ≤ fuel) : walkLarge m fuel n = some r := by
  induction hp generalizing fuel with
  | last t h =>
    obtain ⟨k, rfl⟩ := Nat.exists_eq_succ_of_ne_zero (show fuel ≠ 0 by simp at hf; omega)
    have h' : (NodeMemory.read m t).largeChild = Config.unused := h
    simp only [List.getLast?_singleton, Option.some.injEq] at hr
    subst hr
    simp only [walkLarge, h', if_true]
  | step t p h hp ih =>
    obtain ⟨k, rfl⟩ := Nat.exists_eq_succ_of_ne_zero (show fuel ≠ 0 by simp at hf; omega)
    have h' : (NodeMemory.read m t).largeChild ≠ Config.unused := h
    rw [List.getLast?_cons] at hr
    have hl : p.getLast? = some r := by
      cases hq : p.getLast? with
      | none => exact absurd (List.getLast?_eq_none_iff.mp hq) hp.ne_nil
      | some x => rw [hq] at hr; simpa using hr
    simp only [walkLarge, h', if_false]
    exact ih hl k (by simp at hf; omega)

/-- FindNextNode, where its walk ends (R153). -/
theorem findNextNode_ret {s : State} {n r : NodeIx} (hn : (s.nodeAt n).smallChild ≠ 0)
    (h : LargeWalk s.nodeAt (s.nodeAt n).smallChild r) : findNextNode n s = .ret r { s with nxt := r } := by
  obtain ⟨p, hp, hl, -⟩ := h.path
  have hn' : (s.nodeAt n).smallChild ≠ Config.unused := hn
  have : walkLarge s.node 1025 (s.nodeAt n).smallChild = some r :=
    walkLarge_path hp hl 1025 (by have := hp.length_le; simpa using this)
  unfold findNextNode
  rw [if_neg hn', this]

/-- In a tree the walk ends, at a live slot of the subtree. -/
theorem TreeShape.largeWalk {f : NodeIx → NodeRec} (h : TreeShape f) {n : NodeIx} (hn : liveIn f n) :
    ∃ r, LargeWalk f n r ∧ liveIn f r ∧ Under f n r ∧ (f r).largeChild = 0 := by
  obtain ⟨k, B, hB, hk⟩ := h.bounded_rank
  obtain ⟨p, hp, hI⟩ := Path.exists_of_rank (g := fun x => (f x).largeChild) (stop := fun x => (f x).largeChild = 0)
    (I := fun x => liveIn f x) (fun t ht hs => (h.large t (.inr ht) hs).1) k B (fun t _ => hB t)
    (fun t ht hs => by have := h.large t (.inr ht) hs; have := hk _ this.1; simp_all) n hn
  have key : ∀ (t : NodeIx) (p : List NodeIx), Path (fun x => (f x).largeChild) (fun x => (f x).largeChild = 0) t p →
      (∀ x ∈ p, liveIn f x) → ∃ r, LargeWalk f t r ∧ liveIn f r ∧ Under f t r ∧ (f r).largeChild = 0 := by
    intro t p hp
    induction hp with
    | last t hs => intro hI; exact ⟨t, .here t hs, hI t (by simp), .here, hs⟩
    | step t p hs hp ih =>
      intro hI
      obtain ⟨r, h1, h2, h3, h4⟩ := ih fun x hx => hI x (List.mem_cons_of_mem _ hx)
      refine ⟨r, .step t r hs h1, h2, ?_, h4⟩
      have hl := h.large t (.inr (hI t (by simp))) hs
      have up : Under f t (f t).largeChild := .step _ hl.1 (by rw [hl.2]; exact .here)
      clear ih h1 h2 h4 hp
      induction h3 with
      | here => exact up
      | step n hn _ ih => exact .step n hn ih
  exact key n p hp hI

/-! ## DeleteNode -/

/-- `Node` after DeleteNode of a live slot (R154). -/
def deleted (f : NodeIx → NodeRec) (n r : NodeIx) : NodeIx → NodeRec :=
  if (f n).largeChild = 0 then spliced f n (f n).smallChild
  else if (f n).smallChild = 0 then spliced f n (f n).largeChild
  else replaced (spliced f r (f r).smallChild) n r

theorem Under.trans {f : NodeIx → NodeRec} {a b c : NodeIx} (h1 : Under f a b) (h2 : Under f b c) : Under f a c := by
  induction h2 with
  | here => exact h1
  | step n hn _ ih => exact .step n hn ih

/-- DeleteNode of a live slot: point by point what it leaves, its frame, and that it leaves a tree without the slot. -/
theorem deleteNode_ret {s : State} {n : Pos} (h : TreeShape s.nodeAt) (hn : liveIn s.nodeAt (posToNode n)) :
    ∃ t r, deleteNode n s = .ret () t ∧ t = { s with node := t.node, par := t.par, nxt := t.nxt, repl := t.repl } ∧
      (∀ k, t.nodeAt k = deleted s.nodeAt (posToNode n) r k) ∧
      ((s.nodeAt (posToNode n)).smallChild ≠ 0 → (s.nodeAt (posToNode n)).largeChild ≠ 0 →
        LargeWalk s.nodeAt (s.nodeAt (posToNode n)).smallChild r ∧ liveIn s.nodeAt r ∧
        Under s.nodeAt (s.nodeAt (posToNode n)).smallChild r ∧ (s.nodeAt r).largeChild = 0) ∧
      TreeShape t.nodeAt ∧ (∀ m, liveIn t.nodeAt m ↔ liveIn s.nodeAt m ∧ m ≠ posToNode n) ∧
      (NodeMemory.wf s.node = true → NodeMemory.wf t.node = true) := by
  generalize hx : posToNode n = x at hn
  have hup := h.up x hn
  have guard : ¬ (x = Config.unused ∨ (s.nodeAt x).parent = Config.unused) := by
    rintro (e | e)
    · exact hn.1 e
    · exact hn.2.2 e
  unfold deleteNode
  simp only [hx, guard, if_false]
  by_cases hl : (s.nodeAt x).largeChild = 0
  · have hl' : (s.nodeAt x).largeChild = Config.unused := hl
    obtain ⟨t, h1, h2, h3, h4⟩ := contractNode_ret (s := s) (old := x) (new := (s.nodeAt x).smallChild) hup.2.symm
    have hc : ((s.nodeAt x).smallChild = 0 ∧ (s.nodeAt x).smallChild = (s.nodeAt x).largeChild) ∨
        ((s.nodeAt x).largeChild = 0 ∧ (s.nodeAt x).smallChild = (s.nodeAt x).smallChild) := .inr ⟨hl, rfl⟩
    have e3 : t.nodeAt = spliced s.nodeAt x (s.nodeAt x).smallChild := funext h3
    refine ⟨t, 0, by simp only [hl', if_true]; exact h1, by rw [h2], fun k => by rw [e3, deleted, if_pos hl], fun _ e => absurd hl e, ?_, ?_, h4⟩
    · rw [e3]; exact h.splice hn hc
    · rw [e3]; exact spliced_live h hn hc
  · have hl' : (s.nodeAt x).largeChild ≠ Config.unused := hl
    by_cases hs : (s.nodeAt x).smallChild = 0
    · have hs' : (s.nodeAt x).smallChild = Config.unused := hs
      obtain ⟨t, h1, h2, h3, h4⟩ := contractNode_ret (s := s) (old := x) (new := (s.nodeAt x).largeChild) hup.2.symm
      have hc : ((s.nodeAt x).smallChild = 0 ∧ (s.nodeAt x).largeChild = (s.nodeAt x).largeChild) ∨
          ((s.nodeAt x).largeChild = 0 ∧ (s.nodeAt x).largeChild = (s.nodeAt x).smallChild) := .inl ⟨hs, rfl⟩
      have e3 : t.nodeAt = spliced s.nodeAt x (s.nodeAt x).largeChild := funext h3
      refine ⟨t, 0, by simp only [hl', hs', if_true, if_false]; exact h1, by rw [h2],
        fun k => by rw [e3, deleted, if_neg hl, if_pos hs], fun e _ => absurd hs e, ?_, ?_, h4⟩
      · rw [e3]; exact h.splice hn hc
      · rw [e3]; exact spliced_live h hn hc
    · have hs' : (s.nodeAt x).smallChild ≠ Config.unused := hs
      have hsm := h.small x (.inr hn) hs
      obtain ⟨r, hw, hr, hu, hr0⟩ := h.largeWalk hsm.1
      have hrx : r ≠ x := by
        obtain ⟨k, hk⟩ := h.rank
        have : ∀ y, Under s.nodeAt (s.nodeAt x).smallChild y → k x < k y := by
          intro y hy
          induction hy with
          | here => have := hk _ hsm.1; rwa [hsm.2] at this
          | step m hm _ ih => exact lt_trans ih (hk m hm)
        intro e
        have := this r hu
        rw [e] at this
        omega
      obtain ⟨t1, a1, a2, a3, a4⟩ := contractNode_ret (s := { s with nxt := r, repl := r }) (old := r)
        (new := (s.nodeAt r).smallChild) (h.up r hr).2.symm
      have hc : ((s.nodeAt r).smallChild = 0 ∧ (s.nodeAt r).smallChild = (s.nodeAt r).largeChild) ∨
          ((s.nodeAt r).largeChild = 0 ∧ (s.nodeAt r).smallChild = (s.nodeAt r).smallChild) := .inr ⟨hr0, rfl⟩
      have e3 : t1.nodeAt = spliced s.nodeAt r (s.nodeAt r).smallChild := funext a3
      have hT := h.splice hr hc
      have hL := spliced_live h hr hc
      have hx1 : liveIn (spliced s.nodeAt r (s.nodeAt r).smallChild) x := (hL x).mpr ⟨hn, hrx.symm⟩
      have hd1 : (spliced s.nodeAt r (s.nodeAt r).smallChild r).parent = 0 := by simp [spliced, NodeRec.zero]
      obtain ⟨t, b1, b2, b3, b4⟩ := replaceNode_ret (s := t1) (old := x) (new := r) (by rw [e3]; exact hT) (by rw [e3]; exact hx1)
        hr.1 hr.2.1 (by rw [e3]; exact hd1)
      have e4 : t.nodeAt = replaced (spliced s.nodeAt r (s.nodeAt r).smallChild) x r := by
        funext k; rw [b3, e3]
      refine ⟨t, r, ?_, ?_, fun k => by rw [e4, deleted, if_neg hl, if_neg hs], fun _ _ => ⟨hw, hr, hu, hr0⟩, ?_, ?_, fun w => b4 (a4 w)⟩
      · simp only [hl', hs', if_false, findNextNode_ret hs hw, Res.ret_andThen]
        have a1' : contractNode r (State.nodeAt { s with nxt := r, repl := r } r).smallChild { s with nxt := r, repl := r } =
          .ret () t1 := a1
        rw [a1', Res.ret_andThen, b1]
      · rw [b2, a2]
      · rw [e4]; exact hT.replace hx1 hr.1 hr.2.1 hd1
      · intro m
        rw [e4, replaced_live hT hx1 hr.1 hr.2.1 hd1, hL]
        constructor
        · rintro (rfl | ⟨⟨c1, -⟩, c2⟩)
          · exact ⟨hr, hrx⟩
          · exact ⟨c1, c2⟩
        · rintro ⟨c1, c2⟩
          by_cases e : m = r
          · exact .inl e
          · exact .inr ⟨⟨c1, e⟩, c2⟩

/-- DeleteNode of a slot that is not live (R154, decision D4). -/
theorem deleteNode_dead {s : State} {n : Pos} (h : n = 0 ∨ (s.nodeAt (posToNode n)).parent = 0) :
    deleteNode n s = .ret () s := by
  have : posToNode n = Config.unused ∨ (s.nodeAt (posToNode n)).parent = Config.unused := by
    rcases h with rfl | h
    · exact .inl rfl
    · exact .inr h
  unfold deleteNode
  simp only [this, if_true]

end Sys2Proof.Machine
end

