-- ==== Sys2Proof/Laws/Keys.lean ====
section
/-! SUPPORT. The order of the keys and what Compare computes of it (42_match_engine.md R180, R181). -/

namespace Sys2Proof.Machine

/-! ## Byte sequences -/

theorem commonPrefix_le_left (a b : List Byte) : commonPrefix a b ≤ a.length := by
  induction a generalizing b with
  | nil => simp [commonPrefix]
  | cons x a ih =>
    cases b with
    | nil => simp [commonPrefix]
    | cons y b => simp only [commonPrefix]; split <;> simp [ih b]

theorem commonPrefix_self (a : List Byte) : commonPrefix a a = a.length := by
  induction a with
  | nil => rfl
  | cons x a ih => simp [commonPrefix, ih]

theorem commonPrefix_comm (a b : List Byte) : commonPrefix a b = commonPrefix b a := by
  induction a generalizing b with
  | nil => cases b <;> rfl
  | cons x a ih =>
    cases b with
    | nil => rfl
    | cons y b =>
      simp only [commonPrefix, ih b]
      by_cases h : x = y
      · simp [h]
      · simp [h, Ne.symm h]

theorem eq_of_commonPrefix {a b : List Byte} (hl : a.length = b.length) (h : commonPrefix a b = a.length) : a = b := by
  induction a generalizing b with
  | nil => exact (List.length_eq_zero_iff.mp hl.symm).symm
  | cons x a ih =>
    cases b with
    | nil => simp at hl
    | cons y b =>
      simp only [commonPrefix] at h
      split at h
      · rename_i e
        rw [e, ih (by simpa using hl) (by simpa using h)]
      · simp at h

/-- The common prefix is common. -/
theorem getElem?_commonPrefix {a b : List Byte} {j : Nat} (h : j < commonPrefix a b) : a[j]? = b[j]? := by
  induction a generalizing b j with
  | nil => simp [commonPrefix] at h
  | cons x a ih =>
    cases b with
    | nil => simp [commonPrefix] at h
    | cons y b =>
      simp only [commonPrefix] at h
      split at h
      · rename_i e
        cases j with
        | zero => simp [e]
        | succ j => simpa using ih (by omega)
      · omega

theorem byte_lt_irrefl (x : Byte) : ¬ x < x := by rw [BitVec.lt_def]; omega
theorem byte_lt_trans {x y z : Byte} (h1 : x < y) (h2 : y < z) : x < z := by rw [BitVec.lt_def] at *; omega
theorem byte_trichotomy (x y : Byte) : x < y ∨ x = y ∨ y < x := by
  rw [BitVec.lt_def, BitVec.lt_def]
  rcases Nat.lt_trichotomy x.toNat y.toNat with h | h | h
  · exact .inl h
  · exact .inr (.inl (BitVec.eq_of_toNat_eq h))
  · exact .inr (.inr h)

theorem seq_lt_irrefl (a : List Byte) : ¬ a < a := by
  induction a with
  | nil => simp
  | cons x a ih => rw [List.cons_lt_cons_iff]; rintro (h | ⟨-, h⟩); exact byte_lt_irrefl x h; exact ih h

theorem seq_lt_trans {a b c : List Byte} (h1 : a < b) (h2 : b < c) : a < c := by
  induction a generalizing b c with
  | nil =>
    cases c with
    | nil => cases b <;> simp at h2
    | cons z c => simp
  | cons x a ih =>
    cases b with
    | nil => simp at h1
    | cons y b =>
      cases c with
      | nil => simp at h2
      | cons z c =>
        rw [List.cons_lt_cons_iff] at *
        rcases h1 with h1 | ⟨rfl, h1⟩ <;> rcases h2 with h2 | ⟨rfl, h2⟩
        · exact .inl (byte_lt_trans h1 h2)
        · exact .inl h1
        · exact .inl h2
        · exact .inr ⟨rfl, ih h1 h2⟩

theorem seq_lt_asymm {a b : List Byte} (h1 : a < b) : ¬ b < a := fun h2 => seq_lt_irrefl a (seq_lt_trans h1 h2)

/-- Two sequences of one length are ordered by their first different bytes. -/
theorem seq_lt_iff {a b : List Byte} (hl : a.length = b.length) :
    a < b ↔ ∃ x y, a[commonPrefix a b]? = some x ∧ b[commonPrefix a b]? = some y ∧ x < y := by
  induction a generalizing b with
  | nil =>
    cases b with
    | nil => simp
    | cons y b => simp at hl
  | cons x a ih =>
    cases b with
    | nil => simp at hl
    | cons y b =>
      rw [List.cons_lt_cons_iff]
      simp only [commonPrefix]
      by_cases h : x = y
      · subst h
        simp only [byte_lt_irrefl, false_or, true_and, if_true, List.getElem?_cons_succ]
        exact ih (by simpa using hl)
      · simp [h]

theorem seq_trichotomy {a b : List Byte} (hl : a.length = b.length) : a < b ∨ a = b ∨ b < a := by
  induction a generalizing b with
  | nil => exact .inr (.inl (List.length_eq_zero_iff.mp hl.symm).symm)
  | cons x a ih =>
    cases b with
    | nil => simp at hl
    | cons y b =>
      rw [List.cons_lt_cons_iff, List.cons_lt_cons_iff, List.cons.injEq]
      rcases byte_trichotomy x y with h | rfl | h
      · exact .inl (.inl h)
      · rcases ih (b := b) (by simpa using hl) with h | rfl | h
        · exact .inl (.inr ⟨rfl, h⟩)
        · exact .inr (.inl ⟨rfl, rfl⟩)
        · exact .inr (.inr (.inr ⟨rfl, h⟩))
      · exact .inr (.inr (.inl h))

/-- Of three sequences in order, the outer two share no more than the middle one shares with either. -/
theorem commonPrefix_between {a b c : List Byte} (h1 : a < b) (h2 : b < c) :
    commonPrefix a c ≤ commonPrefix a b ∧ commonPrefix a c ≤ commonPrefix b c := by
  induction a generalizing b c with
  | nil => simp [commonPrefix]
  | cons x a ih =>
    cases b with
    | nil => simp at h1
    | cons y b =>
      cases c with
      | nil => simp at h2
      | cons z c =>
        rw [List.cons_lt_cons_iff] at *
        simp only [commonPrefix]
        by_cases hxz : x = z
        · subst hxz
          rcases h1 with h1 | ⟨rfl, h1⟩ <;> rcases h2 with h2 | ⟨e, h2⟩
          · exact absurd (byte_lt_trans h1 h2) (byte_lt_irrefl x)
          · subst e; exact absurd h1 (byte_lt_irrefl y)
          · exact absurd h2 (byte_lt_irrefl x)
          · simp only [if_true]
            have := ih h1 h2
            omega
        · simp [hxz]

/-! ## Keys -/

@[simp] theorem keyOf_length (w : Memory) (p : Pos) : (keyOf w p).length = 17 := by simp [keyOf]

theorem keyOf_getElem? (w : Memory) (p : Pos) {k : Nat} (hk : k < 17) :
    (keyOf w p)[k]? = some (Memory.read w (p + BitVec.ofNat 10 k)) := by
  unfold keyOf
  rw [List.getElem?_map, List.getElem?_range hk]
  rfl

theorem keyByte_eq (w : Memory) (p : Pos) (k : Cnt) : keyByte w p k = Memory.read w (p + BitVec.ofNat 10 k.toNat) := by
  unfold keyByte windowAt
  congr 2
  apply BitVec.eq_of_toNat_eq
  simp

theorem shared_le (w : Memory) (new : Pos) (t : NodeIx) : shared w new t ≤ 17 := by
  have := commonPrefix_le_left (keyOf w new) (keyOf w (nodeToPos t))
  simpa [shared] using this

/-- The difference of two bytes as a number (R181, R287). -/
theorem byteDifference_toInt (a b : Byte) : (byteDifference a b).toInt = (a.toNat : Int) - (b.toNat : Int) := by
  have ha := a.isLt
  have hb := b.isLt
  have e1 : (a.setWidth 16).toInt = (a.toNat : Int) := by
    rw [BitVec.toInt_setWidth, Int.bmod_def]; norm_num; omega
  have e2 : (b.setWidth 16).toInt = (b.toNat : Int) := by
    rw [BitVec.toInt_setWidth, Int.bmod_def]; norm_num; omega
  unfold byteDifference
  rw [BitVec.toInt_sub, e1, e2, Int.bmod_def]
  norm_num
  omega

theorem byteDifference_eq_zero (a b : Byte) : byteDifference a b = 0 ↔ a = b := by
  constructor
  · intro h
    have := byteDifference_toInt a b
    rw [h] at this
    have h0 : (0 : BitVec 16).toInt = 0 := rfl
    rw [h0] at this
    exact BitVec.eq_of_toNat_eq (by omega)
  · rintro rfl
    unfold byteDifference
    simp

/-- The compare loop from an index on. -/
theorem compareLoop_spec (w : Memory) (new test : Pos) (left : Nat) (i : Cnt) (h : i.toNat + left = 17) :
    (compareLoop w new test left i).1.toNat =
      i.toNat + commonPrefix ((keyOf w new).drop i.toNat) ((keyOf w test).drop i.toNat) ∧
    (if (compareLoop w new test left i).1.toNat < 17 then
      (compareLoop w new test left i).2 = byteDifference (keyByte w new (compareLoop w new test left i).1)
        (keyByte w test (compareLoop w new test left i).1) ∧ (compareLoop w new test left i).2 ≠ 0
    else (compareLoop w new test left i).2 = 0) := by
  induction left generalizing i with
  | zero =>
    have : i.toNat = 17 := by omega
    simp only [compareLoop, this]
    rw [List.drop_of_length_le (by simp)]
    simp [commonPrefix]
  | succ left ih =>
    have hi : i.toNat < 17 := by omega
    have e1 : (keyOf w new).drop i.toNat = keyByte w new i :: (keyOf w new).drop (i.toNat + 1) := by
      rw [List.drop_eq_getElem_cons (by simpa using hi)]
      congr 1
      have := keyOf_getElem? w new hi
      rw [List.getElem?_eq_getElem (by simpa using hi)] at this
      rw [keyByte_eq]
      simpa using this
    have e2 : (keyOf w test).drop i.toNat = keyByte w test i :: (keyOf w test).drop (i.toNat + 1) := by
      rw [List.drop_eq_getElem_cons (by simpa using hi)]
      congr 1
      have := keyOf_getElem? w test hi
      rw [List.getElem?_eq_getElem (by simpa using hi)] at this
      rw [keyByte_eq]
      simpa using this
    rw [e1, e2]
    have hx : compareLoop w new test (left + 1) i =
        if byteDifference (keyByte w new i) (keyByte w test i) ≠ 0 then (i, byteDifference (keyByte w new i) (keyByte w test i))
        else compareLoop w new test left (i + 1) := rfl
    simp only [commonPrefix]
    by_cases hd : byteDifference (keyByte w new i) (keyByte w test i) = 0
    · have heq := (byteDifference_eq_zero _ _).mp hd
      have hn : (i + 1).toNat = i.toNat + 1 := by
        rw [BitVec.toNat_add]
        have : (1 : Cnt).toNat = 1 := rfl
        rw [this, Nat.mod_eq_of_lt (by omega)]
      have := ih (i + 1) (by omega)
      rw [hn] at this
      rw [if_neg (by simpa using hd)] at hx
      rw [hx, if_pos heq]
      exact ⟨by rw [this.1]; omega, this.2⟩
    · have hne : keyByte w new i ≠ keyByte w test i := fun e => hd ((byteDifference_eq_zero _ _).mpr e)
      rw [if_pos hd] at hx
      rw [hx, if_neg hne]
      refine ⟨by simp, ?_⟩
      rw [if_pos hi]
      exact ⟨rfl, hd⟩

/-- Everything Compare computes (R181). -/
theorem compareKeys_spec (w : Memory) (new test : Pos) :
    (compareKeys w new test).1.toNat = commonPrefix (keyOf w new) (keyOf w test) ∧
    (if commonPrefix (keyOf w new) (keyOf w test) < 17 then
      (compareKeys w new test).2 = byteDifference (keyByte w new (compareKeys w new test).1)
        (keyByte w test (compareKeys w new test).1) ∧ (compareKeys w new test).2 ≠ 0
    else (compareKeys w new test).2 = 0) := by
  have h := compareLoop_spec w new test 17 0 rfl
  have e : (compareKeys w new test).1.toNat = commonPrefix (keyOf w new) (keyOf w test) := by
    have := h.1
    simpa [compareKeys] using this
  refine ⟨e, ?_⟩
  rw [← e]
  exact h.2

/-- The sign of the difference is the order of the keys (R181). -/
theorem compareKeys_sign (w : Memory) (new test : Pos) :
    (0 < (compareKeys w new test).2.toInt ↔ keyOf w test < keyOf w new) ∧
    ((compareKeys w new test).2.toInt < 0 ↔ keyOf w new < keyOf w test) := by
  obtain ⟨h1, h2⟩ := compareKeys_spec w new test
  rw [seq_lt_iff (a := keyOf w test) (b := keyOf w new) (by simp), seq_lt_iff (a := keyOf w new) (b := keyOf w test) (by simp),
    commonPrefix_comm (keyOf w test) (keyOf w new)]
  split at h2
  · rename_i hlt
    rw [h2.1, byteDifference_toInt, keyByte_eq, keyByte_eq, h1]
    simp only [keyOf_getElem? w _ hlt, Option.some.injEq]
    constructor
    · constructor
      · intro h
        exact ⟨_, _, rfl, rfl, by rw [BitVec.lt_def]; omega⟩
      · rintro ⟨x, y, rfl, rfl, h⟩
        rw [BitVec.lt_def] at h
        omega
    · constructor
      · intro h
        exact ⟨_, _, rfl, rfl, by rw [BitVec.lt_def]; omega⟩
      · rintro ⟨x, y, rfl, rfl, h⟩
        rw [BitVec.lt_def] at h
        omega
  · rename_i hge
    have hle := commonPrefix_le_left (keyOf w new) (keyOf w test)
    rw [keyOf_length] at hle
    have e17 : commonPrefix (keyOf w new) (keyOf w test) = 17 := by omega
    rw [h2, e17]
    have n1 : (keyOf w new)[17]? = none := List.getElem?_eq_none (by simp)
    have n2 : (keyOf w test)[17]? = none := List.getElem?_eq_none (by simp)
    simp [n1, n2]

/-- The child to descend into (R182 step 5). -/
theorem deltaNotNegative_iff (w : Memory) (new test : Pos) (h : commonPrefix (keyOf w new) (keyOf w test) ≠ 17) :
    deltaNotNegative (compareKeys w new test).2 = true ↔ keyOf w test < keyOf w new := by
  rw [← (compareKeys_sign w new test).1]
  have hle := commonPrefix_le_left (keyOf w new) (keyOf w test)
  rw [keyOf_length] at hle
  have h2 := (compareKeys_spec w new test).2
  rw [if_pos (by omega)] at h2
  have h3 : (compareKeys w new test).2.toInt ≠ 0 := fun e => h2.2 (BitVec.eq_of_toInt_eq e)
  unfold deltaNotNegative
  rw [BitVec.msb_eq_toInt]
  simp
  omega

end Sys2Proof.Machine
end

