-- ==== Sys2Proof/Laws/Search.lean ====
section
/-! SUPPORT. The search of AddNode (42_match_engine.md R182 to R188): the nodes it visits, the match it records, the links it
leaves. -/

namespace Sys2Proof.Machine

/-! ## Positions and slots -/

@[simp] theorem nodeToPos_posToNode (p : Pos) : nodeToPos (posToNode p) = p := by
  apply BitVec.eq_of_toNat_eq
  have := p.isLt
  simp [nodeToPos, posToNode]

theorem posToNode_nodeToPos {n : NodeIx} (h : n ≠ 1024) : posToNode (nodeToPos n) = n := by
  have h1 := n.isLt
  have h2 : n.val ≠ 1024 := fun e => h (Fin.ext e)
  apply Fin.ext
  simp [nodeToPos, posToNode]
  omega

theorem posToNode_ne_root (p : Pos) : posToNode p ≠ 1024 := by
  intro e
  have h : p.toNat = 1024 := by simpa [posToNode] using congrArg Fin.val e
  have := p.isLt
  omega

theorem posToNode_eq_zero {p : Pos} : posToNode p = 0 ↔ p = 0 := by
  constructor
  · intro e
    apply BitVec.eq_of_toNat_eq
    simpa [posToNode] using congrArg Fin.val e
  · rintro rfl; rfl

theorem posToNode_inj {p q : Pos} : posToNode p = posToNode q ↔ p = q := by
  constructor
  · intro e
    have := congrArg nodeToPos e
    simpa using this
  · rintro rfl; rfl

theorem nodeToPos_ne_zero {f : NodeIx → NodeRec} {n : NodeIx} (h : liveIn f n) : nodeToPos n ≠ 0 := by
  intro e
  have := posToNode_nodeToPos h.2.1
  rw [e] at this
  exact h.1 (by rw [← this]; rfl)

/-! ## The nodes visited -/

theorem visits_iff_path {f : NodeIx → NodeRec} {w : Memory} {new : Pos} {t : NodeIx} {path : List NodeIx} :
    Visits f w new t path ↔
      Path (childToward f w new) (fun t => shared w new t = 17 ∨ childToward f w new t = 0) t path := by
  constructor
  · intro h
    induction h with
    | equal t h => exact .last t (.inl h)
    | last t _ h => exact .last t (.inr h)
    | step t p h1 h2 _ ih => exact .step t p (by tauto) ih
  · intro h
    induction h with
    | last t h =>
      by_cases h' : shared w new t = 17
      · exact .equal t h'
      · exact .last t h' (h.resolve_left h')
    | step t p h _ ih => exact .step t p (by tauto) (by tauto) ih

theorem childToward_live {f : NodeIx → NodeRec} (h : TreeShape f) {w : Memory} {new : Pos} {t : NodeIx} (ht : liveIn f t)
    (hc : childToward f w new t ≠ 0) : liveIn f (childToward f w new t) ∧ (f (childToward f w new t)).parent = t := by
  unfold childToward at *
  split at hc
  · rename_i hlt; rw [if_pos hlt]; exact h.large t (.inr ht) hc
  · rename_i hlt; rw [if_neg hlt]; exact h.small t (.inr ht) hc

/-- In a tree a search from a live slot ends, and visits live slots only. -/
theorem TreeShape.visits {f : NodeIx → NodeRec} (h : TreeShape f) (w : Memory) (new : Pos) {t : NodeIx} (ht : liveIn f t) :
    ∃ path, Visits f w new t path ∧ ∀ x ∈ path, liveIn f x := by
  obtain ⟨k, B, hB, hk⟩ := h.bounded_rank
  obtain ⟨p, hp, hI⟩ := Path.exists_of_rank (g := childToward f w new)
    (stop := fun t => shared w new t = 17 ∨ childToward f w new t = 0) (I := fun x => liveIn f x)
    (fun t ht hs => (childToward_live h ht (by tauto)).1) k B (fun t _ => hB t)
    (fun t ht hs => by
      have := childToward_live h ht (w := w) (new := new) (by tauto)
      have := hk _ this.1
      simp_all) t ht
  exact ⟨p, visits_iff_path.mpr hp, hI⟩

theorem Visits.length_le {f : NodeIx → NodeRec} {w : Memory} {new : Pos} {t : NodeIx} {path : List NodeIx}
    (h : Visits f w new t path) : path.length ≤ 1025 := by
  have := (visits_iff_path.mp h).length_le
  simpa using this

/-! ## The match recorded -/

/-- The match recorded after a list of nodes, from the one recorded before (R182 step 3). -/
def bestOf (w : Memory) (new : Pos) : List NodeIx → Cnt × Pos → Cnt × Pos
  | [], b => b
  | t :: path, b =>
    bestOf w new path (if b.1.toNat ≤ shared w new t then (BitVec.ofNat 5 (shared w new t), nodeToPos t) else b)

theorem shared_toNat (w : Memory) (new : Pos) (t : NodeIx) : (BitVec.ofNat 5 (shared w new t)).toNat = shared w new t := by
  have := shared_le w new t
  rw [BitVec.toNat_ofNat]
  omega

/-- The recorded match is the deepest of the longest, or the one before when that was longer than all (R183). -/
theorem bestOf_spec (w : Memory) (new : Pos) (path : List NodeIx) (b : Cnt × Pos) :
    (bestOf w new path b = b ∧ ∀ x ∈ path, shared w new x < b.1.toNat) ∨
    ∃ above n below, path = above ++ n :: below ∧ bestOf w new path b = (BitVec.ofNat 5 (shared w new n), nodeToPos n) ∧
      b.1.toNat ≤ shared w new n ∧ (∀ x ∈ above, shared w new x ≤ shared w new n) ∧
      ∀ x ∈ below, shared w new x < shared w new n := by
  induction path generalizing b with
  | nil => exact .inl ⟨rfl, by simp⟩
  | cons t path ih =>
    simp only [bestOf]
    by_cases h : b.1.toNat ≤ shared w new t
    · rw [if_pos h]
      rcases ih (BitVec.ofNat 5 (shared w new t), nodeToPos t) with ⟨h1, h2⟩ | ⟨above, n, below, h1, h2, h3, h4, h5⟩
      · refine .inr ⟨[], t, path, rfl, h1, h, by simp, fun x hx => ?_⟩
        have := h2 x hx
        rwa [shared_toNat] at this
      · rw [shared_toNat] at h3
        refine .inr ⟨t :: above, n, below, by rw [h1]; rfl, h2, le_trans h h3, ?_, h5⟩
        intro x hx
        rcases List.mem_cons.mp hx with rfl | hx
        · exact h3
        · exact h4 x hx
    · rw [if_neg h]
      rcases ih b with ⟨h1, h2⟩ | ⟨above, n, below, h1, h2, h3, h4, h5⟩
      · refine .inl ⟨h1, fun x hx => ?_⟩
        rcases List.mem_cons.mp hx with rfl | hx
        · omega
        · exact h2 x hx
      · refine .inr ⟨t :: above, n, below, by rw [h1]; rfl, h2, h3, ?_, h5⟩
        intro x hx
        rcases List.mem_cons.mp hx with rfl | hx
        · omega
        · exact h4 x hx

/-! ## The search loop -/

/-- The state at the end of the search, before the links are changed. -/
def State.searched (s : State) (e : NodeIx) (i : Cnt) (d : BitVec 16) (b : Cnt × Pos) : State :=
  { s with testNode := e, i := i, delta := d, bestLen := b.1, bestPos := b.2 }

/-- One turn's comparison and record (R182 steps 1 to 3). -/
theorem recordBest_compare (s : State) (new : Pos) :
    (s.compare new (nodeToPos s.testNode)).recordBest =
      s.searched s.testNode (BitVec.ofNat 5 (shared s.window new s.testNode)) (compareKeys s.window new (nodeToPos s.testNode)).2
        (bestOf s.window new [s.testNode] (s.bestLen, s.bestPos)) := by
  have h := (compareKeys_spec s.window new (nodeToPos s.testNode)).1
  have hi : (compareKeys s.window new (nodeToPos s.testNode)).1 = BitVec.ofNat 5 (shared s.window new s.testNode) := by
    apply BitVec.eq_of_toNat_eq
    rw [shared_toNat, h]
    rfl
  unfold State.recordBest State.compare
  simp only [hi, bestOf]
  by_cases hb : s.bestLen.toNat ≤ shared s.window new s.testNode
  · have hb' : s.bestLen ≤ BitVec.ofNat 5 (shared s.window new s.testNode) := by rw [BitVec.le_def, shared_toNat]; exact hb
    rw [if_pos hb', if_pos hb]
    rfl
  · have hb' : ¬ s.bestLen ≤ BitVec.ofNat 5 (shared s.window new s.testNode) := by rw [BitVec.le_def, shared_toNat]; exact hb
    rw [if_neg hb', if_neg hb]
    rfl

/-- Where the search ends and how (R182). -/
theorem searchLoop_spec {s : State} {new : Pos} {t : NodeIx} {path : List NodeIx} (h : Visits s.nodeAt s.window new t path)
    (ht : s.testNode = t) (fuel : Nat) (hf : path.length ≤ fuel) :
    ∃ e d, path.getLast? = some e ∧
      (shared s.window new e ≠ 17 → childToward s.nodeAt s.window new e = 0) ∧
      searchLoop new fuel s =
        let u := s.searched e (BitVec.ofNat 5 (shared s.window new e)) d (bestOf s.window new path (s.bestLen, s.bestPos))
        if shared s.window new e = 17 then (replaceNode e (posToNode new) u).andThen fun _ v => .ret (v.bestLen, v.bestPos) v
        else if keyOf s.window (nodeToPos e) < keyOf s.window new then .ret (u.bestLen, u.bestPos) (u.linkLarge (posToNode new))
        else .ret (u.bestLen, u.bestPos) (u.linkSmall (posToNode new)) := by
  generalize hfn : s.nodeAt = f at h
  generalize hw : s.window = w at h ⊢
  induction h generalizing s fuel with
  | equal t h =>
    obtain ⟨k, rfl⟩ := Nat.exists_eq_succ_of_ne_zero (show fuel ≠ 0 by simp at hf; omega)
    subst hfn hw
    refine ⟨t, (compareKeys s.window new (nodeToPos t)).2, rfl, fun e => absurd h e, ?_⟩
    subst ht
    have hc : BitVec.ofNat 5 Config.lookAhead ≤ BitVec.ofNat 5 (shared s.window new s.testNode) := by rw [h]; decide
    simp only [searchLoop, recordBest_compare, State.searched, hc, if_true]
    rw [if_pos h]
  | last t h1 h2 =>
    obtain ⟨k, rfl⟩ := Nat.exists_eq_succ_of_ne_zero (show fuel ≠ 0 by simp at hf; omega)
    subst hfn hw
    refine ⟨t, (compareKeys s.window new (nodeToPos t)).2, rfl, fun _ => h2, ?_⟩
    subst ht
    have hle := shared_le s.window new s.testNode
    have hc : ¬ BitVec.ofNat 5 Config.lookAhead ≤ BitVec.ofNat 5 (shared s.window new s.testNode) := by
      rw [BitVec.le_def, shared_toNat]
      show ¬ 17 ≤ _
      omega
    have hd := deltaNotNegative_iff s.window new (nodeToPos s.testNode) h1
    simp only [searchLoop, recordBest_compare, State.searched, hc, if_false, h1, hd]
    unfold childToward at h2
    by_cases hk : keyOf s.window (nodeToPos s.testNode) < keyOf s.window new
    · rw [if_pos hk] at h2
      rw [if_pos hk, if_pos hk, if_pos]
      exact h2
    · rw [if_neg hk] at h2
      rw [if_neg hk, if_neg hk, if_pos]
      exact h2
  | step t p h1 h2 hp ih =>
    obtain ⟨k, rfl⟩ := Nat.exists_eq_succ_of_ne_zero (show fuel ≠ 0 by simp at hf; omega)
    subst hfn hw
    subst ht
    have hle := shared_le s.window new s.testNode
    have hc : ¬ BitVec.ofNat 5 Config.lookAhead ≤ BitVec.ofNat 5 (shared s.window new s.testNode) := by
      rw [BitVec.le_def, shared_toNat]
      show ¬ 17 ≤ _
      omega
    have hd := deltaNotNegative_iff s.window new (nodeToPos s.testNode) h1
    obtain ⟨e, d, he, hz, hx⟩ := ih (s := s.searched (childToward s.nodeAt s.window new s.testNode)
      (BitVec.ofNat 5 (shared s.window new s.testNode)) (compareKeys s.window new (nodeToPos s.testNode)).2
      (bestOf s.window new [s.testNode] (s.bestLen, s.bestPos))) rfl k (by simp at hf; omega) rfl rfl
    refine ⟨e, d, ?_, hz, ?_⟩
    · rw [List.getLast?_cons, he]; rfl
    · rw [show searchLoop new (k + 1) s = searchLoop new k (s.searched (childToward s.nodeAt s.window new s.testNode)
        (BitVec.ofNat 5 (shared s.window new s.testNode)) (compareKeys s.window new (nodeToPos s.testNode)).2
        (bestOf s.window new [s.testNode] (s.bestLen, s.bestPos))) from ?_, hx]
      · simp only [State.searched, bestOf]
      · simp only [searchLoop, recordBest_compare, State.searched, hc, if_false, hd]
        unfold childToward at h2 ⊢
        by_cases hk : keyOf s.window (nodeToPos s.testNode) < keyOf s.window new
        · rw [if_pos hk] at h2
          rw [if_pos hk, if_neg, if_pos hk]
          · rfl
          · exact h2
        · rw [if_neg hk] at h2
          rw [if_neg hk, if_neg, if_neg hk]
          · rfl
          · exact h2

/-! ## The links AddNode leaves -/

/-- `Node` after a leaf is linked under `t`, on the large or the small side (R182 step 5). -/
def leafed (f : NodeIx → NodeRec) (t x : NodeIx) (large : Bool) (n : NodeIx) : NodeRec :=
  if n = x then { parent := t, smallChild := 0, largeChild := 0 }
  else if n = t then { parent := (f t).parent
                       smallChild := if large then (f t).smallChild else x
                       largeChild := if large then x else (f t).largeChild }
  else f n

theorem linkLarge_spec (s : State) (x : NodeIx) :
    (∀ n, (s.linkLarge x).nodeAt n = leafed s.nodeAt s.testNode x true n) ∧ NodeOnly s (s.linkLarge x) ∧
      (NodeMemory.wf s.node = true → NodeMemory.wf (s.linkLarge x).node = true) := by
  refine ⟨fun n => ?_, (putLarge_nodeOnly _ _ _).trans (putNode_nodeOnly _ _ _), fun h => putNode_wf _ _ (putLarge_wf _ _ h)⟩
  unfold State.linkLarge
  simp only [nodeAt_putNode, nodeAt_putLarge, Function.update_apply, leafed]
  rfl

theorem linkSmall_spec (s : State) (x : NodeIx) :
    (∀ n, (s.linkSmall x).nodeAt n = leafed s.nodeAt s.testNode x false n) ∧ NodeOnly s (s.linkSmall x) ∧
      (NodeMemory.wf s.node = true → NodeMemory.wf (s.linkSmall x).node = true) := by
  refine ⟨fun n => ?_, (putSmall_nodeOnly _ _ _).trans (putNode_nodeOnly _ _ _), fun h => putNode_wf _ _ (putSmall_wf _ _ h)⟩
  unfold State.linkSmall
  simp only [nodeAt_putNode, nodeAt_putSmall, Function.update_apply, leafed]
  rfl

theorem TreeShape.leaf {f : NodeIx → NodeRec} (h : TreeShape f) {t x : NodeIx} (ht : liveIn f t) (hn : x ≠ 0) (hr : x ≠ 1024)
    (hd : (f x).parent = 0) (large : Bool) (hc : (if large then (f t).largeChild else (f t).smallChild) = 0) :
    TreeShape (leafed f t x large) := by
  have htx : t ≠ x := by rintro rfl; exact ht.2.2 hd
  rw [treeShape_iff_links] at h ⊢
  cases large
  · refine Links.leaf_small h (t := t) (n := x) (.inr ht) ht.2.1 hc hn hr hd ?_ ?_ ?_ ?_ ?_ ?_ ?_
    all_goals first
      | (simp [leafed, htx]; done)
      | (intro k h1 h2; simp [leafed, h1, h2])
  · refine Links.leaf_large h (t := t) (n := x) (.inr ht) hc hn hr hd ?_ ?_ ?_ ?_ ?_ ?_ ?_
    all_goals first
      | (simp [leafed, htx]; done)
      | (intro k h1 h2; simp [leafed, h1, h2])

theorem leafed_live {f : NodeIx → NodeRec} {t x : NodeIx} (ht : liveIn f t) (hn : x ≠ 0) (hr : x ≠ 1024)
    (large : Bool) (n : NodeIx) : liveIn (leafed f t x large) n ↔ n = x ∨ liveIn f n := by
  unfold liveIn leafed
  by_cases h1 : n = x
  · subst h1; simp [hn, hr, ht.1]
  · by_cases h2 : n = t
    · subst h2; simp [h1]
    · simp [h1, h2]

/-- `Node` after AddNode whose search ends at `e` (R182 steps 4 and 5). -/
def added (f : NodeIx → NodeRec) (w : Memory) (new : Pos) (e : NodeIx) : NodeIx → NodeRec :=
  if shared w new e = 17 then replaced f e (posToNode new)
  else leafed f e (posToNode new) (decide (keyOf w (nodeToPos e) < keyOf w new))

/-- Everything AddNode does in a tree that is not empty, to a slot that is not in it (R182). -/
theorem addNode_ret {s : State} {new : Pos} (h : TreeShape s.nodeAt) (hroot : (s.nodeAt 1024).largeChild ≠ 0) (hn : new ≠ 0)
    (hd : (s.nodeAt (posToNode new)).parent = 0) :
    ∃ t path e, Visits s.nodeAt s.window new (s.nodeAt 1024).largeChild path ∧ (∀ x ∈ path, liveIn s.nodeAt x) ∧
      path.getLast? = some e ∧ liveIn s.nodeAt e ∧
      addNode new s = .ret (bestOf s.window new path (0, s.matchPos)) t ∧
      t = { s with node := t.node, par := t.par, testNode := t.testNode, i := t.i, delta := t.delta,
                   bestLen := (bestOf s.window new path (0, s.matchPos)).1,
                   bestPos := (bestOf s.window new path (0, s.matchPos)).2 } ∧
      (∀ n, t.nodeAt n = added s.nodeAt s.window new e n) ∧ TreeShape t.nodeAt ∧
      (∀ n, liveIn t.nodeAt n ↔ n = posToNode new ∨ (liveIn s.nodeAt n ∧ ¬ (shared s.window new e = 17 ∧ n = e))) ∧
      (NodeMemory.wf s.node = true → NodeMemory.wf t.node = true) := by
  have hx0 : posToNode new ≠ 0 := fun e => hn (posToNode_eq_zero.mp e)
  have hxr := posToNode_ne_root new
  have htop := (h.large 1024 (.inl rfl) hroot).1
  obtain ⟨path, hv, hlive⟩ := h.visits s.window new htop
  let s0 : State := { s with testNode := (s.nodeAt 1024).largeChild, bestLen := 0, bestPos := s.matchPos }
  obtain ⟨e, d, he, hz, hx⟩ := searchLoop_spec (s := s0) hv rfl 1025 hv.length_le
  have hel : liveIn s.nodeAt e := hlive e (List.mem_of_getLast? he)
  have hadd : addNode new s = searchLoop new 1025 s0 := by
    unfold addNode
    have h1 : ¬ (s.nodeAt (posToNode new)).parent ≠ Config.unused := by
      intro c; exact c hd
    have h2 : (s.nodeAt Config.treeRoot).largeChild ≠ Config.unused := hroot
    rw [if_neg hn, if_neg h1]
    simp only [h2, if_false]
    rfl
  rw [hadd, hx]
  clear hx hadd
  by_cases h17 : shared s.window new e = 17
  · obtain ⟨t, b1, b2, b3, b4⟩ := replaceNode_ret (s := s0.searched e (BitVec.ofNat 5 (shared s.window new e)) d
      (bestOf s.window new path (0, s.matchPos))) (old := e) (new := posToNode new) h hel hx0 hxr hd
    have e3 : t.nodeAt = replaced s.nodeAt e (posToNode new) := funext b3
    refine ⟨t, path, e, hv, hlive, he, hel, ?_, ?_, ?_, ?_, ?_, b4⟩
    · have h17' : shared s0.window new e = 17 := h17
      simp only [h17', if_true]
      rw [h17] at b1
      have b1' : replaceNode e (posToNode new) (s0.searched e (BitVec.ofNat 5 17) d (bestOf s0.window new path (s0.bestLen, s0.bestPos))) =
        .ret () t := b1
      rw [b1', Res.ret_andThen]
      rw [b2]
      rfl
    · rw [b2]; rfl
    · intro n; rw [e3, added, if_pos h17]
    · rw [e3]; exact h.replace hel hx0 hxr hd
    · intro n
      rw [e3, replaced_live h hel hx0 hxr hd]
      simp [h17]
  · have hz' := hz h17
    have h17' : ¬ shared s0.window new e = 17 := h17
    unfold childToward at hz'
    by_cases hk : keyOf s.window (nodeToPos e) < keyOf s.window new
    · have hk' : keyOf s0.window (nodeToPos e) < keyOf s0.window new := hk
      obtain ⟨l1, l2, l3⟩ := linkLarge_spec (s0.searched e (BitVec.ofNat 5 (shared s.window new e)) d
        (bestOf s.window new path (0, s.matchPos))) (posToNode new)
      rw [if_pos hk'] at hz'
      have e3 : (State.linkLarge (s0.searched e (BitVec.ofNat 5 (shared s.window new e)) d
        (bestOf s.window new path (0, s.matchPos))) (posToNode new)).nodeAt = leafed s.nodeAt e (posToNode new) true := funext l1
      refine ⟨_, path, e, hv, hlive, he, hel, by simp only [h17', hk', if_true, if_false]; rfl, ?_, ?_, ?_, ?_, l3⟩
      · exact l2.frame
      · intro n; rw [e3, added, if_neg h17, decide_eq_true hk]
      · rw [e3]; exact h.leaf hel hx0 hxr hd true hz'
      · intro n
        rw [e3, leafed_live hel hx0 hxr]
        simp [h17]
    · have hk' : ¬ keyOf s0.window (nodeToPos e) < keyOf s0.window new := hk
      obtain ⟨l1, l2, l3⟩ := linkSmall_spec (s0.searched e (BitVec.ofNat 5 (shared s.window new e)) d
        (bestOf s.window new path (0, s.matchPos))) (posToNode new)
      rw [if_neg hk'] at hz'
      have e3 : (State.linkSmall (s0.searched e (BitVec.ofNat 5 (shared s.window new e)) d
        (bestOf s.window new path (0, s.matchPos))) (posToNode new)).nodeAt = leafed s.nodeAt e (posToNode new) false := funext l1
      refine ⟨_, path, e, hv, hlive, he, hel, by simp only [h17', hk', if_false]; rfl, ?_, ?_, ?_, ?_, l3⟩
      · exact l2.frame
      · intro n; rw [e3, added, if_neg h17, decide_eq_false hk]
      · rw [e3]; exact h.leaf hel hx0 hxr hd false (by simpa using (show (s.nodeAt e).smallChild = 0 from hz'))
      · intro n
        rw [e3, leafed_live hel hx0 hxr]
        simp [h17]

end Sys2Proof.Machine
end

