-- ==== Sys2Proof/Laws/Order.lean ====
section
/-! SUPPORT. The search order of the tree, `Ordered`, under the link changes of the tree operations and of AddNode (10_state.md R47,
41_tree_ops.md R155, 42_match_engine.md R185, R188). -/

namespace Sys2Proof.Machine

section Order

variable {f : NodeIx → NodeRec} {w : Memory}

/-! ## Subtrees -/

theorem Under.cases' {a n : NodeIx} (h : Under f a n) : n = a ∨ (liveIn f n ∧ Under f a (f n).parent) := by
  cases h with
  | here => exact .inl rfl
  | step _ hn hu => exact .inr ⟨hn, hu⟩

theorem Under.live {a n : NodeIx} (ha : liveIn f a) (h : Under f a n) : liveIn f n := by
  rcases h.cases' with rfl | h
  · exact ha
  · exact h.1

theorem Under.rank_le {a n : NodeIx} {k : NodeIx → Nat} (hk : ∀ n, liveIn f n → k (f n).parent < k n) (h : Under f a n) :
    k a ≤ k n := by
  induction h with
  | here => exact le_refl _
  | step n hn _ ih => exact le_trans ih (le_of_lt (hk n hn))

/-- A slot lies in no subtree of its own children. -/
theorem TreeShape.not_under_child (h : TreeShape f) {t c : NodeIx} (hc : liveIn f c) (hp : (f c).parent = t) : ¬ Under f c t := by
  obtain ⟨k, hk⟩ := h.rank
  intro hu
  have h1 := hu.rank_le hk
  have h2 := hk c hc
  rw [hp] at h2
  omega

/-- A subtree is its top and the subtrees of its children. -/
theorem TreeShape.under_cases (h : TreeShape f) {c n : NodeIx} (hc : liveIn f c) (hu : Under f c n) :
    n = c ∨ ((f c).smallChild ≠ 0 ∧ Under f (f c).smallChild n) ∨ ((f c).largeChild ≠ 0 ∧ Under f (f c).largeChild n) := by
  induction hu with
  | here => exact .inl rfl
  | step n hn hu ih =>
    rcases ih with e | ⟨h1, h2⟩ | ⟨h1, h2⟩
    · rcases (h.up n hn).2 with e' | e'
      · rw [e] at e'
        refine .inr (.inl ⟨by rw [e']; exact hn.1, by rw [e']; exact .here⟩)
      · rw [e] at e'
        refine .inr (.inr ⟨by rw [e']; exact hn.1, by rw [e']; exact .here⟩)
    · exact .inr (.inl ⟨h1, .step n hn h2⟩)
    · exact .inr (.inr ⟨h1, .step n hn h2⟩)

/-- Every live slot lies under the root of the search tree. -/
theorem TreeShape.under_top (h : TreeShape f) {n : NodeIx} (hn : liveIn f n) :
    (f 1024).largeChild ≠ 0 ∧ Under f (f 1024).largeChild n := by
  obtain ⟨k, hk⟩ := h.rank
  generalize hm : k n = m
  induction m using Nat.strong_induction_on generalizing n with
  | _ m ih =>
    rcases (h.up n hn).1 with e | hp
    · rcases (h.up n hn).2 with e' | e'
      · rw [e, h.root.2] at e'
        exact absurd e'.symm hn.1
      · rw [e] at e'
        rw [e']
        exact ⟨hn.1, .here⟩
    · have := ih (k (f n).parent) (by have := hk n hn; omega) hp rfl
      exact ⟨this.1, .step n hn this.2⟩

/-- The end of the walk along `largeChild` holds the greatest key of the subtree (R153). -/
theorem LargeWalk.greatest (h : TreeShape f) (hO : Ordered f w) {a r : NodeIx} (hw : LargeWalk f a r) (ha : liveIn f a) :
    Under f a r ∧ ∀ m, Under f a m → m = r ∨ keyOf w (nodeToPos m) < keyOf w (nodeToPos r) := by
  induction hw with
  | here a hl =>
    refine ⟨.here, fun m hm => ?_⟩
    rcases h.under_cases ha hm with e | ⟨h1, h2⟩ | ⟨h1, _⟩
    · exact .inl e
    · exact .inr ((hO a ha).1 h1 m h2)
    · exact absurd hl h1
  | step a r hl _ ih =>
    have hc := h.large a (.inr ha) hl
    obtain ⟨hu, hg⟩ := ih hc.1
    have har := (hO a ha).2 hl r hu
    refine ⟨Under.trans (.step _ hc.1 (by rw [hc.2]; exact .here)) hu, fun m hm => ?_⟩
    rcases h.under_cases ha hm with rfl | ⟨h1, h2⟩ | ⟨_, h2⟩
    · exact .inr har
    · exact .inr (seq_lt_trans ((hO a ha).1 h1 m h2) har)
    · exact hg m h2

/-! ## Splicing -/

theorem spliced_under (h : TreeShape f) {old new : NodeIx} (ho : liveIn f old)
    (hn : ((f old).smallChild = 0 ∧ new = (f old).largeChild) ∨ ((f old).largeChild = 0 ∧ new = (f old).smallChild))
    {a n : NodeIx} (hu : Under (spliced f old new) a n) : Under f a n := by
  induction hu with
  | here => exact .here
  | step n hl _ ih =>
    obtain ⟨h1, h2⟩ := (spliced_live h ho hn n).mp hl
    by_cases e : n = new
    · have hp : (f n).parent = old := by
        have hs := h.small old (.inr ho)
        have hg := h.large old (.inr ho)
        have := h1.1
        rcases hn with ⟨_, e'⟩ | ⟨_, e'⟩
        · rw [e'] at e; rw [e] at this ⊢; exact (hg this).2
        · rw [e'] at e; rw [e] at this ⊢; exact (hs this).2
      have : (spliced f old new n).parent = (f old).parent := by
        simp only [spliced, h2, if_false]; rw [if_pos e]
      rw [this] at ih
      exact .step n h1 (by rw [hp]; exact .step old ho ih)
    · have : (spliced f old new n).parent = (f n).parent := by simp [spliced, h2, e]
      rw [this] at ih
      exact .step n h1 ih

theorem spliced_small (h : TreeShape f) {old new : NodeIx} (ho : liveIn f old)
    (hn : ((f old).smallChild = 0 ∧ new = (f old).largeChild) ∨ ((f old).largeChild = 0 ∧ new = (f old).smallChild))
    {t m : NodeIx} (ht : t ≠ old) (hc : (spliced f old new t).smallChild ≠ 0)
    (hu : Under (spliced f old new) (spliced f old new t).smallChild m) : (f t).smallChild ≠ 0 ∧ Under f (f t).smallChild m := by
  have hu' := spliced_under h ho hn hu
  by_cases e : t = (f old).parent ∧ (f (f old).parent).largeChild ≠ old
  · have e1 : (spliced f old new t).smallChild = new := by
      simp only [spliced, ht, if_false]; rw [if_pos e]
    have e2 : (f t).smallChild = old := by rw [e.1]; exact (h.up old ho).2.resolve_right e.2
    rw [e1] at hc hu'
    refine ⟨by rw [e2]; exact ho.1, ?_⟩
    rw [e2]
    have hs := h.small old (.inr ho)
    have hg := h.large old (.inr ho)
    have hnew : liveIn f new ∧ (f new).parent = old := by
      rcases hn with ⟨_, rfl⟩ | ⟨_, rfl⟩
      · exact hg hc
      · exact hs hc
    exact Under.trans (.step new hnew.1 (by rw [hnew.2]; exact .here)) hu'
  · have e1 : (spliced f old new t).smallChild = (f t).smallChild := by
      simp only [spliced, ht, if_false]
      rw [if_neg e]
    rw [e1] at hc hu'
    exact ⟨hc, hu'⟩

theorem spliced_large (h : TreeShape f) {old new : NodeIx} (ho : liveIn f old)
    (hn : ((f old).smallChild = 0 ∧ new = (f old).largeChild) ∨ ((f old).largeChild = 0 ∧ new = (f old).smallChild))
    {t m : NodeIx} (ht : t ≠ old) (hc : (spliced f old new t).largeChild ≠ 0)
    (hu : Under (spliced f old new) (spliced f old new t).largeChild m) : (f t).largeChild ≠ 0 ∧ Under f (f t).largeChild m := by
  have hu' := spliced_under h ho hn hu
  by_cases e : t = (f old).parent ∧ (f (f old).parent).largeChild = old
  · have e1 : (spliced f old new t).largeChild = new := by simp only [spliced, ht, if_false]; rw [if_pos e]
    have e2 : (f t).largeChild = old := by rw [e.1]; exact e.2
    rw [e1] at hc hu'
    refine ⟨by rw [e2]; exact ho.1, ?_⟩
    rw [e2]
    have hs := h.small old (.inr ho)
    have hg := h.large old (.inr ho)
    have hnew : liveIn f new ∧ (f new).parent = old := by
      rcases hn with ⟨_, rfl⟩ | ⟨_, rfl⟩
      · exact hg hc
      · exact hs hc
    exact Under.trans (.step new hnew.1 (by rw [hnew.2]; exact .here)) hu'
  · have e1 : (spliced f old new t).largeChild = (f t).largeChild := by
      simp only [spliced, ht, if_false]
      rw [if_neg e]
    rw [e1] at hc hu'
    exact ⟨hc, hu'⟩

theorem Ordered.splice (hO : Ordered f w) (h : TreeShape f) {old new : NodeIx} (ho : liveIn f old)
    (hn : ((f old).smallChild = 0 ∧ new = (f old).largeChild) ∨ ((f old).largeChild = 0 ∧ new = (f old).smallChild)) :
    Ordered (spliced f old new) w := by
  intro t ht
  obtain ⟨h1, h2⟩ := (spliced_live h ho hn t).mp ht
  refine ⟨fun hc m hu => ?_, fun hc m hu => ?_⟩
  · obtain ⟨a, b⟩ := spliced_small h ho hn h2 hc hu
    exact (hO t h1).1 a m b
  · obtain ⟨a, b⟩ := spliced_large h ho hn h2 hc hu
    exact (hO t h1).2 a m b

/-! ## Replacing -/

/-- The names of two slots exchanged. -/
def exchange (o x n : NodeIx) : NodeIx := if n = o then x else if n = x then o else n

theorem replaced_under (h : TreeShape f) {old new : NodeIx} (ho : liveIn f old) (hn : new ≠ 0) (hr : new ≠ 1024)
    (hd : (f new).parent = 0) {a n : NodeIx} (hu : Under (replaced f old new) a n) :
    Under f (exchange old new a) (exchange old new n) := by
  have hno : new ≠ old := by rintro rfl; exact ho.2.2 hd
  have hpo := h.parent_ne ho
  have hun := h.unlinked hn hr hd ho.1
  induction hu with
  | here => exact .here
  | step n hl _ ih =>
    rcases (replaced_live h ho hn hr hd n).mp hl with rfl | ⟨h1, h2⟩
    · have e1 : (replaced f old n n).parent = (f old).parent := by simp [replaced, hno]
      have e2 : exchange old n n = old := by simp [exchange, hno]
      have e3 : exchange old n (f old).parent = (f old).parent := by simp [exchange, hpo, hun.2.2]
      rw [e1, e3] at ih
      rw [e2]
      exact .step old ho ih
    · have h3 : n ≠ new := by rintro rfl; exact h1.2.2 hd
      have e2 : exchange old new n = n := by simp [exchange, h2, h3]
      rw [e2]
      have hu1 := h.unlinked hn hr hd h1.1
      by_cases hc : n = (f old).smallChild ∨ n = (f old).largeChild
      · have e1 : (replaced f old new n).parent = new := by simp [replaced, h2, h3, hc]
        have e3 : exchange old new new = old := by simp [exchange, hno]
        have hp : (f n).parent = old := by
          rcases hc with e | e
          · have := (h.small old (.inr ho) (by rw [← e]; exact h1.1)).2; rwa [← e] at this
          · have := (h.large old (.inr ho) (by rw [← e]; exact h1.1)).2; rwa [← e] at this
        rw [e1, e3] at ih
        exact .step n h1 (by rw [hp]; exact ih)
      · have e1 : (replaced f old new n).parent = (f n).parent := by simp [replaced, h2, h3, hc]
        have hq : (f n).parent ≠ old := by
          intro e
          rcases (h.up n h1).2 with e' | e'
          · exact hc (.inl (by rw [e] at e'; exact e'.symm))
          · exact hc (.inr (by rw [e] at e'; exact e'.symm))
        have e3 : exchange old new (f n).parent = (f n).parent := by simp [exchange, hq, hu1.2.2]
        rw [e1, e3] at ih
        exact .step n h1 ih

/-- Replacing keeps the order when the new key stands where the old one stood. -/
theorem Ordered.replace (hO : Ordered f w) (h : TreeShape f) {old new : NodeIx} (ho : liveIn f old) (hn : new ≠ 0)
    (hr : new ≠ 1024) (hd : (f new).parent = 0)
    (hA : (f old).smallChild ≠ 0 → ∀ m, Under f (f old).smallChild m → keyOf w (nodeToPos m) < keyOf w (nodeToPos new))
    (hB : (f old).largeChild ≠ 0 → ∀ m, Under f (f old).largeChild m → keyOf w (nodeToPos new) < keyOf w (nodeToPos m))
    (hC : ∀ t, liveIn f t → (f t).smallChild ≠ 0 → Under f (f t).smallChild old → keyOf w (nodeToPos new) < keyOf w (nodeToPos t))
    (hD : ∀ t, liveIn f t → (f t).largeChild ≠ 0 → Under f (f t).largeChild old → keyOf w (nodeToPos t) < keyOf w (nodeToPos new)) :
    Ordered (replaced f old new) w := by
  have hno : new ≠ old := by rintro rfl; exact ho.2.2 hd
  have hun := h.unlinked hn hr hd ho.1
  have exn : exchange old new new = old := by simp [exchange, hno]
  have exo : ∀ n, n ≠ old → n ≠ new → exchange old new n = n := fun n a b => by simp [exchange, a, b]
  -- a slot of the new tree is not `old`
  have notOld : ∀ a n, a ≠ old → Under (replaced f old new) a n → n ≠ old := by
    intro a n ha hu
    rcases hu.cases' with rfl | ⟨hl, _⟩
    · exact ha
    · rcases (replaced_live h ho hn hr hd n).mp hl with rfl | ⟨_, h2⟩
      · exact hno
      · exact h2
  intro t ht
  rcases (replaced_live h ho hn hr hd t).mp ht with rfl | ⟨ht1, ht2⟩
  · have er : replaced f old t t = f old := by simp [replaced, hno]
    rw [er]
    refine ⟨fun hc m hu => ?_, fun hc m hu => ?_⟩
    · have hcl := h.small old (.inr ho) hc
      have hco : (f old).smallChild ≠ old := by
        intro e; rw [e] at hcl; exact h.parent_ne ho hcl.2
      have hx := replaced_under h ho hn hr hd hu
      rw [exo _ hco hun.1] at hx
      have hmo := notOld _ m hco hu
      by_cases hmt : m = t
      · rw [hmt, exn] at hx
        exact absurd hx (h.not_under_child hcl.1 hcl.2)
      · rw [exo m hmo hmt] at hx
        exact hA hc m hx
    · have hcl := h.large old (.inr ho) hc
      have hco : (f old).largeChild ≠ old := by
        intro e; rw [e] at hcl; exact h.parent_ne ho hcl.2
      have hx := replaced_under h ho hn hr hd hu
      rw [exo _ hco hun.2.1] at hx
      have hmo := notOld _ m hco hu
      by_cases hmt : m = t
      · rw [hmt, exn] at hx
        exact absurd hx (h.not_under_child hcl.1 hcl.2)
      · rw [exo m hmo hmt] at hx
        exact hB hc m hx
  · have ht3 : t ≠ new := by rintro rfl; exact ht1.2.2 hd
    have hut := h.unlinked hn hr hd ht1.1
    refine ⟨fun hc m hu => ?_, fun hc m hu => ?_⟩
    · have ec : exchange old new (replaced f old new t).smallChild = (f t).smallChild ∧ (replaced f old new t).smallChild ≠ old ∧
          (f t).smallChild ≠ 0 := by
        simp only [replaced, ht2, ht3, if_false]
        by_cases e : (f t).smallChild = old
        · have hp := (h.small t (.inr ht1) (by rw [e]; exact ho.1)).2
          rw [e] at hp
          simp [hp, e, exn, hno, ho.1]
        · have hz : (replaced f old new t).smallChild = (f t).smallChild := by
            simp only [replaced, ht2, ht3, if_false]
            rw [if_neg]; rintro ⟨rfl, e'⟩; exact e e'
          have : ¬ (t = (f old).parent ∧ (f (f old).parent).smallChild = old) := by rintro ⟨rfl, e'⟩; exact e e'
          rw [if_neg this]
          rw [hz] at hc
          exact ⟨exo _ e hut.1, e, hc⟩
      have hx := replaced_under h ho hn hr hd hu
      rw [ec.1] at hx
      have hmo := notOld _ m ec.2.1 hu
      by_cases hmn : m = new
      · rw [hmn, exn] at hx
        rw [hmn]
        exact hC t ht1 ec.2.2 hx
      · rw [exo m hmo hmn] at hx
        exact (hO t ht1).1 ec.2.2 m hx
    · have ec : exchange old new (replaced f old new t).largeChild = (f t).largeChild ∧ (replaced f old new t).largeChild ≠ old ∧
          (f t).largeChild ≠ 0 := by
        simp only [replaced, ht2, ht3, if_false]
        by_cases e : (f t).largeChild = old
        · have hp := (h.large t (.inr ht1) (by rw [e]; exact ho.1)).2
          rw [e] at hp
          simp [hp, e, exn, hno, ho.1]
        · have hz : (replaced f old new t).largeChild = (f t).largeChild := by
            simp only [replaced, ht2, ht3, if_false]
            rw [if_neg]; rintro ⟨rfl, e'⟩; exact e e'
          have : ¬ (t = (f old).parent ∧ (f (f old).parent).largeChild = old) := by rintro ⟨rfl, e'⟩; exact e e'
          rw [if_neg this]
          rw [hz] at hc
          exact ⟨exo _ e hut.2.1, e, hc⟩
      have hx := replaced_under h ho hn hr hd hu
      rw [ec.1] at hx
      have hmo := notOld _ m ec.2.1 hu
      by_cases hmn : m = new
      · rw [hmn, exn] at hx
        rw [hmn]
        exact hD t ht1 ec.2.2 hx
      · rw [exo m hmo hmn] at hx
        exact (hO t ht1).2 ec.2.2 m hx

/-! ## A new leaf -/

theorem leafed_under (h : TreeShape f) {e x : NodeIx} (he : liveIn f e) (hn : x ≠ 0) (hr : x ≠ 1024) (hd : (f x).parent = 0)
    (large : Bool) {a n : NodeIx} (hu : Under (leafed f e x large) a n) :
    (n = x ∧ (a = x ∨ Under f a e)) ∨ (n ≠ x ∧ a ≠ x ∧ Under f a n) := by
  have hex : e ≠ x := by rintro rfl; exact he.2.2 hd
  induction hu with
  | here =>
    by_cases e' : a = x
    · exact .inl ⟨e', .inl e'⟩
    · exact .inr ⟨e', e', .here⟩
  | step n hl _ ih =>
    by_cases e' : n = x
    · have ep : (leafed f e x large n).parent = e := by simp [leafed, e']
      rw [ep] at ih
      rcases ih with ⟨c, _⟩ | ⟨_, _, c⟩
      · exact absurd c hex
      · exact .inl ⟨e', .inr c⟩
    · have hl' : liveIn f n := ((leafed_live he hn hr large n).mp hl).resolve_left e'
      have ep : (leafed f e x large n).parent = (f n).parent := by
        by_cases e2 : n = e
        · subst e2; simp [leafed, e']
        · simp [leafed, e', e2]
      rw [ep] at ih
      rcases ih with ⟨c, _⟩ | ⟨_, c1, c⟩
      · exact absurd c (h.unlinked hn hr hd hl'.1).2.2
      · exact .inr ⟨e', c1, .step n hl' c⟩

theorem Ordered.leaf (hO : Ordered f w) (h : TreeShape f) {e x : NodeIx} (he : liveIn f e) (hn : x ≠ 0) (hr : x ≠ 1024)
    (hd : (f x).parent = 0) (large : Bool)
    (hside : if large then keyOf w (nodeToPos e) < keyOf w (nodeToPos x) else keyOf w (nodeToPos x) < keyOf w (nodeToPos e))
    (hC : ∀ t, liveIn f t → (f t).smallChild ≠ 0 → Under f (f t).smallChild e → keyOf w (nodeToPos x) < keyOf w (nodeToPos t))
    (hD : ∀ t, liveIn f t → (f t).largeChild ≠ 0 → Under f (f t).largeChild e → keyOf w (nodeToPos t) < keyOf w (nodeToPos x)) :
    Ordered (leafed f e x large) w := by
  have onlyX : ∀ m, Under (leafed f e x large) x m → m = x := by
    intro m hu
    rcases leafed_under h he hn hr hd large hu with ⟨c, _⟩ | ⟨_, c, _⟩
    · exact c
    · exact absurd rfl c
  intro t ht
  by_cases htx : t = x
  · subst htx; simp [leafed]
  have ht1 : liveIn f t := ((leafed_live he hn hr large t).mp ht).resolve_left htx
  have hut := h.unlinked hn hr hd ht1.1
  refine ⟨fun hc m hu => ?_, fun hc m hu => ?_⟩
  · by_cases hs : t = e ∧ large = false
    · obtain ⟨rfl, rfl⟩ := hs
      have ec : (leafed f t x false t).smallChild = x := by simp [leafed, htx]
      rw [ec] at hu
      rw [onlyX m hu]
      simpa using hside
    · have ec : (leafed f e x large t).smallChild = (f t).smallChild := by
        simp only [leafed, htx, if_false]
        by_cases e2 : t = e
        · subst e2
          have : large = true := by cases large <;> simp_all
          simp [this]
        · simp [e2]
      rw [ec] at hc hu
      rcases leafed_under h he hn hr hd large hu with ⟨rfl, c | c⟩ | ⟨_, _, c⟩
      · exact absurd c hut.1
      · exact hC t ht1 hc c
      · exact (hO t ht1).1 hc m c
  · by_cases hs : t = e ∧ large = true
    · obtain ⟨rfl, rfl⟩ := hs
      have ec : (leafed f t x true t).largeChild = x := by simp [leafed, htx]
      rw [ec] at hu
      rw [onlyX m hu]
      simpa using hside
    · have ec : (leafed f e x large t).largeChild = (f t).largeChild := by
        simp only [leafed, htx, if_false]
        by_cases e2 : t = e
        · subst e2
          have : large = false := by cases large <;> simp_all
          simp [this]
        · simp [e2]
      rw [ec] at hc hu
      rcases leafed_under h he hn hr hd large hu with ⟨rfl, c | c⟩ | ⟨_, _, c⟩
      · exact absurd c hut.2.1
      · exact hD t ht1 hc c
      · exact (hO t ht1).2 hc m c

/-! ## The search -/

/-- The key of `new` stands on the right side of every slot above `v`. -/
def Sided (f : NodeIx → NodeRec) (w : Memory) (new : Pos) (v : NodeIx) : Prop :=
  (∀ t, liveIn f t → (f t).smallChild ≠ 0 → Under f (f t).smallChild v → keyOf w new < keyOf w (nodeToPos t)) ∧
  (∀ t, liveIn f t → (f t).largeChild ≠ 0 → Under f (f t).largeChild v → keyOf w (nodeToPos t) < keyOf w new)

theorem sided_top (h : TreeShape f) (new : Pos) (hroot : (f 1024).largeChild ≠ 0) : Sided f w new (f 1024).largeChild := by
  have hp := (h.large 1024 (.inl rfl) hroot).2
  have key : ∀ t c, liveIn f t → liveIn f c → (f c).parent = t → ¬ Under f c (f 1024).largeChild := by
    intro t c ht hc hcp hu
    rcases hu.cases' with e | ⟨_, hu⟩
    · rw [e] at hp
      rw [hcp] at hp
      exact ht.2.1 hp
    · rw [hp] at hu
      rcases hu.cases' with e | ⟨hl, _⟩
      · exact hc.2.1 e.symm
      · exact hl.2.1 rfl
  refine ⟨fun t ht hc hu => ?_, fun t ht hc hu => ?_⟩
  · have := h.small t (.inr ht) hc
    exact absurd hu (key t _ ht this.1 this.2)
  · have := h.large t (.inr ht) hc
    exact absurd hu (key t _ ht this.1 this.2)

theorem shared_eq_iff {new : Pos} {t : NodeIx} : shared w new t = 17 ↔ keyOf w new = keyOf w (nodeToPos t) := by
  unfold shared
  constructor
  · intro h; exact eq_of_commonPrefix (by simp) (by rw [h]; simp)
  · intro h; rw [h, commonPrefix_self]; simp

theorem key_lt_of_not {new : Pos} {t : NodeIx} (h : shared w new t ≠ 17) (hk : ¬ keyOf w (nodeToPos t) < keyOf w new) :
    keyOf w new < keyOf w (nodeToPos t) := by
  rcases seq_trichotomy (a := keyOf w new) (b := keyOf w (nodeToPos t)) (by simp) with c | c | c
  · exact c
  · exact absurd (shared_eq_iff.mpr c) h
  · exact absurd c hk

theorem sided_step (h : TreeShape f) {new : Pos} {t : NodeIx} (ht : liveIn f t) (hs : Sided f w new t)
    (h17 : shared w new t ≠ 17) (hc : childToward f w new t ≠ 0) : Sided f w new (childToward f w new t) := by
  have hcl := childToward_live h ht hc
  refine ⟨fun u hu hn hx => ?_, fun u hu hn hx => ?_⟩
  · rcases hx.cases' with e | ⟨_, hx⟩
    · have hp := (h.small u (.inr hu) hn).2
      rw [← e, hcl.2] at hp
      subst hp
      unfold childToward at e
      split at e
      · exact absurd (h.apart t (.inr ht) e.symm) hn
      · rename_i hk; exact key_lt_of_not h17 hk
    · rw [hcl.2] at hx; exact hs.1 u hu hn hx
  · rcases hx.cases' with e | ⟨_, hx⟩
    · have hp := (h.large u (.inr hu) hn).2
      rw [← e, hcl.2] at hp
      subst hp
      unfold childToward at e
      split at e
      · rename_i hk; exact hk
      · have := h.apart t (.inr ht) e
        rw [e] at this
        exact absurd this hn
    · rw [hcl.2] at hx; exact hs.2 u hu hn hx

theorem Visits.sided (h : TreeShape f) {new : Pos} {t : NodeIx} {path : List NodeIx} (hv : Visits f w new t path)
    (ht : liveIn f t) (hs : Sided f w new t) : ∀ x ∈ path, Sided f w new x := by
  induction hv with
  | equal t _ => intro x hx; rw [List.mem_singleton] at hx; rw [hx]; exact hs
  | last t _ _ => intro x hx; rw [List.mem_singleton] at hx; rw [hx]; exact hs
  | step t p h1 h2 _ ih =>
    intro x hx
    rcases List.mem_cons.mp hx with rfl | hx
    · exact hs
    · exact ih (childToward_live h ht h2).1 (sided_step h ht hs h1 h2) x hx

/-- A search tree is searched right: no slot of the subtree shares more with the key than some slot visited (R188 (b)). -/
theorem Visits.longest (h : TreeShape f) (hO : Ordered f w) {new : Pos} {t : NodeIx} {path : List NodeIx}
    (hv : Visits f w new t path) (ht : liveIn f t) {m : NodeIx} (hm : Under f t m) :
    ∃ x ∈ path, shared w new m ≤ shared w new x := by
  have side : ∀ t, liveIn f t → shared w new t ≠ 17 → ∀ m, Under f t m → (childToward f w new t = 0 ∨ ¬ Under f (childToward f w new t) m) →
      shared w new m ≤ shared w new t := by
    intro t ht h17 m hm hnot
    rcases h.under_cases ht hm with rfl | ⟨h1, h2⟩ | ⟨h1, h2⟩
    · exact le_refl _
    · have hk := (hO t ht).1 h1 m h2
      by_cases hlt : keyOf w (nodeToPos t) < keyOf w new
      · have := (commonPrefix_between hk hlt).2
        unfold shared
        rw [commonPrefix_comm (keyOf w new), commonPrefix_comm (keyOf w new)]
        exact this
      · exfalso
        unfold childToward at hnot
        rw [if_neg hlt] at hnot
        rcases hnot with e | e
        · exact h1 e
        · exact e h2
    · have hk := (hO t ht).2 h1 m h2
      by_cases hlt : keyOf w (nodeToPos t) < keyOf w new
      · exfalso
        unfold childToward at hnot
        rw [if_pos hlt] at hnot
        rcases hnot with e | e
        · exact h1 e
        · exact e h2
      · exact (commonPrefix_between (key_lt_of_not h17 hlt) hk).1
  induction hv with
  | equal t h17 => exact ⟨t, by simp, by rw [h17]; exact shared_le _ _ _⟩
  | last t h17 hz => exact ⟨t, by simp, side t ht h17 m hm (.inl hz)⟩
  | step t p h17 hz hp ih =>
    by_cases hu : Under f (childToward f w new t) m
    · obtain ⟨x, hx, hl⟩ := ih (childToward_live h ht hz).1 hu
      exact ⟨x, List.mem_cons_of_mem _ hx, hl⟩
    · exact ⟨t, by simp, side t ht h17 m hm (.inr hu)⟩

/-! ## AddNode and DeleteNode -/

theorem Ordered.add (hO : Ordered f w) (h : TreeShape f) {new : Pos} {e : NodeIx} (he : liveIn f e) (hs : Sided f w new e)
    (hn : new ≠ 0) (hd : (f (posToNode new)).parent = 0) : Ordered (added f w new e) w := by
  have hx0 : posToNode new ≠ 0 := fun c => hn (posToNode_eq_zero.mp c)
  have hxr := posToNode_ne_root new
  unfold added
  by_cases h17 : shared w new e = 17
  · rw [if_pos h17]
    have hk := shared_eq_iff.mp h17
    refine hO.replace h he hx0 hxr hd ?_ ?_ ?_ ?_ <;> rw [nodeToPos_posToNode] <;> rw [hk]
    · exact fun hc m hu => (hO e he).1 hc m hu
    · exact fun hc m hu => (hO e he).2 hc m hu
    · exact fun t ht hc hu => (hO t ht).1 hc e hu
    · exact fun t ht hc hu => (hO t ht).2 hc e hu
  · rw [if_neg h17]
    refine hO.leaf h he hx0 hxr hd _ ?_ ?_ ?_ <;> rw [nodeToPos_posToNode]
    · by_cases hk : keyOf w (nodeToPos e) < keyOf w new
      · simp [hk]
      · simpa [hk] using key_lt_of_not h17 hk
    · exact hs.1
    · exact hs.2

theorem Ordered.delete (hO : Ordered f w) (h : TreeShape f) {x r : NodeIx} (hx : liveIn f x)
    (hr : (f x).smallChild ≠ 0 → (f x).largeChild ≠ 0 →
      LargeWalk f (f x).smallChild r ∧ liveIn f r ∧ Under f (f x).smallChild r ∧ (f r).largeChild = 0) :
    Ordered (deleted f x r) w := by
  unfold deleted
  by_cases hl : (f x).largeChild = 0
  · rw [if_pos hl]; exact hO.splice h hx (.inr ⟨hl, rfl⟩)
  rw [if_neg hl]
  by_cases hs : (f x).smallChild = 0
  · rw [if_pos hs]; exact hO.splice h hx (.inl ⟨hs, rfl⟩)
  rw [if_neg hs]
  obtain ⟨hw, hrl, hru, hr0⟩ := hr hs hl
  have hsm := h.small x (.inr hx) hs
  have hrx : r ≠ x := by rintro rfl; exact h.not_under_child hsm.1 hsm.2 hru
  have hc : ((f r).smallChild = 0 ∧ (f r).smallChild = (f r).largeChild) ∨
      ((f r).largeChild = 0 ∧ (f r).smallChild = (f r).smallChild) := .inr ⟨hr0, rfl⟩
  have hT := h.splice hrl hc
  have hL := spliced_live h hrl hc
  have hx1 : liveIn (spliced f r (f r).smallChild) x := (hL x).mpr ⟨hx, hrx.symm⟩
  have hd1 : (spliced f r (f r).smallChild r).parent = 0 := by simp [spliced, NodeRec.zero]
  have hg := hw.greatest h hO hsm.1
  have hrk := (hO x hx).1 hs r hru
  have hux : Under f x r := Under.trans (.step _ hsm.1 (by rw [hsm.2]; exact .here)) hru
  refine (hO.splice h hrl hc).replace hT hx1 hrl.1 hrl.2.1 hd1 ?_ ?_ ?_ ?_
  · intro hcn m hu
    have hmr : m ≠ r := by
      rcases hu.cases' with rfl | ⟨hl', _⟩
      · have := (hT.small x (.inr hx1) hcn).1
        exact ((hL _).mp this).2
      · exact ((hL _).mp hl').2
    exact (hg.2 m (spliced_small h hrl hc hrx.symm hcn hu).2).resolve_left hmr
  · intro hcn m hu
    obtain ⟨a, b⟩ := spliced_large h hrl hc hrx.symm hcn hu
    exact seq_lt_trans hrk ((hO x hx).2 a m b)
  · intro t ht hcn hu
    obtain ⟨h1, h2⟩ := (hL t).mp ht
    obtain ⟨a, b⟩ := spliced_small h hrl hc h2 hcn hu
    exact (hO t h1).1 a r (b.trans hux)
  · intro t ht hcn hu
    obtain ⟨h1, h2⟩ := (hL t).mp ht
    obtain ⟨a, b⟩ := spliced_large h hrl hc h2 hcn hu
    exact (hO t h1).2 a r (b.trans hux)

end Order

end Sys2Proof.Machine
end

