-- ==== Sys2Proof/Laws/Frame.lean ====
section
/-! SUPPORT. The frames of the operations, in every state whatever: what each may write when it returns and when a check stops it,
and that it keeps `Node` in its canonical form. -/

namespace Sys2Proof.Machine

/-! ## Tree operations -/

/-- Only `Node` and the scratch registers of the tree operations changed, and `Node` is in its canonical form if it was. -/
def TreeOnly (s t : State) : Prop :=
  (∃ m a b c, t = { s with node := m, par := a, nxt := b, repl := c }) ∧
  (NodeMemory.wf s.node = true → NodeMemory.wf t.node = true)

theorem TreeOnly.refl (s : State) : TreeOnly s s := ⟨⟨s.node, s.par, s.nxt, s.repl, rfl⟩, id⟩

theorem TreeOnly.trans {s t u : State} (h1 : TreeOnly s t) (h2 : TreeOnly t u) : TreeOnly s u := by
  obtain ⟨⟨m, a, b, c, rfl⟩, w1⟩ := h1
  obtain ⟨⟨m', a', b', c', rfl⟩, w2⟩ := h2
  exact ⟨⟨m', a', b', c', rfl⟩, fun h => w2 (w1 h)⟩

theorem TreeOnly.frame {s t : State} (h : TreeOnly s t) :
    t = { s with node := t.node, par := t.par, nxt := t.nxt, repl := t.repl } := by
  obtain ⟨⟨m, a, b, c, rfl⟩, -⟩ := h; rfl

theorem TreeOnly.of_nodeOnly {s t : State} (h : NodeOnly s t) (w : NodeMemory.wf s.node = true → NodeMemory.wf t.node = true) :
    TreeOnly s t := by
  obtain ⟨m, rfl⟩ := h
  exact ⟨⟨m, s.par, s.nxt, s.repl, rfl⟩, w⟩

theorem TreeOnly.putNode (s : State) (n : NodeIx) (r : NodeRec) : TreeOnly s (s.putNode n r) :=
  .of_nodeOnly (putNode_nodeOnly s n r) (putNode_wf n r)
theorem TreeOnly.putParent (s : State) (n v : NodeIx) : TreeOnly s (s.putParent n v) :=
  .of_nodeOnly (putParent_nodeOnly s n v) (putParent_wf n v)
theorem TreeOnly.putSmall (s : State) (n v : NodeIx) : TreeOnly s (s.putSmall n v) :=
  .of_nodeOnly (putSmall_nodeOnly s n v) (putSmall_wf n v)
theorem TreeOnly.putLarge (s : State) (n v : NodeIx) : TreeOnly s (s.putLarge n v) :=
  .of_nodeOnly (putLarge_nodeOnly s n v) (putLarge_wf n v)
theorem TreeOnly.takeOver (s : State) (o n : NodeIx) : TreeOnly s (s.takeOver o n) :=
  .of_nodeOnly (takeOver_nodeOnly s o n) (takeOver_wf o n)
theorem TreeOnly.setPar (s : State) (p : NodeIx) : TreeOnly s { s with par := p } := ⟨⟨s.node, p, s.nxt, s.repl, rfl⟩, id⟩
theorem TreeOnly.setNxt (s : State) (p : NodeIx) : TreeOnly s { s with nxt := p } := ⟨⟨s.node, s.par, p, s.repl, rfl⟩, id⟩
theorem TreeOnly.setRepl (s : State) (p : NodeIx) : TreeOnly s { s with repl := p } := ⟨⟨s.node, s.par, s.nxt, p, rfl⟩, id⟩

/-- How a tree operation ends: it returns, or a check stops it. -/
def TreeEnds {α : Type} (s : State) (x : Res α) : Prop :=
  x.Sat (fun _ t => TreeOnly s t) (fun t => ∃ u, TreeOnly s u ∧ t = u.enterFault .invariantViolation)

theorem TreeEnds.andThen {α β : Type} {s : State} {x : Res α} {k : α → State → Res β} (hx : TreeEnds s x)
    (hk : ∀ a t, TreeEnds t (k a t)) : TreeEnds s (x.andThen k) := by
  refine Res.Sat.andThen hx fun a t ht => (hk a t).mono (fun _ u hu => ht.trans hu) ?_
  rintro v ⟨u, hu, rfl⟩
  exact ⟨u, ht.trans hu, rfl⟩

theorem initTree_ends (p : Pos) (s : State) : TreeEnds s (initTree p s) := by
  unfold initTree
  split
  · trivial
  · exact (TreeOnly.putNode _ _ _).trans (TreeOnly.putNode _ _ _)

theorem contractNode_ends (o n : NodeIx) (s : State) : TreeEnds s (contractNode o n s) := by
  have h1 := (TreeOnly.setPar s (s.nodeAt o).parent).trans (TreeOnly.putParent _ n (s.nodeAt o).parent)
  unfold contractNode
  simp only
  split
  · exact (h1.trans (TreeOnly.putLarge _ _ _)).trans (TreeOnly.putNode _ _ _)
  · split
    · exact (h1.trans (TreeOnly.putSmall _ _ _)).trans (TreeOnly.putNode _ _ _)
    · exact ⟨_, h1, rfl⟩

theorem replaceNode_ends (o n : NodeIx) (s : State) : TreeEnds s (replaceNode o n s) := by
  have h1 := TreeOnly.setPar s (s.nodeAt o).parent
  unfold replaceNode
  simp only
  split
  · exact (h1.trans (TreeOnly.putSmall _ _ _)).trans (TreeOnly.takeOver _ _ _)
  · split
    · exact (h1.trans (TreeOnly.putLarge _ _ _)).trans (TreeOnly.takeOver _ _ _)
    · exact ⟨_, h1, rfl⟩

theorem findNextNode_ends (n : NodeIx) (s : State) : TreeEnds s (findNextNode n s) := by
  unfold findNextNode
  split
  · exact ⟨s, .refl s, rfl⟩
  · split
    · trivial
    · exact TreeOnly.setNxt s _

theorem deleteNode_ends (n : Pos) (s : State) : TreeEnds s (deleteNode n s) := by
  unfold deleteNode
  simp only
  split
  · exact .refl s
  split
  · exact contractNode_ends _ _ _
  split
  · exact contractNode_ends _ _ _
  refine (findNextNode_ends _ _).andThen fun r t => ?_
  have h1 : TreeEnds { t with repl := r } ((contractNode r (State.nodeAt { t with repl := r } r).smallChild { t with repl := r }).andThen
      fun _ s => replaceNode (posToNode n) r s) := (contractNode_ends _ _ _).andThen fun _ u => replaceNode_ends _ _ u
  refine h1.mono (fun _ u hu => (TreeOnly.setRepl t r).trans hu) ?_
  rintro v ⟨u, hu, rfl⟩
  exact ⟨u, (TreeOnly.setRepl t r).trans hu, rfl⟩

/-! ## AddNode -/

/-- Only `Node` and the scratch registers changed, and `Node` is in its canonical form if it was. -/
def AddOnly (s t : State) : Prop :=
  (∃ m a b c d e f g h, t = { s with node := m, par := a, nxt := b, repl := c, testNode := d, i := e, delta := f, bestLen := g, bestPos := h }) ∧
  (NodeMemory.wf s.node = true → NodeMemory.wf t.node = true)

theorem AddOnly.refl (s : State) : AddOnly s s :=
  ⟨⟨s.node, s.par, s.nxt, s.repl, s.testNode, s.i, s.delta, s.bestLen, s.bestPos, rfl⟩, id⟩

theorem AddOnly.trans {s t u : State} (h1 : AddOnly s t) (h2 : AddOnly t u) : AddOnly s u := by
  obtain ⟨⟨m, a, b, c, d, e, f, g, h, rfl⟩, w1⟩ := h1
  obtain ⟨⟨m', a', b', c', d', e', f', g', h', rfl⟩, w2⟩ := h2
  exact ⟨⟨m', a', b', c', d', e', f', g', h', rfl⟩, fun h => w2 (w1 h)⟩

theorem AddOnly.frame {s t : State} (h : AddOnly s t) :
    t = { s with node := t.node, par := t.par, nxt := t.nxt, repl := t.repl, testNode := t.testNode, i := t.i,
                 delta := t.delta, bestLen := t.bestLen, bestPos := t.bestPos } := by
  obtain ⟨⟨m, a, b, c, d, e, f, g, h, rfl⟩, -⟩ := h; rfl

theorem TreeOnly.addOnly {s t : State} (h : TreeOnly s t) : AddOnly s t := by
  obtain ⟨⟨m, a, b, c, rfl⟩, w⟩ := h
  exact ⟨⟨m, a, b, c, s.testNode, s.i, s.delta, s.bestLen, s.bestPos, rfl⟩, w⟩

/-- How AddNode ends: it returns, or a check stops it. -/
def AddEnds {α : Type} (s : State) (x : Res α) : Prop :=
  x.Sat (fun _ t => AddOnly s t) (fun t => ∃ u, AddOnly s u ∧ t = u.enterFault .invariantViolation)

theorem searchLoop_ends (new : Pos) (fuel : Nat) (s : State) : AddEnds s (searchLoop new fuel s) := by
  induction fuel generalizing s with
  | zero => trivial
  | succ fuel ih =>
    have h1 : AddOnly s ((s.compare new (nodeToPos s.testNode)).recordBest) := by
      unfold State.recordBest State.compare
      split
      · exact ⟨⟨s.node, s.par, s.nxt, s.repl, s.testNode, _, _, _, _, rfl⟩, id⟩
      · exact ⟨⟨s.node, s.par, s.nxt, s.repl, s.testNode, _, _, s.bestLen, s.bestPos, rfl⟩, id⟩
    unfold searchLoop
    simp only
    generalize (s.compare new (nodeToPos s.testNode)).recordBest = t at h1
    have again : ∀ n, AddEnds s (searchLoop new fuel { t with testNode := n }) := by
      intro n
      have h2 : AddOnly t { t with testNode := n } :=
        ⟨⟨t.node, t.par, t.nxt, t.repl, n, t.i, t.delta, t.bestLen, t.bestPos, rfl⟩, id⟩
      refine (ih { t with testNode := n }).mono (fun _ u hu => (h1.trans h2).trans hu) ?_
      rintro v ⟨u, hu, rfl⟩
      exact ⟨u, (h1.trans h2).trans hu, rfl⟩
    split
    · refine Res.Sat.andThen (q := fun _ u => AddOnly s u) ?_ fun _ u hu => hu
      refine (replaceNode_ends t.testNode (posToNode new) t).mono (fun _ u hu => h1.trans hu.addOnly) ?_
      rintro v ⟨u, hu, rfl⟩
      exact ⟨u, h1.trans hu.addOnly, rfl⟩
    split
    · split
      · obtain ⟨-, l, w⟩ := linkLarge_spec t (posToNode new)
        exact h1.trans (TreeOnly.of_nodeOnly l w).addOnly
      · exact again _
    · split
      · obtain ⟨-, l, w⟩ := linkSmall_spec t (posToNode new)
        exact h1.trans (TreeOnly.of_nodeOnly l w).addOnly
      · exact again _

theorem addNode_ends (new : Pos) (s : State) : AddEnds s (addNode new s) := by
  unfold addNode
  split
  · exact .refl s
  split
  · exact ⟨s, .refl s, rfl⟩
  simp only
  have h1 : AddOnly s { s with testNode := (s.nodeAt Config.treeRoot).largeChild } :=
    ⟨⟨s.node, s.par, s.nxt, s.repl, _, s.i, s.delta, s.bestLen, s.bestPos, rfl⟩, id⟩
  split
  · exact ⟨_, h1, rfl⟩
  · have h2 : AddOnly s { s with testNode := (s.nodeAt Config.treeRoot).largeChild, bestLen := 0, bestPos := s.matchPos } :=
      ⟨⟨s.node, s.par, s.nxt, s.repl, _, s.i, s.delta, _, _, rfl⟩, id⟩
    refine (searchLoop_ends new 1025 _).mono (fun _ u hu => h2.trans hu) ?_
    rintro v ⟨u, hu, rfl⟩
    exact ⟨u, h2.trans hu, rfl⟩

/-! ## Emission -/

/-- Every operation that puts bits out is a sequence of WriteBits; EmitEos then enters `S_DONE`. -/
theorem exec_emission {s : State} {i : Instr} {bits : List Bool} (h : s.emission i = some bits) :
    exec i s = if i = .emitEos then (putBits bits s).outcome fun _ s => s.enterDone
      else (putBits bits s).outcome fun _ s => s := by
  cases i <;> simp only [State.emission, Option.some.injEq, reduceCtorEq, Option.ite_none_right_eq_some,
    Option.ite_none_left_eq_some] at h
  case literal b => subst h; simp [exec, execLiteral, emitLiteralRecord_byte]
  case matchRecord p l =>
    obtain ⟨hp, rfl⟩ := h
    simp only [exec, execMatchRecord, hp, if_false]
    rw [emitMatchRecord_fields p _ l (by simp)]
    simp
  case eos => subst h; simp [exec, execEos, emitEosRecord_eq_putBits]
  case writeBit b => subst h; simp [exec, execWriteBit, writeBit_eq_putBits]
  case writeBits v k =>
    obtain ⟨hk, rfl⟩ := h
    simp [exec, execWriteBits, hk, writeBits_eq_putBits, msbBits_eq_range]
  case emitLiteral => subst h; simp [exec, execEmitLiteral, emitLiteral, emitLiteralRecord_byte]
  case emitMatch =>
    obtain ⟨hk, rfl⟩ := h
    have : ¬ (s.matchPos = 0 ∨ BitVec.ofNat 5 Config.lookAhead < s.matchLen) := hk
    simp only [exec, execEmitMatch, emitMatch, this, if_false, emitMatchRecord_length]
    simp
  case emitEos =>
    subst h
    simp only [exec, execEmitEos, emitEos, emitEosRecord_eq_putBits, if_true]
    cases putBits eosBits s <;> rfl

end Sys2Proof.Machine
end

