-- ==== Sys2Proof/Laws/Advance.lean ====
section
/-! SUPPORT. The steps of an advance (43_driver.md R207) in a tree whose live slots lie in the window behind `winPos`: the delete of
step 3a and the AddNode of step 3d, and the window arithmetic between them. -/

namespace Sys2Proof.Machine

theorem fillSlot_eq (q : Pos) : fillSlot q = q + 17 := rfl

theorem posToNode_1023 : posToNode 1023 = 1023 := rfl

/-- The slot that anchors the tree at `q` is live, and is not one of the 17 positions after `q` (R285 (a)). -/
theorem anchored.live {f : NodeIx → NodeRec} {q : Pos} (h : anchored f q) :
    ∃ p : Pos, liveIn f (posToNode p) ∧ p ≠ q + 17 ∧ p ≠ q + 1 ∧ p ≠ 0 ∧ (p = q ∨ (q = 0 ∧ p = 1023)) := by
  unfold anchored at h
  split at h
  · rename_i hq
    subst hq
    exact ⟨1023, h, by decide, by decide, by decide, .inr ⟨rfl, rfl⟩⟩
  · rename_i hq
    exact ⟨q, h, by bv_omega, by bv_omega, hq, .inl rfl⟩

/-- Step 3a: the delete returns; the fill slot is out of the tree, nothing else is (R207 a, R49, R285). -/
theorem deleteStep {s : State} (h : TreeShape s.nodeAt) (hw : liveWithin s.nodeAt s.winPos 1007) (ha : anchored s.nodeAt s.winPos) :
    ∃ u, deleteNode (fillSlot s.winPos) s = .ret () u ∧ TreeOnly s u ∧ TreeShape u.nodeAt ∧
      (∀ m, liveIn u.nodeAt m ↔ liveIn s.nodeAt m ∧ m ≠ posToNode (s.winPos + 17)) ∧
      liveWithin u.nodeAt s.winPos 1006 ∧ anchored u.nodeAt s.winPos ∧
      (Ordered s.nodeAt s.window → Ordered u.nodeAt s.window) := by
  rw [fillSlot_eq]
  have within : ∀ f : NodeIx → NodeRec, (∀ m, liveIn f m ↔ liveIn s.nodeAt m ∧ m ≠ posToNode (s.winPos + 17)) →
      liveWithin f s.winPos 1006 ∧ anchored f s.winPos := by
    intro f hf
    refine ⟨fun p hp => ?_, ?_⟩
    · obtain ⟨h1, h2⟩ := (hf _).mp hp
      have h3 := hw p h1
      have h4 : p ≠ s.winPos + 17 := fun e => h2 (by rw [e])
      generalize s.winPos = q at *
      bv_omega
    · unfold anchored at *
      split
      · rename_i hq
        rw [if_pos hq] at ha
        exact (hf _).mpr ⟨ha, by rw [hq]; decide⟩
      · rename_i hq
        rw [if_neg hq] at ha
        refine (hf _).mpr ⟨ha, fun e => ?_⟩
        have := posToNode_inj.mp e
        generalize s.winPos = q at *
        bv_omega
  by_cases hl : liveIn s.nodeAt (posToNode (s.winPos + 17))
  · obtain ⟨t, r, e1, e2, e3, e4, e5, e6, e7⟩ := deleteNode_ret h hl
    have hO : Ordered s.nodeAt s.window → Ordered t.nodeAt s.window := fun hO => by
      rw [show t.nodeAt = _ from funext e3]; exact hO.delete h hl e4
    exact ⟨t, e1, ⟨⟨_, _, _, _, e2⟩, e7⟩, e5, e6, (within _ e6).1, (within _ e6).2, hO⟩
  · have hd : s.winPos + 17 = 0 ∨ (s.nodeAt (posToNode (s.winPos + 17))).parent = 0 := by
      by_contra hc
      rw [not_or] at hc
      exact hl ⟨fun e => hc.1 (posToNode_eq_zero.mp e), posToNode_ne_root _, hc.2⟩
    have e6 : ∀ m, liveIn s.nodeAt m ↔ liveIn s.nodeAt m ∧ m ≠ posToNode (s.winPos + 17) :=
      fun m => ⟨fun hm => ⟨hm, fun e => hl (e ▸ hm)⟩, fun hm => hm.1⟩
    exact ⟨s, deleteNode_dead hd, .refl s, h, e6, (within _ e6).1, (within _ e6).2, id⟩

/-- Step 3d, with `winPos` moved on: AddNode returns; the new slot is in the tree and anchors it; the match is a real one
(R207 d, R49, R188, R285). -/
theorem addStep {s : State} {q : Pos} (hq : s.winPos = q + 1) (h : TreeShape s.nodeAt) (hw : liveWithin s.nodeAt q 1006)
    (ha : anchored s.nodeAt q) :
    ∃ t m p, addNode s.winPos s = .ret (m, p) t ∧ AddOnly s t ∧ TreeShape t.nodeAt ∧
      liveWithin t.nodeAt s.winPos 1007 ∧ anchored t.nodeAt s.winPos ∧ m ≤ 17 ∧
      (∀ n, liveIn t.nodeAt n → liveIn s.nodeAt n ∨ n = posToNode s.winPos) ∧
      (m ≠ 0 → p ≠ 0 ∧ liveIn s.nodeAt (posToNode p) ∧ ∀ j : Nat, j < m.toNat →
        s.byteAt (p + BitVec.ofNat 10 j) = s.byteAt (s.winPos + BitVec.ofNat 10 j)) ∧
      (m = 0 → s.winPos = 0 ∨ p ≠ 0) ∧
      (Ordered s.nodeAt s.window → Ordered t.nodeAt s.window) := by
  obtain ⟨a, hal, ha17, ha1, ha0, haq⟩ := ha.live
  have hroot : (s.nodeAt 1024).largeChild ≠ 0 := (h.under_top hal).1
  have within : ∀ f : NodeIx → NodeRec, (∀ n, liveIn f n → liveIn s.nodeAt n ∨ n = posToNode s.winPos) →
      liveWithin f s.winPos 1007 := by
    intro f hf p hp
    rcases hf _ hp with h1 | h1
    · have := hw p h1
      rw [hq]
      bv_omega
    · rw [posToNode_inj.mp h1]
      simp
  by_cases h0 : s.winPos = 0
  · have hx : addNode s.winPos s = .ret (0, s.matchPos) s := by unfold addNode; rw [if_pos h0]
    have hq' : q ≠ 0 := by intro e; subst e; rw [h0] at hq; exact absurd hq (by decide)
    refine ⟨s, 0, s.matchPos, hx, .refl s, h, within _ fun n hn => .inl hn, ?_, by decide, fun n hn => .inl hn,
      fun e => absurd rfl e, fun _ => .inl h0, id⟩
    unfold anchored
    rw [if_pos h0]
    have : q = 1023 := by rw [h0] at hq; bv_omega
    unfold anchored at ha
    rw [if_neg hq'] at ha
    rw [this] at ha
    exact ha
  · have hd : (s.nodeAt (posToNode s.winPos)).parent = 0 := by
      by_contra hne
      have := hw s.winPos ⟨fun e => h0 (posToNode_eq_zero.mp e), posToNode_ne_root _, hne⟩
      rw [hq] at this
      bv_omega
    obtain ⟨t, path, e, hv, hl, he, hel, hx, hfr, hnode, hT, hlive, hwf⟩ := addNode_ret h hroot h0 hd
    rcases bestOf_spec s.window s.winPos path (0, s.matchPos) with ⟨_, h2⟩ | ⟨above, n, below, h1, h2, h3, h4, h5⟩
    · have := h2 e (List.mem_of_getLast? he)
      simp at this
    · have hnl : liveIn s.nodeAt n := hl n (by rw [h1]; simp)
      have hsub : ∀ n, liveIn t.nodeAt n → liveIn s.nodeAt n ∨ n = posToNode s.winPos := by
        intro m hm
        rcases (hlive m).mp hm with e' | ⟨e', _⟩
        · exact .inr e'
        · exact .inl e'
      have hA : AddOnly s t :=
        ⟨⟨t.node, t.par, s.nxt, s.repl, t.testNode, t.i, t.delta, (bestOf s.window s.winPos path (0, s.matchPos)).1,
          (bestOf s.window s.winPos path (0, s.matchPos)).2, by rw [hfr]⟩, hwf⟩
      refine ⟨t, _, _, by rw [hx, h2], hA, hT, within _ hsub, ?_, ?_, hsub, fun _ =>
        ⟨nodeToPos_ne_zero hnl, by rw [posToNode_nodeToPos hnl.2.1]; exact hnl, ?_⟩, fun _ => .inr (nodeToPos_ne_zero hnl), fun hO => ?_⟩
      · unfold anchored
        rw [if_neg h0]
        exact (hlive _).mpr (.inl rfl)
      · rw [BitVec.le_def, shared_toNat]; exact shared_le _ _ _
      · intro j hj
        rw [shared_toNat] at hj
        have := getElem?_commonPrefix (a := keyOf s.window s.winPos) (b := keyOf s.window (nodeToPos n)) hj
        have hj17 : j < 17 := lt_of_lt_of_le hj (shared_le _ _ _)
        rw [keyOf_getElem? _ _ hj17, keyOf_getElem? _ _ hj17] at this
        exact (Option.some.inj this).symm
      · rw [show t.nodeAt = _ from funext hnode]
        have htop := (h.large 1024 (.inl rfl) hroot).1
        exact hO.add h hel (hv.sided h htop (sided_top h s.winPos hroot) e (List.mem_of_getLast? he)) h0 hd

/-- The write of step 3b touches the key of no slot that is live after step 3a (R76). -/
theorem keyOf_fillSlot {w : Memory} {q p : Pos} (b : Byte) (h : (q - p).toNat ≤ 1006) :
    keyOf (Memory.write w (q + 17) b) p = keyOf w p := by
  unfold keyOf
  refine List.map_congr_left fun k hk => ?_
  have hk' : k < 17 := List.mem_range.mp hk
  refine Memory.read_write_other _ _ fun e => ?_
  have hkk : (BitVec.ofNat 10 k).toNat < 17 := by
    rw [BitVec.toNat_ofNat]
    omega
  generalize BitVec.ofNat 10 k = kk at e hkk
  bv_omega

/-- The order does not depend on cells that no key of a live slot runs through. -/
theorem Ordered.congr {f : NodeIx → NodeRec} {w w' : Memory} (h : TreeShape f) (hO : Ordered f w)
    (hk : ∀ n, liveIn f n → keyOf w' (nodeToPos n) = keyOf w (nodeToPos n)) : Ordered f w' := by
  intro t ht
  refine ⟨fun hc n hn => ?_, fun hc n hn => ?_⟩
  · have hnl := hn.live (h.small t (.inr ht) hc).1
    rw [hk t ht, hk n hnl]
    exact (hO t ht).1 hc n hn
  · have hnl := hn.live (h.large t (.inr ht) hc).1
    rw [hk t ht, hk n hnl]
    exact (hO t ht).2 hc n hn

end Sys2Proof.Machine
end

