-- ==== Sys2Proof/Laws/Encoding.lean ====
section
/-! SUPPORT. The laws of the encoding tables: bits in emission order and numbers, operand fields and their bytes. -/

namespace Sys2Proof

open Sys2Proof.Machine

/-! ## Bits -/

theorem msbValue_lt (acc : Nat) (l : List Bool) : msbValue acc l < (acc + 1) * 2 ^ l.length := by
  induction l generalizing acc with
  | nil => simp [msbValue]
  | cons b t ih =>
    have := ih (2 * acc + b.toNat)
    simp only [msbValue, List.length_cons, Nat.pow_succ]
    have hb : b.toNat ≤ 1 := Bool.toNat_le b
    calc _ < (2 * acc + b.toNat + 1) * 2 ^ t.length := this
      _ ≤ (2 * acc + 2) * 2 ^ t.length := Nat.mul_le_mul_right _ (by omega)
      _ = (acc + 1) * (2 ^ t.length * 2) := by ring

/-- The value of the low `k` bits of a number, most significant first. -/
theorem msbValue_msbBits (k acc v : Nat) : msbValue acc (msbBits k v) = acc * 2 ^ k + v % 2 ^ k := by
  induction k generalizing acc with
  | zero => simp [msbBits, msbValue, Nat.mod_one]
  | succ k ih =>
    simp only [msbBits, msbValue, ih]
    have h : v % 2 ^ (k + 1) = (v.testBit k).toNat * 2 ^ k + v % 2 ^ k := by
      rw [Nat.pow_succ, Nat.mod_mul, Nat.testBit_eq_decide_div_mod_eq]
      have : v / 2^k % 2 = 0 ∨ v / 2^k % 2 = 1 := by omega
      rcases this with h | h <;> simp [h, add_comm]
    rw [h]; ring

/-- A field of `k` bits is read back whatever follows it. -/
theorem takeBits_append (k v : Nat) (rest : List Bool) : takeBits k (msbBits k v ++ rest) = some (v % 2 ^ k, rest) := by
  unfold takeBits
  have hl : (msbBits k v).length = k := by simp
  rw [if_neg (by simp), List.take_append_of_le_length (by omega), List.take_of_length_le (by omega), List.drop_append_of_le_length (by omega), List.drop_of_length_le (by omega), msbValue_msbBits]
  simp

/-- Bits are read back from their value. -/
theorem msbBits_msbValue (l : List Bool) (acc : Nat) : msbBits l.length (msbValue acc l) = l := by
  have key : ∀ (l : List Bool) (acc : Nat), msbValue acc l = acc * 2 ^ l.length + msbValue 0 l := by
    intro l; induction l with
    | nil => simp [msbValue]
    | cons b t ih => intro acc; simp only [msbValue, List.length_cons]; rw [ih, ih (2*0+b.toNat)]; ring
  have mb : ∀ k v w, v % 2^k = w % 2^k → msbBits k v = msbBits k w := by
    intro k; induction k with
    | zero => intros; rfl
    | succ k ih =>
      intro v w h
      simp only [msbBits]
      congr 1
      · have := congrArg (fun x => x.testBit k) h
        simpa [Nat.testBit_mod_two_pow] using this
      · apply ih
        have := congrArg (fun x => x % 2^k) h
        simpa [Nat.mod_mod_of_dvd, Nat.pow_dvd_pow] using this
  induction l generalizing acc with
  | nil => rfl
  | cons b t ih =>
    simp only [msbValue, List.length_cons, msbBits]
    congr 1
    · rw [key, Nat.testBit_eq_decide_div_mod_eq]
      have := msbValue_lt 0 t
      rw [Nat.mul_comm, Nat.mul_add_div (by positivity), Nat.div_eq_of_lt (by simpa using this)]
      cases b <;> simp
    · exact ih _

/-- What a field reader takes is the bits of what it reads. -/
theorem takeBits_some {k bits v r} (h : takeBits k bits = some (v, r)) : v < 2^k ∧ bits = msbBits k v ++ r := by
  unfold takeBits at h
  split at h
  · cases h
  · simp only [Option.some.injEq, Prod.mk.injEq] at h
    obtain ⟨rfl, rfl⟩ := h
    have hl : (bits.take k).length = k := by simp; omega
    refine ⟨by simpa [hl] using msbValue_lt 0 (bits.take k), ?_⟩
    conv_lhs => rw [← List.take_append_drop k bits]
    congr 1
    have := msbBits_msbValue (bits.take k) 0
    rw [hl] at this; exact this.symm

/-! ## Operand fields -/

/-- A field of `n` bytes is read back whatever follows it. -/
theorem takeField_fieldBytes (n v : Nat) (rest : List Byte) : takeField n (fieldBytes n v ++ rest) = .ok (v % 256 ^ n, rest) := by
  induction n generalizing v with
  | zero => simp [takeField, fieldBytes, Nat.mod_one]
  | succ n ih =>
    simp only [fieldBytes, List.cons_append, takeField, ih]
    rw [Nat.pow_succ, Nat.mul_comm (256 ^ n), Nat.mod_mul]
    simp [BitVec.toNat_ofNat]

theorem takeField_fit {n v : Nat} (h : v < 256 ^ n) (rest : List Byte) : takeField n (fieldBytes n v ++ rest) = .ok (v, rest) := by
  rw [takeField_fieldBytes, Nat.mod_eq_of_lt h]

/-- A node index is read back. -/
theorem takeNode_fieldBytes (n : NodeIx) (rest : List Byte) : takeNode (fieldBytes 2 n.val ++ rest) = .ok (n, rest) := by
  have h := n.isLt
  simp only [takeNode, takeField_fit (show n.val < 256 ^ 2 by omega), h, dite_true]

/-- A position is read back from its number less the base. -/
theorem takePos_fieldBytes (p : Pos) {base : Nat} (hb : base ≤ p.toNat) (rest : List Byte) :
    takePos base (fieldBytes 2 (p.toNat - base) ++ rest) = .ok (p, rest) := by
  have h := p.isLt
  simp only [takePos, takeField_fit (show p.toNat - base < 256 ^ 2 by omega)]
  rw [if_pos (by show _ < 1024; omega), show p.toNat - base + base = p.toNat by omega]
  simp

/-- A bit is read back. -/
theorem takeFlag_fieldBytes (b : Bool) (rest : List Byte) : takeFlag (fieldBytes 1 b.toNat ++ rest) = .ok (b, rest) := by
  simp only [takeFlag, takeField_fit (show b.toNat < 256 ^ 1 by cases b <;> decide)]
  cases b <;> rfl

/-- A bit count is read back from its number less 1. -/
theorem takeCount_fieldBytes {k : Nat} (h1 : 1 ≤ k) (h2 : k ≤ 32) (rest : List Byte) :
    takeCount (fieldBytes 1 (k - 1) ++ rest) = .ok (k, rest) := by
  simp only [takeCount, takeField_fit (show k - 1 < 256 ^ 1 by omega)]
  rw [if_pos (by omega), show k - 1 + 1 = k by omega]

end Sys2Proof
end

