-- ==== Sys2Proof/Laws/PerInstr.lean ====
section
/-! SUPPORT. The family `RecordLength` of LAWS.json: one lemma a constructor about the size of what encodes it. -/

namespace Sys2Proof.Laws.RecordLength

/-- What encodes an instruction is a wire record of 9, 15 or 11 bits, that begins with the flag of its kind (R101 to R104),
or the OPSEL byte of R113 with at most 5 operand bytes; never nothing. -/
def Statement (i : Instr) : Prop :=
  match encode i with
  | .record bits =>
      (bits.length = 9 ∧ bits.head? = some true) ∨ (bits.length = 15 ∧ bits.head? = some false) ∨ bits = List.replicate 11 false
  | .operation bytes => 1 ≤ bytes.length ∧ bytes.length ≤ 6 ∧ i.opsel = bytes.head?.map (BitVec.setWidth 5)
  | .quiet => False

theorem literal (b : Byte) : Statement (.literal b) := by simp [Statement, encode, Instr.recordBits, literalBits, msbBits]
theorem matchRecord (pos : Pos) (len : BitVec 4) : Statement (.matchRecord pos len) := by
  simp [Statement, encode, Instr.recordBits, matchBits, msbBits]
theorem eos : Statement .eos := by simp [Statement, encode, Instr.recordBits, eosBits, msbBits]
theorem readByte : Statement .readByte := ⟨by decide, by decide, rfl⟩
theorem writeBit (b : Bool) : Statement (.writeBit b) := ⟨by cases b <;> decide, by cases b <;> decide, rfl⟩
theorem writeBits (v : BitVec 32) (k : Nat) : Statement (.writeBits v k) := by
  simp [Statement, encode, Instr.recordBits, Instr.opsel, Instr.operandBytes, fieldBytes]
theorem flush : Statement .flush := ⟨by decide, by decide, rfl⟩
theorem initTree (p : Pos) : Statement (.initTree p) := by
  simp [Statement, encode, Instr.recordBits, Instr.opsel, Instr.operandBytes, fieldBytes]
theorem contractNode (o n : NodeIx) : Statement (.contractNode o n) := by
  simp [Statement, encode, Instr.recordBits, Instr.opsel, Instr.operandBytes, fieldBytes]
theorem replaceNode (o n : NodeIx) : Statement (.replaceNode o n) := by
  simp [Statement, encode, Instr.recordBits, Instr.opsel, Instr.operandBytes, fieldBytes]
theorem findNextNode (n : NodeIx) : Statement (.findNextNode n) := by
  simp [Statement, encode, Instr.recordBits, Instr.opsel, Instr.operandBytes, fieldBytes]
theorem deleteNode (p : Pos) : Statement (.deleteNode p) := by
  simp [Statement, encode, Instr.recordBits, Instr.opsel, Instr.operandBytes, fieldBytes]
theorem compare (n t : Pos) : Statement (.compare n t) := by
  simp [Statement, encode, Instr.recordBits, Instr.opsel, Instr.operandBytes, fieldBytes]
theorem addNode (p : Pos) : Statement (.addNode p) := by
  simp [Statement, encode, Instr.recordBits, Instr.opsel, Instr.operandBytes, fieldBytes]
theorem prefill : Statement .prefill := ⟨by decide, by decide, rfl⟩
theorem emitLiteral : Statement .emitLiteral := ⟨by decide, by decide, rfl⟩
theorem emitMatch : Statement .emitMatch := ⟨by decide, by decide, rfl⟩
theorem advance : Statement .advance := ⟨by decide, by decide, rfl⟩
theorem emitEos : Statement .emitEos := ⟨by decide, by decide, rfl⟩
theorem compressData : Statement .compressData := ⟨by decide, by decide, rfl⟩
theorem start : Statement .start := ⟨by decide, by decide, rfl⟩
theorem reset : Statement .reset := ⟨by decide, by decide, rfl⟩

end Sys2Proof.Laws.RecordLength
end

