-- ==== Sys2Proof/Laws/Trace.lean ====
section
/-! SUPPORT. The observation (R17) and what an emission does to it: the bits, bytes and reads of a sequence of transactions. -/

namespace Sys2Proof.Machine

@[simp] theorem eventBits_append (a b : List Event) : eventBits (a ++ b) = eventBits a ++ eventBits b := by
  induction a with
  | nil => rfl
  | cons x a ih => cases x <;> simp [eventBits, ih]

@[simp] theorem eventReads_append (a b : List Event) : eventReads (a ++ b) = eventReads a + eventReads b := by
  induction a with
  | nil => simp [eventReads]
  | cons x a ih => cases x <;> simp [eventReads, ih]; omega

@[simp] theorem eventBytes_append (a b : List Event) : eventBytes (a ++ b) = eventBytes a ++ eventBytes b := by
  induction a with
  | nil => rfl
  | cons x a ih =>
    cases x with
    | read r => cases r <;> simp [eventBytes, ih]
    | bit _ => simp [eventBytes, ih]
    | bitRefused _ => simp [eventBytes, ih]

@[simp] theorem eventBits_bits (l : List Bool) : eventBits (l.map .bit) = l := by
  induction l with
  | nil => rfl
  | cons x a ih => simp [eventBits, ih]

@[simp] theorem eventReads_bits (l : List Bool) : eventReads (l.map .bit) = 0 := by
  induction l with
  | nil => rfl
  | cons x a ih => simp [eventReads, ih]

@[simp] theorem eventBytes_bits (l : List Bool) : eventBytes (l.map .bit) = [] := by
  induction l with
  | nil => rfl
  | cons x a ih => simp [eventBytes, ih]

theorem traceAgrees_iff {s : State} : s.traceAgrees = true ↔ s.outBits = eventBits s.events ∧
    s.nReads = eventReads s.events + (if s.wait = some .read then 1 else 0) ∧ s.inEnded = s.events.contains (.read .eoi) := by
  simp [State.traceAgrees, and_assoc]

theorem flagsAgree_iff {s : State} : s.flagsAgree = true ↔
    s.done = (s.seq == .done) ∧ s.fault = (s.seq == .fault) ∧ s.fault = (s.cause != .noFault) := by
  simp [State.flagsAgree, and_assoc]

/-- An emission in terms of the fields it may set. -/
theorem Emitted.fields {s u : State} {bits : List Bool} (h : Emitted s u bits) :
    ∃ ob ac cn, u = { s with outBits := s.outBits ++ bits, events := s.events ++ bits.map .bit, outPort := s.outPort.drop bits.length,
                             outBytes := ob, bsAcc := ac, bsCnt := cn } := ⟨_, _, _, h.frame⟩

/-- A stream grows by a record. -/
theorem streamOf_snoc {bits b : List Bool} {n m : Nat} {r : Instr} (h : streamOf bits n []) (hr : r.isData = true)
    (hb : r.recordBits = some b) (hm : n + r.covers = m) : streamOf (bits ++ b) m [] := by
  obtain ⟨l, h1, h2, h3⟩ := h
  refine ⟨l ++ [r], by simp [h1, hr], ?_, by simp [h3, hm]⟩
  rw [h2]
  simp [streamBits, hb]

end Sys2Proof.Machine
end

