-- ==== Sys2Proof/Laws/Run.lean ====
section
/-! SUPPORT. A whole advance, said once, and what an emission and a read do to the observation, the window and the count of passed
bytes. -/

namespace Sys2Proof.Machine

/-- A block that has not stopped waits for nothing, is not done and has no fault. -/
theorem not_stopped {s : State} (h : s.stopped = false) : s.wait = none ∧ s.seq ≠ .done ∧ s.seq ≠ .fault := by
  simp only [State.stopped, Bool.or_eq_false_iff] at h
  refine ⟨by simpa using h.1.1, by simpa using h.1.2, by simpa using h.2⟩

/-! ## An emission -/

/-- An emission leaves the valid look-ahead what it was (R81). -/
theorem windowInv_emit {s : State} {own : List Bool} {ob ac cn op} (hw : s.windowInv) :
   State.windowInv { s with outBits := s.outBits ++ own, events := s.events ++ own.map .bit, outPort := op, outBytes := ob, bsAcc := ac, bsCnt := cn } := by
  have e : eventBytes (s.events ++ own.map Event.bit) = eventBytes s.events := by simp
  refine ⟨?_, fun d hd => ?_⟩
  · show s.aheadBytes.toNat ≤ (eventBytes (s.events ++ own.map Event.bit)).length
    rw [e]; exact hw.1
  · show (eventBytes (s.events ++ own.map Event.bit))[(eventBytes (s.events ++ own.map Event.bit)).length - _ + _]? = _
    rw [e]; exact hw.2 d hd

/-- An emission keeps the bookkeeping of R17 and R51. -/
theorem traceAgrees_emit {s : State} {own : List Bool} {ob ac cn op} (ht : s.traceAgrees = true) :
   State.traceAgrees { s with outBits := s.outBits ++ own, events := s.events ++ own.map .bit, outPort := op, outBytes := ob, bsAcc := ac, bsCnt := cn } = true := by
  have htr := traceAgrees_iff.mp ht
  rw [traceAgrees_iff]
  refine ⟨?_, ?_, ?_⟩
  · show s.outBits ++ own = eventBits (s.events ++ own.map Event.bit)
    simp [htr.1]
  · show s.nReads = eventReads (s.events ++ own.map Event.bit) + (if s.wait = _ then 1 else 0)
    simpa using htr.2.1
  · show s.inEnded = (s.events ++ own.map Event.bit).contains (Event.read .eoi)
    rw [htr.2.2]; simp

/-- An emission passes no input byte. -/
theorem passed_emit {s : State} {own : List Bool} {ob ac cn op} :
   State.passed { s with outBits := s.outBits ++ own, events := s.events ++ own.map .bit, outPort := op, outBytes := ob, bsAcc := ac, bsCnt := cn } = s.passed := by
  have e : eventBytes (s.events ++ own.map Event.bit) = eventBytes s.events := by simp
  show (eventBytes (s.events ++ own.map Event.bit)).length - _ = _
  rw [e]; rfl

/-! ## A read -/

/-- An answered read keeps the bookkeeping of R17 and R51. -/
theorem traceAgrees_read {s : State} {r : Answer} (hw : s.wait = none) (ht : s.traceAgrees = true) {t : State}
    (h1 : t.outBits = s.outBits) (h2 : t.events = s.events ++ [.read r]) (h3 : t.nReads = s.nReads + 1) (h4 : t.wait = s.wait)
    (h5 : t.inEnded = if r = .eoi then true else s.inEnded) : t.traceAgrees = true := by
  have h := traceAgrees_iff.mp ht
  rw [traceAgrees_iff]
  refine ⟨?_, ?_, ?_⟩
  · rw [h1, h2, h.1]; simp [eventBits]
  · rw [h3, h2, h4, h.2.1, hw]; simp [eventReads]
  · rw [h5, h2, h.2.2]
    cases r <;> simp

/-- A read that is answered inside the contract returns the answer (R130, R131). -/
theorem readByte_answered (s : State) (r : Answer) (h : s.nextInput = some r) (hr : r = .eoi ∨ (s.inEnded = false ∧ ∃ b, r = .byte b)) :
   readByte s = .ret r { s with nReads := s.nReads + 1, inPort := s.inPort.tail, events := s.events ++ [.read r], inEnded := if r = .eoi then true else s.inEnded } := by
  unfold readByte
  rcases hr with rfl | ⟨he, b, rfl⟩
  · rw [h]; rfl
  · rw [h]; simp only [he, Bool.false_eq_true, if_false, reduceCtorEq]; simp [State.issueRead, State.record, he]

/-! ## An advance -/

/-- `Window` after step 3b of an advance (R207). -/
def windowAfterRead (s : State) (r : Answer) : Memory :=
  match r with
  | .byte b => Memory.write s.window (s.winPos + 17) b
  | _ => s.window

/-- Everything an advance does from a tree whose live slots lie in the window behind `winPos`, when its read is answered (R207, R208,
R49, R188, R285). -/
theorem advance_ret (s : State) (r : Answer) (h : TreeShape s.nodeAt) (hw : liveWithin s.nodeAt s.winPos 1007) (ha : anchored s.nodeAt s.winPos)
    (hi : s.nextInput = some r) (hr : r = .eoi ∨ (s.inEnded = false ∧ ∃ b, r = .byte b)) :
    ∃ (m : NodeMemory) (win : Memory) (x y z d : NodeIx) (e : Cnt) (f : BitVec 16) (g : Cnt) (k : Pos) (ml : Cnt) (mp : Pos), 
      let a' : Cnt := if r = .eoi then s.aheadBytes - 1 else s.aheadBytes
      advance s = .ret () { s with 
                   node := m, window := win, par := x, nxt := y, repl := z, testNode := d,
                   i := e, delta := f, bestLen := g, bestPos := k,
                   matchLen := ml, matchPos := mp,
                   aheadBytes := a',
                   winPos := s.winPos + 1, advCnt := s.advCnt + 1,
                   seq := if s.advCnt + 1 = s.replCnt then .emit else .adv,
                   nReads := s.nReads + 1, inPort := s.inPort.tail, events := s.events ++ [.read r],
                   inEnded := if r = .eoi then true else s.inEnded } ∧
      win = windowAfterRead s r ∧
      (a' = 0 → ml = s.matchLen ∧ mp = s.matchPos) ∧
      (a' ≠ 0 → ml ≤ 17 ∧ (ml ≠ 0 → mp ≠ 0) ∧ ∀ j : Nat, j < ml.toNat →
        Memory.read win (mp + BitVec.ofNat 10 j) = Memory.read win (s.winPos + 1 + BitVec.ofNat 10 j)) ∧
      (a' ≠ 0 → ml ≠ 0 → liveWithin s.nodeAt s.winPos 1007 ∧ mp ≠ s.winPos + 17 ∧ liveIn s.nodeAt (posToNode mp)) ∧
      TreeShape (NodeMemory.read m) ∧ liveWithin (NodeMemory.read m) (s.winPos + 1) 1007 ∧
      (a' ≠ 0 → anchored (NodeMemory.read m) (s.winPos + 1)) ∧ (s.memoriesWf = true → (Memory.wf win && NodeMemory.wf m) = true) ∧
      (∀ n, liveIn (NodeMemory.read m) n → liveIn s.nodeAt n ∨ n = posToNode (s.winPos + 1)) ∧
      (Ordered s.nodeAt s.window → Ordered (NodeMemory.read m) win) := by
  obtain ⟨u, e1, ⟨⟨m, x, y, z, rfl⟩, wf1⟩, hT, hL, hW, hA, hO⟩ := deleteStep h hw ha
  have e2 := readByte_answered { s with node := m, par := x, nxt := y, repl := z } r hi hr
  obtain ⟨win, hwin, hx, wwf⟩ : ∃ win, win = windowAfterRead s r ∧
     advance s = (addAtWinPos { s with node := m, par := x, nxt := y, repl := z, nReads := s.nReads + 1, inPort := s.inPort.tail, events := s.events ++ [.read r], inEnded := if r = .eoi then true else s.inEnded, window := win, aheadBytes := if r = .eoi then s.aheadBytes - 1 else s.aheadBytes, winPos := s.winPos + 1 }).andThen (fun _ s => .ret () s.countAdvance) ∧
     (Memory.wf s.window = true → Memory.wf win = true) := by
    rcases hr with rfl | ⟨-, b, rfl⟩
    · refine ⟨s.window, rfl, ?_, id⟩
      unfold advance
      rw [e1, Res.ret_andThen, e2, Res.ret_andThen]
      rfl
    · refine ⟨Memory.write s.window (s.winPos + 17) b, rfl, ?_, fun h => Memory.wf_write _ _ h⟩
      unfold advance
      rw [e1, Res.ret_andThen, e2, Res.ret_andThen]
      rfl
  rw [hx]
  have hTm : TreeShape (NodeMemory.read m) := hT
  have hLm : ∀ n, liveIn (NodeMemory.read m) n ↔ liveIn s.nodeAt n ∧ n ≠ posToNode (s.winPos + 17) := hL
  have hWm : liveWithin (NodeMemory.read m) s.winPos 1006 := hW
  have hAm : anchored (NodeMemory.read m) s.winPos := hA
  have hOm : Ordered s.nodeAt s.window → Ordered (NodeMemory.read m) win := by
    intro h0
    have h1 : Ordered (NodeMemory.read m) s.window := hO h0
    clear hx e2
    rw [hwin]
    rcases hr with hr | ⟨-, b, hr⟩
    · subst hr; exact h1
    · subst hr
      refine h1.congr hTm ?_
      intro n hn
      have hn' : liveIn (NodeMemory.read m) (posToNode (nodeToPos n)) := by rw [posToNode_nodeToPos hn.2.1]; exact hn
      exact keyOf_fillSlot b (hWm _ hn')
  have wf1' : NodeMemory.wf s.node = true → NodeMemory.wf m = true := wf1
  clear hx e1 hT hL hW hA hO wf1
  unfold addAtWinPos
  by_cases h0 : (if r = .eoi then s.aheadBytes - 1 else s.aheadBytes) = 0
  · simp only [h0, if_true, Res.ret_andThen, State.countAdvance]
    refine ⟨m, win, x, y, z, s.testNode, s.i, s.delta, s.bestLen, s.bestPos, s.matchLen, s.matchPos, rfl, hwin, fun _ => ⟨rfl, rfl⟩, fun h => absurd rfl h, fun h => absurd rfl h, hTm, ?_, fun h => absurd rfl h, ?_, fun n hn => .inl ((hLm n).mp hn).1, hOm⟩
    · intro p hp
      have := hWm p hp
      show (s.winPos + 1 - p).toNat ≤ 1007
      generalize s.winPos = q at *
      bv_omega
    · intro h
      simp only [State.memoriesWf, Bool.and_eq_true] at h ⊢
      exact ⟨wwf h.1, wf1' h.2⟩
  · simp only [h0, if_false]
    obtain ⟨t, ml, mp, hx, ⟨⟨m', x', y', z', d', e', f', g', h', rfl⟩, wf2⟩, hT2, hW2, hA2, hm17, hsub, hmatch, hm0, hO2⟩ := addStep (s := { s with node := m, par := x, nxt := y, repl := z, nReads := s.nReads + 1, inPort := s.inPort.tail, events := s.events ++ [.read r], inEnded := if r = .eoi then true else s.inEnded, window := win, aheadBytes := if r = .eoi then s.aheadBytes - 1 else s.aheadBytes, winPos := s.winPos + 1 }) (q := s.winPos) rfl hTm hWm hAm
    have hx' : addNode (s.winPos + 1) _ = _ := hx
    rw [hx', Res.ret_andThen, Res.ret_andThen]
    refine ⟨m', win, x', y', z', d', e', f', g', h', ml, mp, rfl, hwin, fun h => h.elim, fun _ => ⟨hm17, fun h => (hmatch h).1, fun j hj => ?_⟩, fun _ hne => ⟨hw, ?_, ((hLm _).mp (hmatch hne).2.1).1⟩, hT2, hW2, fun _ => hA2, ?_, ?_, fun h => hO2 (hOm h)⟩
    · have hne : ml ≠ 0 := by rintro rfl; exact absurd hj (by simp)
      exact (hmatch hne).2.2 j hj
    · rintro rfl
      exact ((hLm _).mp (hmatch hne).2.1).2 rfl
    · intro h
      simp only [State.memoriesWf, Bool.and_eq_true] at h ⊢
      exact ⟨wwf h.1, wf2 (wf1' h.2)⟩
    · intro n hn
      rcases hsub n hn with h | h
      · exact .inl ((hLm n).mp h).1
      · exact .inr h

end Sys2Proof.Machine
end

