-- ==== Sys2Proof/Laws/Steps.lean ====
section
/-! SUPPORT. Everything each step of the driver can end in, from every state whatever: the frames of 43_driver.md. -/

namespace Sys2Proof.Machine

/-- How a step ends inside a `ReadByte`: the read is not answered, or it errs (R18, R243). -/
def ReadStops (s t : State) : Prop :=
  (s.nextInput = none ∧ t = { s.issueRead with wait := some .read }) ∨
  (s.nextInput = some .err ∧ t = (s.issueRead.record (.read .err)).enterFault .inputReadError)

/-- The answers a `ReadByte` returns with inside the contract (R130, R131). -/
def Returns (s : State) (r : Answer) : Prop := s.nextInput = some r ∧ (r = .eoi ∨ (s.inEnded = false ∧ ∃ b, r = .byte b))

/-- The state a `ReadByte` returns in. -/
def State.afterRead (s : State) (r : Answer) : State :=
  { s with nReads := s.nReads + 1, inPort := s.inPort.tail, events := s.events ++ [.read r],
           inEnded := if r = .eoi then true else s.inEnded }

theorem readByte_ends (s : State) :
    (readByte s).Sat (fun r t => Returns s r ∧ t = s.afterRead r) (ReadStops s) := by
  rcases readByte_cases s with ⟨hn, h⟩ | ⟨hn, h⟩ | ⟨hn, h⟩ | ⟨b, hn, hE, h⟩ | ⟨b, -, -, h⟩ <;> rw [h]
  · exact .inl ⟨hn, rfl⟩
  · exact .inr ⟨hn, rfl⟩
  · exact ⟨⟨hn, .inl rfl⟩, rfl⟩
  · exact ⟨⟨hn, .inr ⟨hE, b, rfl⟩⟩, rfl⟩
  · trivial

/-- What one turn of the prefill can end in (R201): the last is a stop. -/
def PrefillEnds (s t : State) : Prop :=
  t = { s with seq := .init } ∨
  (Returns s .eoi ∧ t = { s.afterRead .eoi with eos := true, seq := .fill }) ∨
  (∃ b, Returns s (.byte b) ∧ t = { s.afterRead (.byte b) with
    window := Memory.write s.window (windowAt s.winPos s.aheadBytes) b, aheadBytes := s.aheadBytes + 1, seq := .fill }) ∨
  ReadStops s t

theorem prefill_ends (s : State) : (prefill s).Sat (fun _ => PrefillEnds s) (PrefillEnds s) := by
  unfold prefill
  split
  · refine Res.Sat.andThen ((readByte_ends s).mono (fun _ _ h => h) fun _ h => .inr (.inr (.inr h))) ?_
    rintro r t ⟨h, rfl⟩
    rcases h.2 with rfl | ⟨-, b, rfl⟩
    · exact .inr (.inl ⟨h, rfl⟩)
    · exact .inr (.inr (.inl ⟨b, h, rfl⟩))
  · exact .inl rfl

/-- How a step ends inside an emission: some of the bits are out, the next is refused or not answered (R242, R18). -/
def EmitStops (s t : State) : Prop :=
  ∃ u own b, Emitted s u own ∧
    ((u.nextSink = some false ∧ t = u.bitRefused b) ∨ (u.nextSink = none ∧ t = u.waitsOnBit b))

theorem putBits_ends (bits : List Bool) (s : State) : (putBits bits s).Sat (fun _ t => Emitted s t bits) (EmitStops s) := by
  induction bits generalizing s with
  | nil => exact Emitted.refl s
  | cons b bits ih =>
    unfold putBits
    rcases writeBit_cases b s with ⟨-, u, hu, he⟩ | ⟨hn, hu⟩ | ⟨hn, hu⟩ <;> rw [hu]
    · refine (ih u).mono (fun _ _ h => he.trans h) ?_
      rintro t ⟨v, own, c, hv, h⟩
      exact ⟨v, b :: own, c, he.trans hv, h⟩
    · exact ⟨s, [], b, .refl s, .inl ⟨hn, rfl⟩⟩
    · exact ⟨s, [], b, .refl s, .inr ⟨hn, rfl⟩⟩

/-- The clamp writes `matchLen` and nothing else. -/
theorem clamp_frame (s : State) : ∃ m, s.clamp = { s with matchLen := m } := by
  unfold State.clamp
  split
  · exact ⟨_, rfl⟩
  · exact ⟨s.matchLen, rfl⟩

/-- What the step in `S_EMIT` can end in (R203): the last two are stops. -/
def EmitStepEnds (s t : State) : Prop :=
  (s.aheadBytes = 0 ∧ t = { s with seq := .eos }) ∨
  (∃ u bits c, (bits.length = 9 ∨ bits.length = 15) ∧ Emitted s.clamp u bits ∧ t = { u with replCnt := c, advCnt := 0, seq := .adv }) ∨
  t = s.clamp.enterFault .invariantViolation ∨
  EmitStops s.clamp t

theorem emitStep_ends (s : State) : (emitStep s).Sat (fun _ => EmitStepEnds s) (EmitStepEnds s) := by
  unfold emitStep
  split
  · rename_i h
    exact .inl ⟨h, rfl⟩
  · simp only
    split
    · unfold emitLiteral
      rw [emitLiteralRecord_byte]
      refine Res.Sat.andThen ((putBits_ends _ _).mono (fun _ _ h => h) fun _ h => .inr (.inr (.inr h))) fun _ u hu => ?_
      exact .inr (.inl ⟨u, _, 1, .inl (by simp [literalBits]), hu, rfl⟩)
    · unfold emitMatch
      split
      · exact .inr (.inr (.inl rfl))
      · rw [emitMatchRecord_length]
        refine Res.Sat.andThen ((putBits_ends _ _).mono (fun _ _ h => h) fun _ h => .inr (.inr (.inr h))) fun _ u hu => ?_
        exact .inr (.inl ⟨u, _, u.matchLen, .inr (by simp [matchBits]; rfl), hu, rfl⟩)

/-- What the step in `S_EOS` can end in (R209, R212): the second is a stop. -/
def EosEnds (s t : State) : Prop := (∃ u, Emitted s u eosBits ∧ t = u.enterDone) ∨ EmitStops s t

theorem emitEos_ends (s : State) : (emitEos s).Sat (fun _ => EosEnds s) (EosEnds s) := by
  unfold emitEos
  rw [emitEosRecord_eq_putBits]
  exact Res.Sat.andThen ((putBits_ends _ _).mono (fun _ _ h => h) fun _ h => .inr h) fun _ u hu => .inl ⟨u, hu, rfl⟩

/-- Entering `S_DONE` writes the sequencer, `done` and the packed view. -/
theorem enterDone_frame (s : State) : ∃ ob ac cn,
    s.enterDone = { s with seq := .done, done := true, outBytes := ob, bsAcc := ac, bsCnt := cn } := by
  unfold State.enterDone State.flushSink
  split
  · exact ⟨s.outBytes, s.bsAcc, s.bsCnt, rfl⟩
  · exact ⟨_, _, _, rfl⟩

/-- What an advance has written after its read, its delete and its AddNode (R207 a to d), the count of R208 left out; both memories
are in their canonical form if they were. -/
def AdvancedBy (s t : State) (r : Answer) : Prop :=
  (∃ m win x y z d e f g k ml mp,
    t = { s.afterRead r with
            node := m, window := win, par := x, nxt := y, repl := z, testNode := d, i := e, delta := f, bestLen := g, bestPos := k,
            matchLen := ml, matchPos := mp, aheadBytes := if r = .eoi then s.aheadBytes - 1 else s.aheadBytes,
            winPos := s.winPos + 1 }) ∧
  (s.memoriesWf = true → t.memoriesWf = true)

theorem addAtWinPos_ends (s : State) :
    (addAtWinPos s).Sat
      (fun _ t => ∃ u ml mp, AddOnly s u ∧ t = { u with matchLen := ml, matchPos := mp })
      (fun t => ∃ u, AddOnly s u ∧ t = u.enterFault .invariantViolation) := by
  unfold addAtWinPos
  split
  · exact ⟨s, s.matchLen, s.matchPos, .refl s, rfl⟩
  · exact Res.Sat.andThen (addNode_ends s.winPos s) fun r u hu => ⟨u, r.1, r.2, hu, rfl⟩

theorem memoriesWf_iff {s : State} : s.memoriesWf = true ↔ Memory.wf s.window = true ∧ NodeMemory.wf s.node = true := by
  simp [State.memoriesWf]

/-- What an advance can end in, from every state (R207, R208): the first is its whole effect, the others are stops. -/
def AdvanceEnds (s t : State) : Prop :=
  (∃ r u, Returns s r ∧ AdvancedBy s u r ∧ t = u.countAdvance) ∨
  (∃ u, TreeOnly s u ∧ (t = u.enterFault .invariantViolation ∨ ReadStops u t)) ∨
  (∃ r u, Returns s r ∧ AdvancedBy s u r ∧ t = u.enterFault .invariantViolation)

theorem advance_ends (s : State) : (advance s).Sat (fun _ => AdvanceEnds s) (AdvanceEnds s) := by
  unfold advance
  refine Res.Sat.andThen (q := fun _ u => TreeOnly s u) ?_ fun _ u hu => ?_
  · refine (deleteNode_ends _ s).mono (fun _ _ h => h) ?_
    rintro t ⟨u, hu, rfl⟩
    exact .inr (.inl ⟨u, hu, .inl rfl⟩)
  refine Res.Sat.andThen (q := fun r t => Returns s r ∧ t = u.afterRead r) ?_ ?_
  · refine (readByte_ends u).mono ?_ fun t ht => .inr (.inl ⟨u, hu, .inr ht⟩)
    rintro r t ⟨hr, rfl⟩
    obtain ⟨⟨m, x, y, z, rfl⟩, -⟩ := hu
    exact ⟨hr, rfl⟩
  rintro r t ⟨hr, rfl⟩
  simp only
  have hv : ∀ v w, v = { (u.afterRead r).takeInput r with winPos := ((u.afterRead r).takeInput r).winPos + 1 } → AddOnly v w →
      ∀ ml mp, AdvancedBy s { w with matchLen := ml, matchPos := mp } r := by
    intro v w hv hw ml mp
    obtain ⟨⟨m, x, y, z, rfl⟩, wf1⟩ := hu
    obtain ⟨⟨m', x', y', z', d, e, f, g, k, rfl⟩, wf2⟩ := hw
    subst hv
    rcases hr.2 with rfl | ⟨hE, b, rfl⟩
    · refine ⟨⟨m', s.window, x', y', z', d, e, f, g, k, ml, mp, rfl⟩, fun h => ?_⟩
      rw [memoriesWf_iff] at h ⊢
      exact ⟨h.1, wf2 (wf1 h.2)⟩
    · refine ⟨⟨m', _, x', y', z', d, e, f, g, k, ml, mp, rfl⟩, fun h => ?_⟩
      rw [memoriesWf_iff] at h ⊢
      exact ⟨Memory.wf_write _ _ h.1, wf2 (wf1 h.2)⟩
  refine Res.Sat.andThen (q := fun _ t => ∃ (w : State) (ml : Cnt) (mp : Pos), AdvancedBy s { w with matchLen := ml, matchPos := mp } r ∧
      t = { w with matchLen := ml, matchPos := mp }) ?_ ?_
  · refine (addAtWinPos_ends _).mono ?_ ?_
    · rintro _ t ⟨w, ml, mp, hw, rfl⟩
      exact ⟨w, ml, mp, hv _ w rfl hw ml mp, rfl⟩
    · rintro t ⟨w, hw, rfl⟩
      exact .inr (.inr ⟨r, w, hr, hv _ w rfl hw w.matchLen w.matchPos, rfl⟩)
  · rintro _ t ⟨w, ml, mp, hw, rfl⟩
    exact .inl ⟨r, _, hr, hw, rfl⟩

/-! ## The sequencer's step -/

theorem Res.Sat.same {x : Res Unit} {p : State → Prop} {t : State} (hx : x.Sat (fun _ => p) p)
    (h : x.outcome (fun _ s => s) = .next t) : p t := hx.next (fun _ _ h => h) h

/-- Everything a step of a sequencer that has not stopped can end in (R200). -/
theorem sequencerStep_ends {s t : State} (h : s.stopped = false) (hx : sequencerStep s = .next t) :
    (s.seq = .idle ∧ t = s) ∨
    (s.seq = .fill ∧ PrefillEnds s t) ∨
    (s.seq = .init ∧ ∃ m, (NodeMemory.wf s.node = true → NodeMemory.wf m = true) ∧ t = { s with node := m, seq := .emit }) ∨
    (s.seq = .emit ∧ EmitStepEnds s t) ∨
    (s.seq = .adv ∧ AdvanceEnds s t) ∨
    (s.seq = .eos ∧ EosEnds s t) := by
  unfold sequencerStep sequencerOp at hx
  rw [if_neg (by simp [h])] at hx
  cases hq : s.seq <;> rw [hq] at hx <;> dsimp only at hx <;> simp only [reduceCtorEq, false_and, false_or, or_false, true_and]
  · cases hx; rfl
  · exact (prefill_ends s).same hx
  · unfold initStep initTree at hx
    split at hx
    · cases hx
    · cases hx
      exact ⟨_, fun hm => putNode_wf _ _ (putNode_wf _ _ hm), rfl⟩
  · exact (emitStep_ends s).same hx
  · exact (advance_ends s).same hx
  · exact (emitEos_ends s).same hx
  · simp [State.stopped, hq] at h
  · simp [State.stopped, hq] at h

/-! ## Every instruction but CompressData, which is many steps, and Reset -/

/-- What an instruction can end in, by kind. -/
inductive ExecEnds (i : Instr) (s t : State) : Prop where
  | bits (own : List Bool) (he : s.emission i = some own) (hi : i ≠ .emitEos) (h : Emitted s t own)
  | bitsStop (own : List Bool) (he : s.emission i = some own) (h : EmitStops s t)
  | emitEos (hi : i = .emitEos) (h : EosEnds s t)
  | check (he : s.emission i = none) (hi : (∃ p l, i = .matchRecord p l) ∨ i = .emitMatch) (h : t = s.enterFault .invariantViolation)
  | readByte (hi : i = .readByte) (h : (∃ r, Returns s r ∧ t = { s.afterRead r with result := .item r }) ∨ ReadStops s t)
  | flush (hi : i = .flush) (h : ∃ ob ac cn, t = { s with outBytes := ob, bsAcc := ac, bsCnt := cn })
  | tree (hi : (∃ p, i = .initTree p) ∨ (∃ o n, i = .contractNode o n) ∨ (∃ o n, i = .replaceNode o n) ∨ (∃ n, i = .deleteNode n))
      (h : ∃ u, TreeOnly s u ∧ (t = u ∨ t = u.enterFault .invariantViolation))
  | find (hi : ∃ n, i = .findNextNode n)
      (h : (∃ r, t = { s with nxt := r, result := .node r }) ∨ t = s.enterFault .invariantViolation)
  | compare (hi : ∃ a b, i = .compare a b) (h : ∃ c d, t = { s with i := c, delta := d, result := .difference c d })
  | add (hi : ∃ p, i = .addNode p) (h : ∃ u, AddOnly s u ∧ ((∃ r, t = { u with result := r }) ∨ t = u.enterFault .invariantViolation))
  | prefill (hi : i = .prefill) (h : PrefillEnds s t)
  | advance (hi : i = .advance) (h : AdvanceEnds s t)
  | start (hi : i = .start) (h : t = s ∨ (s.seq = .idle ∧ t = { s with seq := .fill }))

theorem emission_ends {i : Instr} {s t : State} {own : List Bool} (he : s.emission i = some own) (hx : exec i s = .next t) :
    ExecEnds i s t := by
  rw [exec_emission he] at hx
  split at hx
  · rename_i hi
    subst hi
    refine .emitEos rfl ?_
    have : own = eosBits := (Option.some.inj he).symm
    subst this
    refine Res.Sat.next (p := EosEnds s) ((putBits_ends eosBits s).mono (fun _ _ h => h) fun _ h => .inr h) ?_ hx
    exact fun _ u hu => .inl ⟨u, hu, rfl⟩
  · rename_i hi
    rcases Res.outcome_eq_next.mp hx with ⟨a, u, hr, rfl⟩ | hr
    · have := putBits_ends own s; rw [hr] at this; exact .bits own he hi this
    · have := putBits_ends own s; rw [hr] at this; exact .bitsStop own he this

theorem exec_ends {i : Instr} {s t : State} (hx : exec i s = .next t) (h1 : i ≠ .compressData) (h2 : i ≠ .reset) :
    ExecEnds i s t := by
  have tree : ∀ {x : Res Unit}, TreeEnds s x → x.outcome (fun _ s => s) = .next t →
      ∃ u, TreeOnly s u ∧ (t = u ∨ t = u.enterFault .invariantViolation) := by
    intro x h hx
    rcases Res.outcome_eq_next.mp hx with ⟨a, u, rfl, rfl⟩ | rfl
    · exact ⟨u, h, .inl rfl⟩
    · obtain ⟨u, hu, e⟩ := h
      exact ⟨u, hu, .inr e⟩
  cases i with
  | literal b => exact emission_ends rfl hx
  | matchRecord p l =>
    by_cases hp : p = 0
    · refine .check (if_pos hp) (.inl ⟨p, l, rfl⟩) ?_
      simp only [exec, execMatchRecord, hp, if_true, raise, Res.stop_outcome, Host.Outcome.next.injEq] at hx
      exact hx.symm
    · exact emission_ends (own := matchBits p l) (if_neg hp) hx
  | eos => exact emission_ends rfl hx
  | readByte =>
    refine .readByte rfl ?_
    simp only [exec, execReadByte] at hx
    rcases Res.outcome_eq_next.mp hx with ⟨a, u, hr, rfl⟩ | hr
    · have := readByte_ends s; rw [hr] at this
      obtain ⟨h, rfl⟩ := this
      exact .inl ⟨a, h, rfl⟩
    · have := readByte_ends s; rw [hr] at this; exact .inr this
  | writeBit b => exact emission_ends rfl hx
  | writeBits v k =>
    by_cases hk : 1 ≤ k ∧ k ≤ 32
    · exact emission_ends (if_pos hk) hx
    · simp [exec, execWriteBits, hk] at hx
  | flush =>
    refine .flush rfl ?_
    simp only [exec, execFlush, Host.Outcome.next.injEq] at hx
    subst hx
    unfold State.flushSink
    split
    · exact ⟨s.outBytes, s.bsAcc, s.bsCnt, rfl⟩
    · exact ⟨_, _, _, rfl⟩
  | initTree p => exact .tree (.inl ⟨p, rfl⟩) (tree (initTree_ends p s) hx)
  | contractNode o n => exact .tree (.inr (.inl ⟨o, n, rfl⟩)) (tree (contractNode_ends o n s) hx)
  | replaceNode o n => exact .tree (.inr (.inr (.inl ⟨o, n, rfl⟩))) (tree (replaceNode_ends o n s) hx)
  | deleteNode n => exact .tree (.inr (.inr (.inr ⟨n, rfl⟩))) (tree (deleteNode_ends n s) hx)
  | findNextNode n =>
    refine .find ⟨n, rfl⟩ ?_
    simp only [exec, execFindNextNode, findNextNode] at hx
    split at hx
    · cases hx; exact .inr rfl
    · split at hx <;> cases hx
      exact .inl ⟨_, rfl⟩
  | compare a b =>
    simp only [exec, execCompare, Host.Outcome.next.injEq] at hx
    exact .compare ⟨a, b, rfl⟩ ⟨_, _, hx.symm⟩
  | addNode p =>
    refine .add ⟨p, rfl⟩ ?_
    simp only [exec, execAddNode] at hx
    rcases Res.outcome_eq_next.mp hx with ⟨a, u, hr, rfl⟩ | hr
    · have := addNode_ends p s; rw [hr] at this; exact ⟨u, this, .inl ⟨_, rfl⟩⟩
    · have := addNode_ends p s; rw [hr] at this
      obtain ⟨u, hu, e⟩ := this
      exact ⟨u, hu, .inr e⟩
  | prefill => exact .prefill rfl ((prefill_ends s).same hx)
  | emitLiteral => exact emission_ends rfl hx
  | emitMatch =>
    by_cases hk : s.matchPos = 0 ∨ 17 < s.matchLen
    · refine .check (if_pos hk) (.inr rfl) ?_
      have hk' : s.matchPos = 0 ∨ BitVec.ofNat 5 Config.lookAhead < s.matchLen := hk
      simp only [exec, execEmitMatch, emitMatch, hk', if_true, raise, Res.stop_outcome, Host.Outcome.next.injEq] at hx
      exact hx.symm
    · exact emission_ends (if_neg hk) hx
  | advance => exact .advance rfl ((advance_ends s).same hx)
  | emitEos => exact emission_ends rfl hx
  | compressData => exact absurd rfl h1
  | reset => exact absurd rfl h2
  | start =>
    refine .start rfl ?_
    simp only [exec, execStart, Host.Outcome.next.injEq] at hx
    subst hx
    split
    · rename_i h; exact .inr ⟨h, rfl⟩
    · exact .inl rfl

end Sys2Proof.Machine
end

