-- ==== Sys2Proof/Tests/Slice0.lean ====
section
/-! SUPPORT. The model's own tests: ill-formed terms refused, words of the spec decoded, single steps against the vectors of
95_test_vectors.md, and for every obligation with hypotheses a state and operands that meet them. -/

namespace Sys2Proof.Tests

open Sys2Proof Sys2Proof.Machine

/-! ## Helpers -/

/-- The next state of an outcome. -/
def next? (o : Host.Outcome State Fault Refusal) : Option State :=
  match o with
  | .next t => some t
  | _ => none

/-- The refusal of an outcome. -/
def refusal? (o : Host.Outcome State Fault Refusal) : Option Refusal :=
  match o with
  | .refused r => some r
  | _ => none

/-- The fault of an outcome. -/
def fault? (o : Host.Outcome State Fault Refusal) : Option Fault :=
  match o with
  | .fault f => some f
  | _ => none

/-- What one step of an instruction leaves in a part of the state. -/
def seen {α : Type} (f : State → α) (i : Instr) (s : State) : Option α := (next? (exec i s)).map f

/-- The instruction completes in the state. -/
def runs (i : Instr) (s : State) : Bool := (next? (exec i s)).isSome

/-- The driver registers as the spec's state tuple `(winPos, aheadBytes, matchLen, matchPos, eos)`. -/
structure Tuple where
  winPos     : Pos
  aheadBytes : Cnt
  matchLen   : Cnt
  matchPos   : Pos
  eos        : Bool
  deriving DecidableEq

def tuple (s : State) : Tuple := ⟨s.winPos, s.aheadBytes, s.matchLen, s.matchPos, s.eos⟩

/-- A node record as the spec writes it. -/
def nd (p s l : NodeIx) : NodeRec := { parent := p, smallChild := s, largeChild := l }

def inByte (b : Byte) : InItem := { ack := true, data := b, eoi := false, err := false }
def inEoi : InItem := { ack := true, data := 0, eoi := true, err := false }
def inErr : InItem := { ack := true, data := 0, eoi := false, err := true }
def inNone : InItem := { ack := false, data := 0, eoi := false, err := false }
def outOk : OutItem := { ack := true, err := false }
def outErr : OutItem := { ack := true, err := true }
def outNone : OutItem := { ack := false, err := false }

/-- Cells from an address on. -/
def cells (a : Nat) : List Byte → Memory
  | [] => []
  | b :: t => (a, b) :: cells (a + 1) t

/-- The tree `T8` with its window (section 2.3 of the vectors). -/
def t8 : State :=
  { State.reset with
    window := cells 1 [0x41, 0x42, 0x58, 0x41, 0x42, 0x59, 0x41, 0x42]
    node := [(1, nd 1024 7 2), (2, nd 1 4 3), (3, nd 2 5 6), (4, nd 2 0 8), (5, nd 3 0 0), (6, nd 3 0 0), (7, nd 1 0 0),
      (8, nd 4 0 0), (1024, nd 0 0 1)] }

/-- The window of program P4. -/
def abWindow : Memory := cells 1 [0x41, 0x42, 0x41, 0x42, 0x41, 0x42, 0x41, 0x42]

/-- The window of program P3. -/
def aWindow : Memory := cells 1 (List.replicate 18 0x41)

/-- The tree `InitTree(1)` leaves. -/
def tree1 : NodeMemory := [(1, nd 1024 0 0), (1024, nd 0 0 1)]

/-- Program P4 after its second literal and the first advance: nodes 1 and 2. -/
def tree2 : NodeMemory := [(1, nd 1024 0 2), (2, nd 1 0 0), (1024, nd 0 0 1)]

/-- Program P1 before step 6. -/
def p1Emit : State :=
  { State.reset with
    aheadBytes := 1, eos := true, seq := .emit, window := [(1, 0x41)], node := tree1, nReads := 2, inEnded := true
    events := [.read (.byte 0x41), .read .eoi] }

/-! ## Well-formedness: each check refuses an ill-formed term -/

theorem test_wf_matchRecord_position_zero : (Instr.matchRecord 0 5).wf = false := by decide
theorem test_wf_writeBits_count_zero : (Instr.writeBits 1 0).wf = false := by decide
theorem test_wf_writeBits_count_33 : (Instr.writeBits 1 33).wf = false := by decide
theorem test_wf_initTree_zero : (Instr.initTree 0).wf = false := by decide
theorem test_wf_compare_test_zero : (Instr.compare 5 0).wf = false := by decide
/-- The terms just inside the ranges are accepted. -/
theorem test_wf_boundaries :
    [Instr.matchRecord 1 0, .matchRecord 1023 15, .writeBits 1 1, .writeBits 1 32, .initTree 1, .initTree 1023, .compare 0 1,
      .compare 1023 1023, .deleteNode 0, .deleteNode 1023, .contractNode 0 1024].all Instr.wf = true := by decide

/-! ## Decoding: words written out from the spec's encodings (R102 to R104, V-E; R113 and notes/assumptions/2.md) -/

/-- Bits from a string of `0` and `1`. -/
def bits (s : String) : List Bool := s.toList.filterMap fun c => if c = '1' then some true else if c = '0' then some false else none

/-- What a request decodes to. -/
def decoded (r : Request) : Option Instr :=
  match decode r with
  | .ok i => some i
  | .error _ => none

theorem test_decode_literal : decoded (.record (bits "1 01000001")) = some (.literal 0x41) := by decide
theorem test_decode_literal_ends : decoded (.record (bits "1 00000000")) = some (.literal 0) ∧
    decoded (.record (bits "1 11111111")) = some (.literal 255) := by decide
theorem test_decode_match : decoded (.record (bits "0 0000000100 0000")) = some (.matchRecord 4 0) := by decide
theorem test_decode_match_ends : decoded (.record (bits "0 0000000001 1111")) = some (.matchRecord 1 15) ∧
    decoded (.record (bits "0 1111111101 1111")) = some (.matchRecord 1021 15) := by decide
theorem test_decode_eos : decoded (.record (bits "0 0000000000")) = some .eos := by decide
/-- V-E11. -/
theorem test_decode_stream :
    (match decodeStream (bits "0 0000000001 0100 0 0000000000") with | .ok x => some x | .error _ => none) =
      some ([.matchRecord 1 4, .eos], []) := by decide
theorem test_decode_truncated : decoded (.record (bits "0 0000000001 010")) = none ∧ decoded (.record (bits "1 0100000")) = none ∧
    decoded (.record (bits "0 000000000")) = none ∧ decoded (.record []) = none := by decide
theorem test_decode_readByte : decoded (.operation [0b00001]) = some .readByte := by decide
theorem test_decode_writeBit : decoded (.operation [0b00010, 1]) = some (.writeBit true) ∧
    decoded (.operation [0b00010, 2]) = none := by decide
theorem test_decode_writeBits : decoded (.operation [0b00011, 0x41, 0x01, 0, 0x80, 7]) = some (.writeBits 0x80000141 8) ∧
    decoded (.operation [0b00011, 0, 0, 0, 0, 32]) = none := by decide
theorem test_decode_flush : decoded (.operation [0b00100]) = some .flush := by decide
theorem test_decode_initTree : decoded (.operation [0b00101, 0, 0]) = some (.initTree 1) ∧
    decoded (.operation [0b00101, 0xFF, 0x03]) = none := by decide
theorem test_decode_contractNode : decoded (.operation [0b00110, 4, 0, 0x00, 0x04]) = some (.contractNode 4 1024) ∧
    decoded (.operation [0b00110, 0x01, 0x04, 0, 0]) = none := by decide
theorem test_decode_replaceNode : decoded (.operation [0b00111, 2, 0, 9, 0]) = some (.replaceNode 2 9) := by decide
theorem test_decode_findNextNode : decoded (.operation [0b01000, 2, 1]) = some (.findNextNode 258) := by decide
theorem test_decode_deleteNode : decoded (.operation [0b01001, 0xFF, 0x03]) = some (.deleteNode 1023) ∧
    decoded (.operation [0b01001, 0x00, 0x04]) = none := by decide
theorem test_decode_compare : decoded (.operation [0b01010, 2, 0, 0xF0, 0x03]) = some (.compare 2 1009) := by decide
theorem test_decode_addNode : decoded (.operation [0b01011, 5, 0]) = some (.addNode 5) := by decide
theorem test_decode_prefill : decoded (.operation [0b01100]) = some .prefill := by decide
theorem test_decode_emitLiteral : decoded (.operation [0b01101]) = some .emitLiteral := by decide
theorem test_decode_emitMatch : decoded (.operation [0b01110]) = some .emitMatch := by decide
theorem test_decode_advance : decoded (.operation [0b01111]) = some .advance := by decide
theorem test_decode_emitEos : decoded (.operation [0b10000]) = some .emitEos := by decide
theorem test_decode_compressData : decoded (.operation [0b10001]) = some .compressData := by decide
theorem test_decode_start : decoded (.operation [0b10010]) = some .start := by decide
theorem test_decode_reset : decoded (.operation [0b10011]) = some .reset := by decide
/-- OPSEL 0 and 20 and above are no operation. -/
theorem test_decode_unknown : decoded (.operation [0]) = none ∧ decoded (.operation [0b10100]) = none ∧
    decoded (.operation [0xFF]) = none ∧ decoded .quiet = none := by decide

/-- The words of spec/opcode_table.json that a table number can stand for, in the numbering of the host. -/
theorem test_table_words :
    decodeTableWord 9 0x141 = some (.literal 0x41) ∧ decodeTableWord 15 0x001F = some (.matchRecord 1 15) ∧
    decodeTableWord 11 0 = some .eos ∧ decodeTableWord 16 0x100 = some (.literal 0) ∧ decodeTableWord 16 0x0 = some .eos ∧
    decodeTableWord 16 0x0010 = some (.matchRecord 1 0) ∧ decodeTableWord 8 0x03 = some (.writeBits 0 1) ∧
    decodeTableWord 8 0x0A = some (.compare 0 1) ∧ decodeTableWord 8 0x13 = some .reset ∧ decodeTableWord 8 0x14 = none := by
  decide

/-- The word placed for the next step is what the next step runs. -/
theorem test_withFetchWord :
    (next? (step (State.reset.withFetchWord 8 0x12))).map State.seq = some .fill ∧
    (next? (step (State.reset.withFetchWord 16 0x141))).map State.outBits = some (bits "101000001") := by decide

/-! ## Single steps: the expected values are those of 95_test_vectors.md -/

/-- V-E1. -/
theorem test_literal : seen State.outBits (.literal 0) State.reset = some (bits "1 00000000") := by decide
/-- V-E6; V-E10. -/
theorem test_matchRecord : seen State.outBits (.matchRecord 1023 15) State.reset = some (bits "0 1111111111 1111") ∧
    seen State.cause (.matchRecord 0 3) State.reset = some .invariantViolation := by decide
/-- V-E9, V-IO7: eleven zero bits, one byte put out, three bits left. -/
theorem test_eos : seen (fun t => (t.outBits, t.outBytes, t.bsCnt)) .eos State.reset = some (bits "00000000000", [0x00], 3) := by
  decide
/-- V-IO11. -/
theorem test_readByte : seen (fun t => (t.result, t.nReads, t.events)) .readByte { State.reset with inPort := [inByte 0x41] } =
      some (.item (.byte 0x41), 1, [.read (.byte 0x41)]) ∧
    seen State.result .readByte State.reset = some (.item .eoi) := by decide
/-- V-F5: the error overrides the end of input. -/
theorem test_readByte_error :
    seen (fun t => (t.cause, t.eos, t.nReads)) .readByte { State.reset with inPort := [{ ack := true, data := 1, eoi := true, err := true }] } =
      some (.inputReadError, false, 1) := by decide
/-- R134, R135: the first bit goes to bit 7. -/
theorem test_writeBit : seen (fun t => (t.outBits, t.bsAcc, t.bsCnt)) (.writeBit true) State.reset = some ([true], 0x80, 1) := by
  decide
/-- R242: a refused bit is not part of the output. -/
theorem test_writeBit_refused : seen (fun t => (t.outBits, t.cause, t.statusWord)) (.writeBit true) { State.reset with outPort := [outErr] } =
    some ([], .outputWriteError, 0x67) := by decide
/-- V-IO4, V-IO2. -/
theorem test_writeBits : seen State.outBits (.writeBits 0x141 8) State.reset = some (bits "01000001") ∧
    seen State.outBits (.writeBits 1 10) State.reset = some (bits "0000000001") := by decide
/-- V-IO6; R133's contract. -/
theorem test_writeBits_ends : seen State.outBits (.writeBits 0x80000000 32) State.reset = some (true :: List.replicate 31 false) ∧
    refusal? (exec (.writeBits 0 0) State.reset) = some .bitCountOutsideContract := by decide
/-- V-IO12, R136. -/
theorem test_flush : seen State.outBytes .flush State.reset = some [] ∧
    seen (fun t => (t.outBytes, t.bsAcc, t.bsCnt)) .flush { State.reset with bsAcc := 0xA0, bsCnt := 3 } = some ([0xA0], 0, 0) := by
  decide
/-- V-T1. -/
theorem test_initTree : seen State.node (.initTree 1) State.reset = some tree1 ∧
    refusal? (exec (.initTree 0) State.reset) = some .initTreeAtPositionZero := by decide
/-- V-T2, V-T3. -/
theorem test_contractNode :
    seen (fun t => (t.nodeAt 2, t.nodeAt 8, t.nodeAt 4)) (.contractNode 4 8) t8 = some (nd 1 8 3, nd 2 0 0, nd 0 0 0) ∧
    seen (fun t => (t.nodeAt 0, t.nodeAt 1, t.nodeAt 7)) (.contractNode 7 0) t8 = some (nd 1 0 0, nd 1024 0 2, nd 0 0 0) := by
  decide
/-- V-T4. -/
theorem test_replaceNode :
    seen (fun t => (t.nodeAt 1, t.nodeAt 9, t.nodeAt 3, t.nodeAt 4, t.nodeAt 2)) (.replaceNode 2 9) t8 =
      some (nd 1024 7 9, nd 1 4 3, nd 9 5 6, nd 9 0 8, nd 0 0 0) := by decide
/-- V-T5, V-T6, V-T7. -/
theorem test_findNextNode : seen State.result (.findNextNode 2) t8 = some (.node 8) ∧
    seen State.result (.findNextNode 1) t8 = some (.node 7) ∧
    seen State.cause (.findNextNode 4) t8 = some .invariantViolation := by decide
/-- A chain that is a cycle has no end: the named fault (notes/assumptions/12.md). -/
theorem test_findNextNode_cycle :
    fault? (exec (.findNextNode 1) { State.reset with node := [(1, nd 1024 2 0), (2, nd 1 0 2)] }) = some .walkNeverEnds := by
  decide +kernel
/-- V-T10 (case 3 under the root), V-T14 (the direct `smallChild`). -/
theorem test_deleteNode :
    seen (fun t => (t.nodeAt 1024, t.nodeAt 7, t.nodeAt 2, t.nodeAt 1, t.nodeAt 0)) (.deleteNode 1) t8 =
      some (nd 0 0 7, nd 1024 0 2, nd 7 4 3, nd 0 0 0, nd 7 0 0) ∧
    seen (fun t => (t.nodeAt 2, t.nodeAt 5, t.nodeAt 6, t.nodeAt 0, t.nodeAt 3)) (.deleteNode 3) t8 =
      some (nd 1 4 5, nd 2 0 6, nd 5 0 0, nd 5 0 0, nd 0 0 0) := by decide
/-- V-T8, V-T12, V-T13. -/
theorem test_deleteNode_more :
    seen (fun t => (t.nodeAt 0, t.nodeAt 1, t.nodeAt 8, t.nodeAt 4, t.nodeAt 3, t.nodeAt 2)) (.deleteNode 2) t8 =
      some (nd 4 0 0, nd 1024 7 8, nd 1 4 3, nd 8 0 0, nd 8 5 6, nd 0 0 0) ∧
    seen id (.deleteNode 18) t8 = some t8 ∧
    seen State.node (.deleteNode 0) { t8 with node := (0, nd 4 0 0) :: t8.node } = some ((0, nd 4 0 0) :: t8.node) := by decide
/-- V-C2, V-C6 (a key that runs into cells never written). -/
theorem test_compare :
    seen (fun t => (t.i, t.delta.toInt)) (.compare 3 1) { State.reset with window := abWindow } = some (6, -65) ∧
    seen (fun t => (t.i, t.delta.toInt)) (.compare 3 2) { State.reset with window := aWindow } = some (16, -65) := by decide
/-- V-C7 (bytes are not sign-extended), V-C4. -/
theorem test_compare_bytes :
    seen (fun t => (t.i, t.delta.toInt)) (.compare 2 1) { State.reset with window := cells 1 [0x80, 0x7F, 0x80, 0x7F, 0x80] } =
      some (0, -1) ∧
    seen (fun t => (t.i, t.delta.toInt)) (.compare 2 1) State.reset = some (17, 0) := by decide
/-- V-A3 and V-A5 (the exact match). -/
theorem test_addNode :
    seen (fun t => (t.result, t.nodeAt 1, t.nodeAt 3)) (.addNode 3) { State.reset with window := abWindow, node := tree2 } =
      some (.best 6 1, nd 1024 3 2, nd 1 0 0) ∧
    seen (fun t => (t.result, t.nodeAt 1024, t.nodeAt 2, t.nodeAt 1, t.nodeAt 0)) (.addNode 2)
        { State.reset with window := aWindow, node := tree1 } =
      some (.best 17 1, nd 0 0 2, nd 1024 0 0, nd 0 0 0, nd 2 0 0) := by decide
/-- V-A1, V-A7 (of equal lengths the later node wins), V-A8. -/
theorem test_addNode_more :
    seen (fun t => (t.result, t.node)) (.addNode 0) { t8 with matchPos := 1007 } = some (.best 0 1007, t8.node) ∧
    seen State.result (.addNode 5)
        { State.reset with window := abWindow, node := [(1, nd 1024 3 2), (2, nd 1 4 0), (3, nd 1 0 0), (4, nd 2 0 0), (1024, nd 0 0 1)] } =
      some (.best 4 3) ∧
    seen State.cause (.addNode 2) t8 = some .invariantViolation := by decide
/-- P1 steps 2 and 3. -/
theorem test_prefill :
    seen (fun t => (t.window, t.aheadBytes, t.seq)) .prefill { State.reset with seq := .fill, inPort := [inByte 0x41] } =
      some ([(1, 0x41)], 1, .fill) ∧
    seen (fun t => (t.eos, t.seq)) .prefill { State.reset with seq := .fill, aheadBytes := 1 } = some (true, .fill) := by decide
/-- P1 step 4; V-F2, the third read of a prefill answered with an error. -/
theorem test_prefill_more :
    seen State.seq .prefill { State.reset with seq := .fill, aheadBytes := 17 } = some .init ∧
    seen (fun t => (tuple t, t.cause, t.statusWord)) .prefill
        { State.reset with seq := .fill, aheadBytes := 2, inPort := [inErr] } = some (⟨1, 2, 0, 0, false⟩, .inputReadError, 0xA7) := by
  decide
/-- P1 step 6. -/
theorem test_emitLiteral : seen State.outBits .emitLiteral p1Emit = some (bits "1 01000001") := by decide
/-- P3, `S_EMIT (2,17,17,1)`; R205's two checks. -/
theorem test_emitMatch :
    seen State.outBits .emitMatch { State.reset with matchLen := 17, matchPos := 1 } = some (bits "0 0000000001 1111") ∧
    seen State.cause .emitMatch { State.reset with matchLen := 17 } = some .invariantViolation ∧
    seen State.cause .emitMatch { State.reset with matchLen := 18, matchPos := 1 } = some .invariantViolation := by decide
/-- P1 step 7. -/
theorem test_advance_end :
    seen (fun t => (tuple t, t.advCnt, t.seq, t.node)) .advance { p1Emit with seq := .adv, replCnt := 1 } =
      some (⟨2, 0, 0, 0, true⟩, 1, .emit, tree1) := by decide
/-- P3, the first advance: a byte comes in, and the exact match replaces node 1. -/
theorem test_advance_byte :
    seen (fun t => (tuple t, t.byteAt 18, t.node)) .advance
        { State.reset with
          seq := .adv, replCnt := 1, aheadBytes := 17, window := cells 1 (List.replicate 17 0x41), node := tree1
          inPort := [inByte 0x41] } =
      some (⟨2, 17, 17, 1, false⟩, 0x41, [(0, nd 2 0 0), (2, nd 1024 0 0), (1024, nd 0 0 2)]) := by decide
/-- P1 step 9: 20 bits and 4 padding bits. -/
theorem test_emitEos :
    seen (fun t => (t.outBytes, t.bsCnt, t.done, t.statusWord)) .emitEos
        { State.reset with seq := .eos, eos := true, outBits := bits "101000001", outBytes := [0xA0], bsAcc := 0x80, bsCnt := 1 } =
      some ([0xA0, 0x80, 0x00], 0, true, 0x1E) := by decide
/-- P1, the whole run: V-D1. -/
theorem test_compressData :
    seen (fun t => (tuple t, t.outBytes, t.nReads, t.statusWord)) .compressData (State.onInput [0x41]) =
      some (⟨2, 0, 0, 0, true⟩, [0xA0, 0x80, 0x00], 3, 0x1E) := by decide
/-- V-D14: the run of P2 ends in the tree `T8`. -/
theorem test_compressData_p2 :
    seen (fun t => (tuple t, t.outBytes, t.nReads, t.node)) .compressData
        (State.onInput [0x41, 0x42, 0x58, 0x41, 0x42, 0x59, 0x41, 0x42]) =
      some (⟨9, 0, 1, 2, true⟩, [0xA0, 0xD0, 0xAB, 0x00, 0x04, 0x2B, 0x20, 0x04, 0x00, 0x00], 17, t8.node) := by decide +kernel
/-- V-R2, V-R3. -/
theorem test_start : seen id .start State.reset = some { State.reset with seq := .fill } ∧
    seen id .start { t8 with seq := .done, done := true } = some { t8 with seq := .done, done := true } := by decide
/-- V-R4, V-R1. -/
theorem test_reset : seen id .reset { t8 with seq := .done, done := true } = some State.reset ∧
    State.reset.statusWord = 0 := by decide

/-! ## The sequencer's own steps -/

/-- P1 step 5. -/
theorem test_step_init : (next? (step { p1Emit with seq := .init, node := [] })).map (fun t => (t.node, t.seq)) = some (tree1, .emit) := by
  decide
/-- P1 step 6; V-D9, the clamp cuts 17 to 2. -/
theorem test_step_emit :
    (next? (step p1Emit)).map (fun t => (t.outBits, t.replCnt, t.advCnt, t.seq)) = some (bits "101000001", 1, 0, .adv) ∧
    (next? (step { State.reset with seq := .emit, winPos := 2, aheadBytes := 2, matchLen := 17, matchPos := 1 })).map
        (fun t => (t.outBits, t.matchLen, t.replCnt)) = some (bits "000000000010000", 2, 2) := by decide

/-! ## Trees that meet the shape and the order -/

/-- Program P4 after its second advance: three nodes. -/
def t3 : State :=
  { State.reset with window := abWindow, node := [(1, nd 1024 3 2), (2, nd 1 0 0), (3, nd 1 0 0), (1024, nd 0 0 1)] }

theorem t3_other (n : NodeIx) : n = 1 ∨ n = 2 ∨ n = 3 ∨ n = 1024 ∨ t3.nodeAt n = NodeRec.zero := by revert n; decide +kernel

theorem t3_small (n : NodeIx) : (t3.nodeAt n).parent = 0 ∨ n = 1 ∨ n = 2 ∨ n = 3 := by revert n; decide +kernel

theorem t3_live {n : NodeIx} (h : liveIn t3.nodeAt n) : n = 1 ∨ n = 2 ∨ n = 3 := (t3_small n).resolve_left h.2.2
theorem t3_live1 : liveIn t3.nodeAt 1 := by unfold liveIn; decide
theorem t3_live2 : liveIn t3.nodeAt 2 := by unfold liveIn; decide
theorem t3_live3 : liveIn t3.nodeAt 3 := by unfold liveIn; decide

theorem t3_linked {n : NodeIx} (h : linkedIn t3.nodeAt n) : n = 1024 ∨ n = 1 ∨ n = 2 ∨ n = 3 := h.imp id t3_live

theorem test_t3_shape : TreeShape t3.nodeAt where
  root    := by decide
  scratch := by decide
  dead    := by decide +kernel
  up      := by
    intro n h
    rcases t3_live h with rfl | rfl | rfl
    · exact ⟨.inl (by decide), by decide⟩
    · exact ⟨.inr t3_live1, by decide⟩
    · exact ⟨.inr t3_live1, by decide⟩
  small   := by
    intro p h hc
    rcases t3_linked h with rfl | rfl | rfl | rfl
    · exact absurd hc (by decide)
    · exact ⟨t3_live3, by decide⟩
    · exact absurd hc (by decide)
    · exact absurd hc (by decide)
  large   := by
    intro p h hc
    rcases t3_linked h with rfl | rfl | rfl | rfl
    · exact ⟨t3_live1, by decide⟩
    · exact ⟨t3_live2, by decide⟩
    · exact absurd hc (by decide)
    · exact absurd hc (by decide)
  apart   := by
    intro p h
    rcases t3_linked h with rfl | rfl | rfl | rfl <;> decide
  rank    := ⟨fun n => if n = 1 then 1 else if n = 1024 then 0 else 2, by
    intro n h
    rcases t3_live h with rfl | rfl | rfl <;> decide⟩

theorem t3_under {c n : NodeIx} (hc : c = 2 ∨ c = 3) (h : Under t3.nodeAt c n) : n = c := by
  induction h with
  | here => rfl
  | step n hl _ ih =>
    exfalso
    rcases t3_live hl with rfl | rfl | rfl <;> rcases hc with rfl | rfl <;> revert ih <;> decide

theorem test_t3_ordered : Ordered t3.nodeAt t3.window := by
  intro t h
  rcases t3_live h with rfl | rfl | rfl
  · refine ⟨fun _ n hn => ?_, fun _ n hn => ?_⟩
    · have e : n = 3 := t3_under (.inr rfl) hn
      subst e; decide +kernel
    · have e : n = 2 := t3_under (.inl rfl) hn
      subst e; decide +kernel
  · exact ⟨fun hc => absurd hc (by decide), fun hc => absurd hc (by decide)⟩
  · exact ⟨fun hc => absurd hc (by decide), fun hc => absurd hc (by decide)⟩


theorem t1_live {n : NodeIx} (h : liveIn p1Emit.nodeAt n) : n = 1 := by
  have small : ∀ n : NodeIx, (p1Emit.nodeAt n).parent = 0 ∨ n = 1 := by decide +kernel
  exact (small n).resolve_left h.2.2

theorem t1_live1 : liveIn p1Emit.nodeAt 1 := by unfold liveIn; decide

theorem test_t1_shape : TreeShape p1Emit.nodeAt where
  root    := by decide
  scratch := by decide
  dead    := by decide +kernel
  up      := by
    intro n h
    obtain rfl := t1_live h
    exact ⟨.inl (by decide), by decide⟩
  small   := by
    intro p h hc
    rcases h.imp id t1_live with rfl | rfl <;> exact absurd hc (by decide)
  large   := by
    intro p h hc
    rcases h.imp id t1_live with rfl | rfl
    · exact ⟨t1_live1, by decide⟩
    · exact absurd hc (by decide)
  apart   := by
    intro p h
    rcases h.imp id t1_live with rfl | rfl <;> decide
  rank    := ⟨fun n => n.val % 1024, by
    intro n h
    obtain rfl := t1_live h
    decide⟩

theorem test_t1_ordered : Ordered p1Emit.nodeAt p1Emit.window := by
  intro t h
  obtain rfl := t1_live h
  exact ⟨fun hc => absurd hc (by decide), fun hc => absurd hc (by decide)⟩

theorem posToNode_eq {p q : Pos} (h : posToNode p = posToNode q) : p = q :=
  BitVec.eq_of_toNat_eq (by simpa [posToNode] using h)

theorem test_t3_window : liveWithin t3.nodeAt 3 1007 ∧ anchored t3.nodeAt 3 := by
  refine ⟨fun p h => ?_, ?_⟩
  · rcases t3_live h with e | e | e
    · obtain rfl := posToNode_eq (q := 1) e; decide
    · obtain rfl := posToNode_eq (q := 2) e; decide
    · obtain rfl := posToNode_eq (q := 3) e; decide
  · exact t3_live3

/-- The invariant of runs holds before step 6 of P1: with a tree, an input that has ended and a byte to put out. -/
theorem test_p1_runInv : RunInv p1Emit where
  host     := by decide
  memories := by decide
  flags    := by decide
  trace    := by decide
  packing  := ⟨fun _ => by decide, fun h => absurd h (by decide), by decide⟩
  driver   := ⟨by decide, by decide, by decide, .inl rfl⟩
  tree     := ⟨test_t1_shape, fun p h => by obtain rfl := posToNode_eq (q := 1) (t1_live h); decide, fun _ => t1_live1⟩
  window   := ⟨by decide, by decide⟩
  stream   := fun _ => ⟨[], by decide, by decide, by decide⟩
  noViolation := by decide

/-! ## For every obligation with hypotheses, values that meet them, clause by clause -/

theorem exists_next {o : Host.Outcome State Fault Refusal} (h : (next? o).isSome = true) : ∃ t, o = .next t := by
  cases o with
  | next t => exact ⟨t, rfl⟩
  | fault f => exact absurd h (by simp [next?])
  | refused r => exact absurd h (by simp [next?])

theorem exists_next_with {o : Host.Outcome State Fault Refusal} {q : State → Prop} {b : State → Bool} (hq : ∀ t, b t = true → q t)
    (h : (next? o).any b = true) : ∃ t, o = .next t ∧ q t := by
  cases o with
  | next t => exact ⟨t, rfl, hq t (by simpa [next?] using h)⟩
  | fault f => exact absurd h (by simp [next?])
  | refused r => exact absurd h (by simp [next?])

theorem test_meets_DecodeAndEncodeAgree : (Instr.writeBits 0 32).wf = true ∧ (Instr.initTree 1023).wf = true ∧
    (Instr.matchRecord 1 0).wf = true ∧ decode (.operation [0b01001, 0xFF, 0x03]) = .ok (.deleteNode 1023) :=
  ⟨by decide, by decide, by decide, by rfl⟩

theorem test_meets_RecordsDecodeBeforeAnyTail :
    ((Instr.matchRecord 1023 15).wf = true ∧ (Instr.matchRecord 1023 15).recordBits = some (bits "0 1111111111 1111")) ∧
    ((Instr.literal 0).wf = true ∧ (Instr.literal 0).recordBits = some (bits "1 00000000")) ∧
    (Instr.eos.wf = true ∧ Instr.eos.recordBits = some (bits "0 0000000000")) := by decide

theorem test_meets_StreamsParseBack : [Instr.literal 0x41, .matchRecord 1 15].all Instr.isData = true := by decide

theorem test_meets_LengthFieldIsBiased : ((2 : Cnt) ≤ 2 ∧ (2 : Cnt) ≤ 17) ∧ ((2 : Cnt) ≤ 17 ∧ (17 : Cnt) ≤ 17) := by decide

theorem test_meets_ResetState : ∃ t, exec .reset t8 = .next t := exists_next (by decide)

theorem test_meets_ResetFromAnyState :
    (∃ t, step { State.reset with seq := .done, done := true, reqs := [.operation [0b10011]] } = .next t ∧ t.seq ≠ .done) ∧
    (∃ t, step { State.reset with seq := .fault, fault := true, reqs := [.operation [0b10011]] } = .next t ∧ t.seq ≠ .fault) :=
  ⟨exists_next_with (b := fun t => t.seq != .done) (by simp) (by decide),
    exists_next_with (b := fun t => t.seq != .fault) (by simp) (by decide)⟩

theorem test_meets_StartLeavesIdle : State.reset.seq = .idle ∧ p1Emit.seq ≠ .idle := by decide

theorem test_meets_PortSignals : (inErr.ack = true ∧ inErr.err = true) ∧ (inEoi.ack = true ∧ inEoi.err = false ∧ inEoi.eoi = true) ∧
    ((inByte 1).ack = true ∧ (inByte 1).err = false ∧ (inByte 1).eoi = false) ∧ inNone.ack = false ∧ outErr.err = true ∧
    (outOk.err = false ∧ outOk.ack = true) ∧ (outNone.err = false ∧ outNone.ack = false) ∧ State.reset.inPort = [] ∧
    State.reset.outPort = [] := by decide

theorem test_meets_ReadByteOutcomes :
    (({ State.reset with inPort := [inByte 7] }).nextInput = some (.byte 7) ∧ State.reset.inEnded = false) ∧
    State.reset.nextInput = some .eoi ∧ ({ State.reset with inPort := [inErr] }).nextInput = some .err ∧
    ({ State.reset with inPort := [inNone] }).nextInput = none ∧
    (({ p1Emit with inPort := [inByte 7] }).nextInput = some (.byte 7) ∧ p1Emit.inEnded = true) := by decide

theorem test_meets_WriteBitOutcomes : State.reset.nextSink = some true ∧
    ({ State.reset with outPort := [outErr] }).nextSink = some false ∧
    ({ State.reset with outPort := [outNone] }).nextSink = none := by decide

theorem test_meets_PackBitFillsFromTheTop : ({ State.reset with bsCnt := 7 }).bsCnt = 7 ∧ State.reset.bsCnt ≠ 7 := by decide

theorem test_meets_WriteBitsMostSignificantFirst : State.reset.sinkTakes 1 = true ∧ State.reset.sinkTakes 32 = true ∧
    ({ State.reset with outPort := [outErr] }).sinkRefusesAt 0 = true ∧
    ({ State.reset with outPort := List.replicate 31 outOk ++ [outErr] }).sinkRefusesAt 31 = true := by decide

theorem test_meets_FlushCompletesTheByte : State.reset.bsCnt = 0 ∧ ({ State.reset with bsAcc := 0xA0, bsCnt := 3 }).bsCnt ≠ 0 ∧
    (msbBits 8 (0xA0 : Byte).toNat).drop (3 : BitVec 3).toNat = List.replicate (8 - (3 : BitVec 3).toNat) false ∧
    runs .flush { State.reset with bsAcc := 0xA0, bsCnt := 3 } = true := by decide

theorem test_meets_RecordsArePutOut : State.reset.sinkTakes 9 = true ∧ State.reset.sinkTakes 15 = true ∧
    ({ State.reset with outPort := List.replicate 11 outOk }).sinkTakes 11 = true ∧ (1023 : Pos) ≠ 0 := by decide

theorem test_meets_EmitLiteralPutsOutTheByte : p1Emit.sinkTakes 9 = true := by decide

/-- Both checks of R205 and, between them, the lengths 2 and 17. -/
theorem test_meets_EmitMatchPutsOutThePair : State.reset.matchPos = 0 ∧ (17 : Cnt) < ({ State.reset with matchLen := 18 }).matchLen ∧
    (let s := { State.reset with matchLen := 17, matchPos := 1023 }; s.matchPos ≠ 0 ∧ s.matchLen ≤ 17 ∧ s.sinkTakes 15 = true ∧ 2 ≤ s.matchLen) ∧
    (let s := { State.reset with matchLen := 2, matchPos := 1 }; s.matchPos ≠ 0 ∧ s.matchLen ≤ 17 ∧ s.sinkTakes 15 = true ∧ 2 ≤ s.matchLen) := by
  decide

theorem test_meets_EmitEosEndsTheRun : ({ p1Emit with aheadBytes := 0, seq := .eos }).sinkTakes 11 = true := by decide

theorem test_meets_RefusedBitEndsTheStep :
    (p1Emit.emission .emitLiteral = some (bits "1 01000001") ∧ 8 < (bits "1 01000001").length ∧
      ({ p1Emit with outPort := List.replicate 8 outOk ++ [outErr] }).sinkRefusesAt 8 = true) ∧
    (p1Emit.stopped = false ∧ p1Emit.seq = .emit ∧ p1Emit.aheadBytes ≠ 0 ∧
      p1Emit.clamp.emission (if p1Emit.clamp.matchLen ≤ 1 then .emitLiteral else .emitMatch) = some (bits "1 01000001") ∧
      ({ p1Emit with outPort := [outErr] }).sinkRefusesAt 0 = true) := by decide

theorem test_meets_UnansweredBitStaysOffered :
    (State.reset.emission .eos = some (bits "0 0000000000") ∧ 10 < (bits "0 0000000000").length ∧
      ({ State.reset with outPort := List.replicate 10 outOk ++ [outNone] }).sinkWaitsAt 10 = true) ∧
    (let s := { p1Emit with outPort := List.replicate 8 outOk ++ [outNone] };
      s.stopped = false ∧ s.seq = .emit ∧ s.aheadBytes ≠ 0 ∧
      s.clamp.emission (if s.clamp.matchLen ≤ 1 then .emitLiteral else .emitMatch) = some (bits "1 01000001") ∧
      8 < (bits "1 01000001").length ∧ s.sinkWaitsAt 8 = true) ∧
    (let s := { State.reset with seq := .fill, aheadBytes := 16, inPort := [inNone] };
      s.aheadBytes < 17 ∧ s.eos = false ∧ s.nextInput = none) ∧
    (let s := { t8 with seq := .adv, winPos := 1009, inPort := [inNone] };
      (∃ u, exec (.deleteNode (s.winPos + 17)) s = .next u ∧ u.seq ≠ .fault) ∧ s.nextInput = none) :=
  ⟨by decide, by decide, by decide, exists_next_with (b := fun t => t.seq != .fault) (by simp) (by decide), by decide⟩

theorem test_meets_InitTreeWritesTwoRecords : (1 : Pos) ≠ 0 ∧ (1023 : Pos) ≠ 0 := by decide

theorem test_meets_ContractNodeSplices :
    (t8.nodeAt (t8.nodeAt 4).parent).smallChild = 4 ∧ (t8.nodeAt (t8.nodeAt 8).parent).largeChild = 8 ∧
    ((t8.nodeAt (t8.nodeAt 9).parent).largeChild ≠ 9 ∧ (t8.nodeAt (t8.nodeAt 9).parent).smallChild ≠ 9) := by decide

theorem test_meets_ReplaceNodeTakesThePlace :
    (TreeShape t3.nodeAt ∧ liveIn t3.nodeAt 1 ∧ (4 : NodeIx) ≠ 0 ∧ (4 : NodeIx) ≠ 1024 ∧ (t3.nodeAt 4).parent = 0) ∧
    ((t3.nodeAt (t3.nodeAt 9).parent).smallChild ≠ 9 ∧ (t3.nodeAt (t3.nodeAt 9).parent).largeChild ≠ 9) :=
  ⟨⟨test_t3_shape, t3_live1, by decide, by decide, by decide⟩, by decide⟩

theorem test_meets_FindNextNodeWalksToTheGreatest :
    (t8.nodeAt 4).smallChild = 0 ∧
    ((t8.nodeAt 2).smallChild ≠ 0 ∧ LargeWalk t8.nodeAt (t8.nodeAt 2).smallChild 8) ∧
    (TreeShape t3.nodeAt ∧ liveIn t3.nodeAt 1 ∧ (t3.nodeAt 1).smallChild ≠ 0 ∧ Ordered t3.nodeAt t3.window ∧
      Under t3.nodeAt (t3.nodeAt 1).smallChild 3) :=
  ⟨by decide, ⟨by decide, .step _ _ (by decide) (.here _ (by decide))⟩,
    test_t3_shape, t3_live1, by decide, test_t3_ordered, .here⟩

theorem test_meets_DeleteNodeToleratesDeadSlots : (t8.nodeAt (posToNode 18)).parent = 0 ∧ (0 : Pos) = 0 := by decide

theorem test_meets_DeleteNodeRemovesExactlyItsSlot : TreeShape t3.nodeAt ∧ liveIn t3.nodeAt (posToNode 1) := ⟨test_t3_shape, t3_live1⟩

theorem test_meets_DeleteNodeKeepsTheOrder : TreeShape t3.nodeAt ∧ Ordered t3.nodeAt t3.window ∧ ∃ t, exec (.deleteNode 1) t3 = .next t :=
  ⟨test_t3_shape, test_t3_ordered, exists_next (by decide)⟩

theorem test_meets_TreeOperationsTouchOnlyTheTree :
    runs (.initTree 1) t8 = true ∧ runs (.contractNode 4 8) t8 = true ∧ runs (.replaceNode 2 9) t8 = true ∧
    runs (.findNextNode 2) t8 = true ∧ runs (.deleteNode 2) t8 = true ∧ runs (.addNode 9) t8 = true := by decide

theorem test_meets_CompareGivesPrefixAndSign :
    (({ State.reset with window := abWindow }).compare 3 1).i.toNat < 17 ∧ (State.reset.compare 2 1).i.toNat = 17 := by decide

theorem test_meets_AddNodeGuards : ((2 : Pos) ≠ 0 ∧ (t8.nodeAt (posToNode 2)).parent ≠ 0) ∧
    ((2 : Pos) ≠ 0 ∧ (State.reset.nodeAt (posToNode 2)).parent = 0 ∧ (State.reset.nodeAt 1024).largeChild = 0) := by decide

/-- The hypotheses of the four statements about AddNode in a tree. -/
theorem test_meets_AddNodeLinksAndMatches : TreeShape t3.nodeAt ∧ (t3.nodeAt 1024).largeChild ≠ 0 ∧ (4 : Pos) ≠ 0 ∧
    (t3.nodeAt (posToNode 4)).parent = 0 := ⟨test_t3_shape, by decide, by decide, by decide⟩

theorem test_meets_AddNodeFindsTheLongest : TreeShape t3.nodeAt ∧ Ordered t3.nodeAt t3.window ∧ (t3.nodeAt 1024).largeChild ≠ 0 ∧
    (4 : Pos) ≠ 0 ∧ (t3.nodeAt (posToNode 4)).parent = 0 :=
  ⟨test_t3_shape, test_t3_ordered, by decide, by decide, by decide⟩

/-- The path of `AddNode(4)` in P4 is 1, 2. -/
theorem test_meets_AddNodeTiesGoToTheDeepest : TreeShape t3.nodeAt ∧ (t3.nodeAt 1024).largeChild ≠ 0 ∧ (4 : Pos) ≠ 0 ∧
    (t3.nodeAt (posToNode 4)).parent = 0 ∧ Visits t3.nodeAt t3.window 4 (t3.nodeAt 1024).largeChild [1, 2] := by
  refine ⟨test_t3_shape, by decide, by decide, by decide, .step _ _ (by decide +kernel) (by decide +kernel) ?_⟩
  have e : childToward t3.nodeAt t3.window 4 (t3.nodeAt 1024).largeChild = 2 := by decide +kernel
  rw [e]
  exact .last _ (by decide +kernel) (by decide +kernel)

theorem test_meets_AddNodeKeepsTheOrder : TreeShape t3.nodeAt ∧ Ordered t3.nodeAt t3.window ∧ ∃ t, exec (.addNode 4) t3 = .next t :=
  ⟨test_t3_shape, test_t3_ordered, exists_next (by decide)⟩

theorem test_meets_ChecksRaise :
    ((t8.nodeAt (t8.nodeAt 9).parent).largeChild ≠ 9 ∧ (t8.nodeAt (t8.nodeAt 9).parent).smallChild ≠ 9) ∧
    (t8.nodeAt 4).smallChild = 0 ∧ (t8.nodeAt (posToNode 2)).parent ≠ 0 ∧ (State.reset.nodeAt 1024).largeChild = 0 ∧
    (17 : Cnt) < ({ State.reset with matchLen := 18 }).matchLen ∧ State.reset.matchPos = 0 := by decide

theorem test_meets_PrefillReadsOnce :
    (let s := { State.reset with seq := .fill, aheadBytes := 16, inPort := [inByte 5] };
      s.aheadBytes < 17 ∧ s.eos = false ∧ s.nextInput = some (.byte 5) ∧ s.inEnded = false) ∧
    (let s := { State.reset with seq := .fill }; s.aheadBytes < 17 ∧ s.eos = false ∧ s.nextInput = some .eoi) ∧
    17 ≤ ({ State.reset with aheadBytes := 17 }).aheadBytes ∧ p1Emit.eos = true := by decide

theorem test_meets_ReadErrorAborts :
    (let s := { State.reset with seq := .fill, aheadBytes := 16, inPort := [inErr] };
      s.aheadBytes < 17 ∧ s.eos = false ∧ s.nextInput = some .err) ∧
    (let s := { t8 with seq := .adv, winPos := 1009, inPort := [inErr] };
      (∃ u, exec (.deleteNode (s.winPos + 17)) s = .next u ∧ u.seq ≠ .fault) ∧ s.nextInput = some .err) :=
  ⟨by decide, exists_next_with (b := fun t => t.seq != .fault) (by simp) (by decide), by decide⟩

theorem test_meets_InitStepMakesTheTree :
    (let s := { p1Emit with seq := .init, node := [] }; s.stopped = false ∧ s.seq = .init ∧ s.winPos ≠ 0) := by decide

/-- The loop test; lengths 1 and 2; the clamp to 2; both checks. -/
theorem test_meets_EmitStepClampsAndChooses :
    (let s := { State.reset with seq := .emit }; s.stopped = false ∧ s.aheadBytes = 0) ∧
    (let s := { State.reset with seq := .emit, aheadBytes := 1, matchLen := 17 }; s.stopped = false ∧ s.aheadBytes ≠ 0 ∧
      (if s.aheadBytes < s.matchLen then s.aheadBytes else s.matchLen) ≤ 1 ∧ s.sinkTakes 9 = true) ∧
    (let s := { State.reset with seq := .emit, aheadBytes := 2, matchLen := 17, matchPos := 1 };
      let m := if s.aheadBytes < s.matchLen then s.aheadBytes else s.matchLen
      s.stopped = false ∧ s.aheadBytes ≠ 0 ∧ 1 < m ∧ m ≤ 17 ∧ s.matchPos ≠ 0 ∧ s.sinkTakes 15 = true) ∧
    (let s := { State.reset with seq := .emit, aheadBytes := 18, matchLen := 18, matchPos := 1 };
      let m := if s.aheadBytes < s.matchLen then s.aheadBytes else s.matchLen
      s.stopped = false ∧ s.aheadBytes ≠ 0 ∧ 1 < m ∧ 17 < m) ∧
    (let s := { State.reset with seq := .emit, aheadBytes := 2, matchLen := 2 };
      s.stopped = false ∧ s.aheadBytes ≠ 0 ∧ 1 < s.matchLen ∧ s.matchPos = 0) := by decide

/-- An advance from the tree of P4, at the end of the input and with a byte to come. -/
def advEnd : State :=
  { t3 with seq := .adv, winPos := 3, aheadBytes := 6, matchLen := 6, matchPos := 1, replCnt := 6, eos := true, inEnded := true }
def advByte : State :=
  { t3 with seq := .adv, winPos := 3, aheadBytes := 17, matchLen := 6, matchPos := 1, replCnt := 6, inPort := [inByte 0x41] }

theorem test_meets_AdvanceMovesTheWindow :
    (TreeShape advEnd.nodeAt ∧ liveWithin advEnd.nodeAt advEnd.winPos 1007 ∧ anchored advEnd.nodeAt advEnd.winPos ∧
      advEnd.nextInput = some .eoi) ∧
    (TreeShape advByte.nodeAt ∧ liveWithin advByte.nodeAt advByte.winPos 1007 ∧ anchored advByte.nodeAt advByte.winPos ∧
      advByte.nextInput = some (.byte 0x41) ∧ advByte.inEnded = false) :=
  ⟨⟨test_t3_shape, test_t3_window.1, test_t3_window.2, by decide⟩,
    test_t3_shape, test_t3_window.1, test_t3_window.2, by decide, by decide⟩

theorem test_meets_AdvanceKeepsTheOrder :
    TreeShape advByte.nodeAt ∧ Ordered advByte.nodeAt advByte.window ∧ liveWithin advByte.nodeAt advByte.winPos 1007 ∧
    ∃ t, exec .advance advByte = .next t :=
  ⟨test_t3_shape, test_t3_ordered, test_t3_window.1, exists_next (by decide)⟩

/-- One state for each row of the table of R200 that a step leaves without a fault and without waiting. -/
theorem test_meets_SequencerTable :
    [State.reset, { State.reset with seq := .fill }, { State.reset with seq := .init }, p1Emit, { State.reset with seq := .emit }, advByte,
      { State.reset with seq := .eos }].all
      (fun s => !s.stopped && (next? (sequencerStep s)).any fun t => t.wait == none && t.seq != .fault) = true := by decide

theorem test_meets_TransactionsInProgramOrder : ∃ t, sequencerStep advByte = .next t ∧ t.wait = none ∧ t.seq ≠ .fault :=
  exists_next_with (b := fun t => t.wait == none && t.seq != .fault) (by simp) (by decide)

theorem test_meets_WritersOfTheState : (∃ t, exec .prefill { State.reset with seq := .fill } = .next t) ∧ (∃ t, exec .advance advByte = .next t) ∧
    (∃ t, exec .emitEos p1Emit = .next t) :=
  ⟨exists_next (by decide), exists_next (by decide), exists_next (by decide)⟩

theorem test_meets_CompressDataIsItsSteps : runs .compressData (State.onInput []) = true := by decide +kernel

theorem test_meets_CompressDataEnds : RunInv p1Emit := test_p1_runInv

theorem test_meets_CompressDataCompletes : RunInv p1Emit ∧ inputContract p1Emit.inEnded p1Emit.inPort = true ∧ p1Emit.inputAnswers = true ∧
    p1Emit.sinkAnswers = true ∧ p1Emit.wait = none ∧ p1Emit.seq ≠ .fault :=
  ⟨test_p1_runInv, by decide, by decide, by decide, by decide, by decide⟩

theorem test_meets_StepRunsTheRaisedInstruction :
    (let s := { State.reset with reqs := [.operation [0b10010]] }; decode s.raised = .ok .start ∧ s.stopped = false) ∧
    (let s := { State.reset with seq := .done, done := true, reqs := [.operation [0b10010]] };
      decode s.raised = .ok .start ∧ s.stopped = true ∧ Instr.start ≠ .reset) ∧
    State.reset.raised = .quiet ∧
    (let s := { State.reset with reqs := [.operation [0]] }; s.raised ≠ .quiet ∧ decode s.raised = .error .unknownOpsel) :=
  ⟨⟨rfl, by decide⟩, ⟨rfl, by decide, by decide⟩, by decide, by decide, rfl⟩

theorem test_meets_FaultStopsTheBlock :
    (let s := { State.reset with seq := .fault, fault := true, cause := .inputReadError, reqs := [.operation [0b00001]] };
      s.seq = .fault ∧ decode s.raised ≠ .ok .reset ∧ ∃ t, step s = .next t) :=
  ⟨rfl, by intro h; injection h with h; exact absurd h (by decide), exists_next (by decide)⟩

theorem test_meets_StoppedBlockStays :
    (let s := { State.reset with seq := .done, done := true }; s.seq = .done ∧ decode s.raised ≠ .ok .reset ∧ ∃ t, step s = .next t) ∧
    (let s := { p1Emit with wait := some (.bit true) }; s.wait ≠ none ∧ decode s.raised ≠ .ok .reset ∧ ∃ t, step s = .next t) :=
  ⟨⟨rfl, by intro h; injection h, exists_next (by decide)⟩, by decide, by intro h; injection h, exists_next (by decide)⟩

theorem test_meets_EveryStepKeepsTheBookkeeping : p1Emit.memoriesWf = true ∧ p1Emit.flagsAgree = true ∧ p1Emit.traceAgrees = true ∧
    ∃ t, step p1Emit = .next t := ⟨by decide, by decide, by decide, exists_next (by decide)⟩

theorem test_meets_RunInvIsKept : RunInv p1Emit ∧ ∃ t, step p1Emit = .next t := ⟨test_p1_runInv, exists_next (by decide)⟩

theorem test_meets_RunsGoOn : RunInv p1Emit ∧ inputContract p1Emit.inEnded p1Emit.inPort = true := ⟨test_p1_runInv, by decide⟩

theorem test_meets_RunsKeepTheOrder : RunInv p1Emit ∧ Ordered p1Emit.nodeAt p1Emit.window ∧ ∃ t, step p1Emit = .next t :=
  ⟨test_p1_runInv, test_t1_ordered, exists_next (by decide)⟩

end Sys2Proof.Tests
end

section
/-! PROOF. What every step keeps whatever is raised: the canonical memories, the flags, the counts (R41, R51, R70, R17). -/

namespace Sys2Proof.Machine

/-- The three agreements every step keeps. -/
structure Bookkeeping (s : State) : Prop where
  memories : s.memoriesWf = true
  flags    : s.flagsAgree = true
  trace    : s.traceAgrees = true

/-- The agreements hold and the block has not stopped: what holds wherever an operation begins to write. -/
structure Going (s : State) : Prop extends Bookkeeping s where
  running : s.stopped = false

variable {s t u : State}

/-! ## What keeps a block going -/

theorem Going.emitted {bits : List Bool} (h : Going s) (he : Emitted s u bits) : Going u := by
  obtain ⟨ob, ac, cn, rfl⟩ := he.fields
  exact ⟨⟨h.memories, h.flags, traceAgrees_emit h.trace⟩, h.running⟩

theorem Going.treeOnly (h : Going s) (ht : TreeOnly s t) : Going t := by
  obtain ⟨⟨m, a, b, c, rfl⟩, wf⟩ := ht
  obtain ⟨hw, hn⟩ := memoriesWf_iff.mp h.memories
  exact ⟨⟨memoriesWf_iff.mpr ⟨hw, wf hn⟩, h.flags, h.trace⟩, h.running⟩

theorem Going.addOnly (h : Going s) (ht : AddOnly s t) : Going t := by
  obtain ⟨⟨m, a, b, c, d, e, f, g, k, rfl⟩, wf⟩ := ht
  obtain ⟨hw, hn⟩ := memoriesWf_iff.mp h.memories
  exact ⟨⟨memoriesWf_iff.mpr ⟨hw, wf hn⟩, h.flags, h.trace⟩, h.running⟩

theorem Going.afterRead (h : Going s) (r : Answer) : Going (s.afterRead r) :=
  ⟨⟨h.memories, h.flags, traceAgrees_read (not_stopped h.running).1 h.trace rfl rfl rfl rfl rfl⟩, h.running⟩

theorem Going.clamp (h : Going s) : Going s.clamp := by
  obtain ⟨m, e⟩ := clamp_frame s
  rw [e]
  exact ⟨⟨h.memories, h.flags, h.trace⟩, h.running⟩

/-- The sequencer moves between states that are not final: `done` and `fault` stay clear (R41). -/
theorem Going.setSeq (h : Going s) {q : SeqState} (hd : q ≠ .done) (hf : q ≠ .fault) : Going { s with seq := q } := by
  obtain ⟨hw, hsd, hsf⟩ := not_stopped h.running
  obtain ⟨h1, h2, h3⟩ := flagsAgree_iff.mp h.flags
  refine ⟨⟨h.memories, flagsAgree_iff.mpr ⟨?_, ?_, h3⟩, h.trace⟩, by simp [State.stopped, hw, hd, hf]⟩
  · simp only [h1, beq_eq_false_iff_ne.mpr hsd, beq_eq_false_iff_ne.mpr hd]
  · simp only [h2, beq_eq_false_iff_ne.mpr hsf, beq_eq_false_iff_ne.mpr hf]

/-! ## What stops a block -/

/-- Taking a fault sets `fault`, the sequencer and a cause together (R246). -/
theorem Going.enterFault (h : Going s) {c : Cause} (hc : c ≠ .noFault) : Bookkeeping (s.enterFault c) := by
  obtain ⟨hw, hsd, hsf⟩ := not_stopped h.running
  obtain ⟨h1, -, -⟩ := flagsAgree_iff.mp h.flags
  refine ⟨h.memories, flagsAgree_iff.mpr ⟨?_, rfl, ?_⟩, h.trace⟩
  · rw [State.enterFault_done, h1, beq_eq_false_iff_ne.mpr hsd]; rfl
  · simp [hc]

/-- Entering `S_DONE` sets `done` and the sequencer together (R212). -/
theorem Going.enterDone (h : Going s) : Bookkeeping s.enterDone := by
  obtain ⟨ob, ac, cn, e⟩ := enterDone_frame s
  obtain ⟨hw, hsd, hsf⟩ := not_stopped h.running
  obtain ⟨-, h2, h3⟩ := flagsAgree_iff.mp h.flags
  rw [e]
  refine ⟨h.memories, flagsAgree_iff.mpr ⟨rfl, ?_, h3⟩, h.trace⟩
  rw [h2, beq_eq_false_iff_ne.mpr hsf]; rfl

/-- A read that is not answered is counted and not yet observed; one that errs is both (R18, R243). -/
theorem Going.readStops (h : Going s) (hr : ReadStops s t) : Bookkeeping t := by
  obtain ⟨hw, -, -⟩ := not_stopped h.running
  obtain ⟨hb, hn, he⟩ := traceAgrees_iff.mp h.trace
  rcases hr with ⟨-, rfl⟩ | ⟨-, rfl⟩
  · refine ⟨h.memories, h.flags, traceAgrees_iff.mpr ⟨hb, ?_, he⟩⟩
    simp [hn, hw]
  · exact (h.afterRead .err).enterFault (by decide)

/-- A refused bit is observed and is not part of the output (R242). -/
theorem Going.refuseBit (h : Going s) (b : Bool) : Going (s.issueBit.record (.bitRefused b)) := by
  obtain ⟨hw, -, -⟩ := not_stopped h.running
  obtain ⟨hb, hn, hi⟩ := traceAgrees_iff.mp h.trace
  refine ⟨⟨h.memories, h.flags, traceAgrees_iff.mpr ⟨?_, ?_, ?_⟩⟩, h.running⟩
  · simp [hb, eventBits]
  · simp [hn, hw, eventReads]
  · simp [hi]

/-- A bit that is not answered is not part of the output (R18). -/
theorem Going.waitsOnBit (h : Going s) (b : Bool) : Bookkeeping (s.waitsOnBit b) := by
  obtain ⟨hw, -, -⟩ := not_stopped h.running
  obtain ⟨hb, hn, hi⟩ := traceAgrees_iff.mp h.trace
  exact ⟨h.memories, h.flags, traceAgrees_iff.mpr ⟨hb, by simpa [State.waitsOnBit, hw] using hn, hi⟩⟩

theorem Going.emitStops (h : Going s) (he : EmitStops s t) : Bookkeeping t := by
  obtain ⟨u, own, b, hu, ⟨-, rfl⟩ | ⟨-, rfl⟩⟩ := he
  · exact ((h.emitted hu).refuseBit b).enterFault (by decide)
  · exact (h.emitted hu).waitsOnBit b

/-! ## The steps of the driver -/

/-- A stopped block takes no step of its own (R212, R246, R252). -/
theorem sequencerStep_stopped (hs : s.stopped = true) : sequencerStep s = .next s := by
  rw [sequencerStep, if_pos hs]

theorem Going.prefillEnds (h : Going s) (hp : PrefillEnds s t) : Bookkeeping t := by
  rcases hp with rfl | ⟨-, rfl⟩ | ⟨b, -, rfl⟩ | hr
  · exact (h.setSeq (by decide) (by decide)).toBookkeeping
  · have hg := (h.afterRead .eoi).setSeq (q := .fill) (by decide) (by decide)
    exact ⟨hg.memories, hg.flags, hg.trace⟩
  · have hg := (h.afterRead (.byte b)).setSeq (q := .fill) (by decide) (by decide)
    obtain ⟨hw, hn⟩ := memoriesWf_iff.mp h.memories
    exact ⟨memoriesWf_iff.mpr ⟨Memory.wf_write _ _ hw, hn⟩, hg.flags, hg.trace⟩
  · exact h.readStops hr

theorem Going.emitStepEnds (h : Going s) (he : EmitStepEnds s t) : Bookkeeping t := by
  rcases he with ⟨-, rfl⟩ | ⟨u, bits, c, -, hu, rfl⟩ | rfl | hs
  · exact (h.setSeq (by decide) (by decide)).toBookkeeping
  · have hg := (h.clamp.emitted hu).setSeq (q := .adv) (by decide) (by decide)
    exact ⟨hg.memories, hg.flags, hg.trace⟩
  · exact h.clamp.enterFault (by decide)
  · exact h.clamp.emitStops hs

theorem Going.eosEnds (h : Going s) (he : EosEnds s t) : Bookkeeping t := by
  rcases he with ⟨u, hu, rfl⟩ | hs
  · exact (h.emitted hu).enterDone
  · exact h.emitStops hs

theorem Going.advancedBy (h : Going s) {r : Answer} (ha : AdvancedBy s t r) : Going t := by
  obtain ⟨⟨m, win, x, y, z, d, e, f, g, k, ml, mp, rfl⟩, wf⟩ := ha
  have hg := h.afterRead r
  exact ⟨⟨wf h.memories, hg.flags, hg.trace⟩, hg.running⟩

theorem Going.advanceEnds (h : Going s) (ha : AdvanceEnds s t) : Bookkeeping t := by
  rcases ha with ⟨r, u, -, hu, rfl⟩ | ⟨u, hu, rfl | hr⟩ | ⟨r, u, -, hu, rfl⟩
  · have hg := (h.advancedBy hu).setSeq (q := if u.advCnt + 1 = u.replCnt then .emit else .adv)
      (by split <;> decide) (by split <;> decide)
    exact ⟨hg.memories, hg.flags, hg.trace⟩
  · exact (h.treeOnly hu).enterFault (by decide)
  · exact (h.treeOnly hu).readStops hr
  · exact (h.advancedBy hu).enterFault (by decide)

/-- The sequencer's own step, and a stopped block, which takes none, keep the bookkeeping. -/
theorem Bookkeeping.sequencerStep (h : Bookkeeping s) (hx : sequencerStep s = .next t) : Bookkeeping t := by
  cases hs : s.stopped with
  | true =>
    rw [sequencerStep_stopped hs, Host.Outcome.next.injEq] at hx
    exact hx ▸ h
  | false =>
    have hg : Going s := ⟨h, hs⟩
    rcases sequencerStep_ends hs hx with ⟨-, rfl⟩ | ⟨-, hp⟩ | ⟨-, m, wf, rfl⟩ | ⟨-, he⟩ | ⟨-, ha⟩ | ⟨-, he⟩
    · exact h
    · exact hg.prefillEnds hp
    · have hi := hg.setSeq (q := .emit) (by decide) (by decide)
      obtain ⟨hw, hn⟩ := memoriesWf_iff.mp h.memories
      exact ⟨memoriesWf_iff.mpr ⟨hw, wf hn⟩, hi.flags, hi.trace⟩
    · exact hg.emitStepEnds he
    · exact hg.advanceEnds ha
    · exact hg.eosEnds he

/-- What one step keeps, a whole run keeps: the induction over the steps of CompressData (R200). -/
theorem runSequencer_keeps {P : State → Prop} (hP : ∀ s t, P s → sequencerStep s = .next t → P t) (fuel : Nat) (h : P s)
    (hx : runSequencer fuel s = .next t) : P t := by
  induction fuel generalizing s with
  | zero =>
    unfold runSequencer at hx
    split at hx
    · cases hx; exact h
    · cases hx
  | succ fuel ih =>
    unfold runSequencer at hx
    split at hx
    · cases hx; exact h
    · split at hx
      · rename_i u hu
        exact ih (hP _ _ h hu) hx
      · cases hx
      · cases hx

/-! ## Every instruction -/

theorem Going.execEnds {i : Instr} (h : Going s) (hx : ExecEnds i s t) : Bookkeeping t := by
  cases hx with
  | bits own he hi hb => exact (h.emitted hb).toBookkeeping
  | bitsStop own he hb => exact h.emitStops hb
  | emitEos hi he => exact h.eosEnds he
  | check he hi e => subst e; exact h.enterFault (by decide)
  | readByte hi hr =>
    rcases hr with ⟨r, -, rfl⟩ | hr
    · exact ⟨(h.afterRead r).memories, (h.afterRead r).flags, (h.afterRead r).trace⟩
    · exact h.readStops hr
  | flush hi e => obtain ⟨ob, ac, cn, rfl⟩ := e; exact ⟨h.memories, h.flags, h.trace⟩
  | tree hi ht =>
    obtain ⟨u, hu, rfl | rfl⟩ := ht
    · exact (h.treeOnly hu).toBookkeeping
    · exact (h.treeOnly hu).enterFault (by decide)
  | find hi hf =>
    obtain ⟨r, rfl⟩ | rfl := hf
    · exact ⟨h.memories, h.flags, h.trace⟩
    · exact h.enterFault (by decide)
  | compare hi hc => obtain ⟨c, d, rfl⟩ := hc; exact ⟨h.memories, h.flags, h.trace⟩
  | add hi ha =>
    obtain ⟨u, hu, ⟨r, rfl⟩ | rfl⟩ := ha
    · have hg := h.addOnly hu
      exact ⟨hg.memories, hg.flags, hg.trace⟩
    · exact (h.addOnly hu).enterFault (by decide)
  | prefill hi hp => exact h.prefillEnds hp
  | advance hi ha => exact h.advanceEnds ha
  | start hi hs =>
    obtain rfl | ⟨-, rfl⟩ := hs
    · exact h.toBookkeeping
    · exact (h.setSeq (by decide) (by decide)).toBookkeeping

/-- A run begins where it stands, or with Start (R137). -/
theorem Going.started (h : Going s) : Going s.started := by
  unfold State.started
  split
  · exact h.setSeq (by decide) (by decide)
  · exact h

theorem resetBlock_bookkeeping (s : State) : Bookkeeping s.resetBlock := ⟨rfl, rfl, rfl⟩

theorem Going.exec {i : Instr} (h : Going s) (hx : exec i s = .next t) : Bookkeeping t := by
  by_cases hr : i = .reset
  · subst hr
    cases hx
    exact resetBlock_bookkeeping s
  · by_cases hc : i = .compressData
    · subst hc
      exact runSequencer_keeps (fun _ _ h hx => h.sequencerStep hx) _ h.started.toBookkeeping hx
    · exact h.execEnds (exec_ends hx hc hr)

/-- What one step does, said once: the sequencer's own step; an instruction a running block performs; Reset; or the request
is only taken off the queue (R200, notes/assumptions/16.md). -/
theorem step_ends (hx : step s = .next t) :
    (s.raised = .quiet ∧ sequencerStep s.dropRequest = .next t) ∨
    (∃ i, decode s.raised = .ok i ∧ s.stopped = false ∧ exec i s.dropRequest = .next t) ∨
    (decode s.raised = .ok .reset ∧ t = s.dropRequest.resetBlock) ∨
    (∃ i, decode s.raised = .ok i ∧ i ≠ .reset ∧ s.stopped = true ∧ t = s.dropRequest) := by
  unfold step at hx
  split at hx
  · rename_i hq; exact .inl ⟨hq, hx⟩
  · split at hx
    · cases hx
    · rename_i i hi
      by_cases hr : i = .reset
      · subst hr
        rw [show performs .reset s = true by simp [performs], if_pos rfl] at hx
        cases hx
        exact .inr (.inr (.inl ⟨hi, rfl⟩))
      · cases hs : s.stopped with
        | false =>
          rw [show performs i s = true by simp [performs, hs], if_pos rfl] at hx
          exact .inr (.inl ⟨i, hi, rfl, hx⟩)
        | true =>
          rw [show performs i s = false by simp [performs, hs, hr]] at hx
          cases hx
          exact .inr (.inr (.inr ⟨i, hi, hr, rfl, rfl⟩))

theorem Bookkeeping.dropRequest (h : Bookkeeping s) : Bookkeeping s.dropRequest := ⟨h.memories, h.flags, h.trace⟩

theorem Bookkeeping.step (h : Bookkeeping s) (hx : step s = .next t) : Bookkeeping t := by
  rcases step_ends hx with ⟨-, hq⟩ | ⟨i, -, hs, he⟩ | ⟨-, rfl⟩ | ⟨i, -, -, -, rfl⟩
  · exact h.dropRequest.sequencerStep hq
  · have hg : Going s.dropRequest := ⟨h.dropRequest, hs⟩
    exact hg.exec he
  · exact resetBlock_bookkeeping _
  · exact h.dropRequest

/-- Settles O56: every end of a step (`step_ends`, `exec_ends`, `sequencerStep_ends`) keeps the three agreements. -/
theorem everyStepKeepsTheBookkeeping : Obligations.EveryStepKeepsTheBookkeeping := by
  intro s t hm hf ht hx
  obtain ⟨h1, h2, h3⟩ := Bookkeeping.step ⟨hm, hf, ht⟩ hx
  exact ⟨h1, h2, h3⟩

/-- Settles O55: of the ends of a step, a stopped block has only those that leave everything but the queue. -/
theorem stoppedBlockStays : Obligations.StoppedBlockStays := by
  intro s t hs hr hx
  have hstop : s.stopped = true := by
    rcases hs with h | h
    · simp [State.stopped, h]
    · simp [State.stopped, Option.isSome_iff_ne_none.mpr h]
  rcases step_ends hx with ⟨-, hq⟩ | ⟨i, -, hn, -⟩ | ⟨hi, -⟩ | ⟨i, -, -, -, rfl⟩
  · have hd : s.dropRequest.stopped = true := hstop
    rw [sequencerStep_stopped hd, Host.Outcome.next.injEq] at hq
    exact hq.symm
  · rw [hstop] at hn; cases hn
  · exact absurd hi hr
  · rfl

end Sys2Proof.Machine
end

section
/-! PROOF. The parameters (R6 to R11), the outcomes of the two ports (R130 to R132), a transaction that is never answered (R18,
R252), and the order of the transactions (R211, R284). -/

namespace Sys2Proof.Machine

variable {s t u : State}

/-! ## Parameters -/

/-- `BREAK_EVEN` is at least 1 exactly when the two fields have 8 bits together (R7, R11 (a)). -/
theorem one_le_breakEven_iff (p : Params) : 1 ≤ p.breakEven ↔ 8 ≤ p.indexBits + p.lengthBits := by
  unfold Params.breakEven
  omega

theorem admissible_iff (p : Params) : p.admissible = true ↔
    8 ≤ p.indexBits + p.lengthBits ∧ 1 + p.lookAhead ≤ p.window ∧ p.lookAhead % p.window ≠ 0 ∧
    1 ≤ p.indexBits ∧ p.indexBits ≤ 32 ∧ 1 ≤ p.lengthBits ∧ p.lengthBits ≤ 32 := by
  have hlt : 1 + p.lookAhead ≤ p.window → p.lookAhead < p.window := by omega
  simp only [Params.admissible, Bool.and_eq_true, decide_eq_true_eq, one_le_breakEven_iff]
  tauto

/-- Settles O7: the values by evaluation, the conditions on a pair by `admissible_iff`. -/
theorem parameters : Obligations.Parameters := by
  refine ⟨rfl, rfl, rfl, rfl, rfl, rfl, rfl, rfl, rfl, rfl, rfl, rfl, by decide, fun p => ⟨?_, ?_, rfl, admissible_iff p⟩⟩
  · exact Nat.one_shiftLeft _
  · exact Nat.one_shiftLeft _

/-! ## The two ports -/

/-- Settles O13, answer by answer. -/
theorem readByteOutcomes : Obligations.ReadByteOutcomes := by
  refine ⟨fun s b h hE => ?_, fun s h => ?_, fun s h => ?_, fun s h => ?_, fun s b h hE => ?_⟩
  · simp only [exec, execReadByte, readByte_answered s _ h (.inr ⟨hE, b, rfl⟩), Res.ret_outcome, reduceCtorEq, if_false]
  · simp only [exec, execReadByte, readByte_answered s _ h (.inl rfl), Res.ret_outcome, if_true]
  · simp only [exec, execReadByte, readByte, h]; rfl
  · simp only [exec, execReadByte, readByte, h]; rfl
  · simp only [exec, execReadByte, readByte, h, hE, if_true, Res.refused_outcome]

/-- Settles O14, answer by answer. -/
theorem writeBitOutcomes : Obligations.WriteBitOutcomes := by
  refine ⟨fun s b h => ?_, fun s b h => ?_, fun s b h => ?_⟩
  · obtain ⟨t, ht, he⟩ : ∃ t, writeBit b s = .ret () t ∧ Emitted s t [b] := by simpa [h] using writeBit_cases b s
    exact ⟨t, by simp only [exec, execWriteBit, ht, Res.ret_outcome], he.putsOut⟩
  · have ht : writeBit b s = .stop (s.bitRefused b) := by simpa [h] using writeBit_cases b s
    simp only [exec, execWriteBit, ht, Res.stop_outcome]; rfl
  · have ht : writeBit b s = .stop (s.waitsOnBit b) := by simpa [h] using writeBit_cases b s
    simp only [exec, execWriteBit, ht, Res.stop_outcome]; rfl

/-! ## Transactions that are never answered -/

/-- A bit that waits is offered on the port. -/
theorem outValid_waitsOnBit (s : State) (b : Bool) : (s.waitsOnBit b).outValid = true := by
  cases b <;> rfl

/-- Bits of which one is not answered: the operation goes no further (R18). -/
theorem putBits_offers {bits : List Bool} {m : Nat} (hm : m < bits.length) (h : s.sinkWaitsAt m = true) :
    ∃ t, putBits bits s = .stop t ∧ WaitsAt s t bits m ∧ t.outValid = true := by
  obtain ⟨u, hu, hx⟩ := putBits_waits bits m s hm h
  exact ⟨_, hx, ⟨u, hu.putsOut, rfl⟩, outValid_waitsOnBit u _⟩

/-- The step in `S_EMIT` with something to put out: the record of the clamped match, then the counters (R203, R206). -/
theorem emitStep_emission {bits : List Bool} (ha : s.aheadBytes ≠ 0)
    (h : s.clamp.emission (if s.clamp.matchLen ≤ 1 then .emitLiteral else .emitMatch) = some bits) :
    emitStep s = (putBits bits s.clamp).andThen fun _ u =>
      .ret () { u with replCnt := if s.clamp.matchLen ≤ 1 then 1 else u.matchLen, advCnt := 0, seq := .adv } := by
  unfold emitStep
  rw [if_neg ha]
  simp only
  by_cases hm : s.clamp.matchLen ≤ 1
  · have hm' : s.clamp.matchLen ≤ BitVec.ofNat 5 Config.breakEven := hm
    rw [if_pos hm] at h
    obtain rfl := Option.some.inj h
    rw [if_pos hm', emitLiteral, emitLiteralRecord_byte]
    simp only [if_pos hm]
  · have hm' : ¬ s.clamp.matchLen ≤ BitVec.ofNat 5 Config.breakEven := hm
    rw [if_neg hm] at h
    simp only [State.emission, Option.ite_none_left_eq_some, Option.some.injEq] at h
    obtain ⟨hc, rfl⟩ := h
    have hc' : ¬ (s.clamp.matchPos = 0 ∨ BitVec.ofNat 5 Config.lookAhead < s.clamp.matchLen) := hc
    rw [if_neg hm', emitMatch, if_neg hc', emitMatchRecord_length]
    simp only [if_neg hm]

/-- A delete that raises nothing returns. -/
theorem deleteNode_returns {n : Pos} (h : exec (.deleteNode n) s = .next u) (hf : u.seq ≠ .fault) :
    deleteNode n s = .ret () u ∧ TreeOnly s u := by
  have he := deleteNode_ends n s
  rcases Res.outcome_eq_next.mp h with ⟨_, v, hv, rfl⟩ | hv
  · rw [hv] at he; exact ⟨hv, he⟩
  · rw [hv] at he
    obtain ⟨v, -, rfl⟩ := he
    exact absurd rfl hf

/-- Settles O23: the bits by `putBits_waits`, which every emitting operation is made of; the reads by the branch of `readByte`
that is not answered. -/
theorem unansweredBitStaysOffered : Obligations.UnansweredBitStaysOffered := by
  refine ⟨fun s i bits m he hm hw => ?_, fun s bits m hs hq ha he hm hw => ?_, fun s ha he hn => ?_, fun s u hd hf hn => ?_⟩
  · obtain ⟨t, ht, hwait, hv⟩ := putBits_offers hm hw
    refine ⟨t, ?_, hwait, hv⟩
    rw [exec_emission he, ht]
    split <;> rfl
  · have hw' : s.clamp.sinkWaitsAt m = true := by
      obtain ⟨c, e⟩ := clamp_frame s
      rw [e]; exact hw
    obtain ⟨t, ht, hwait, hv⟩ := putBits_offers hm hw'
    refine ⟨t, ?_, hwait, hv⟩
    simp only [sequencerStep, hs, Bool.false_eq_true, if_false, sequencerOp, hq, emitStep_emission ha he, ht, Res.stop_andThen,
      Res.stop_outcome]
  · have hx : readByte s = .stop { s.issueRead with wait := some .read } := by simp only [readByte, hn, block]
    have hc : s.aheadBytes < BitVec.ofNat 5 Config.lookAhead ∧ s.eos = false := ⟨ha, he⟩
    refine ⟨_, ?_, rfl, rfl⟩
    simp only [exec, execPrefill, prefill, if_pos hc, hx, Res.stop_andThen, Res.stop_outcome]
    rfl
  · obtain ⟨hx, ⟨m, a, b, c, rfl⟩, -⟩ := deleteNode_returns hd hf
    refine ⟨_, ?_, rfl, rfl⟩
    have hn' : State.nextInput { s with node := m, par := a, nxt := b, repl := c } = none := hn
    simp only [exec, execAdvance, advance, fillSlot_eq, hx, Res.ret_andThen, readByte, hn', block, Res.stop_andThen, Res.stop_outcome]
    rfl

/-! ## The order of the transactions -/

/-- What an emission that stops adds to the observation: bits, the last one perhaps refused. -/
theorem EmitStops.events (h : EmitStops s t) :
    ∃ new, t.events = s.events ++ new ∧ (∀ e ∈ new, ∃ b, e = .bit b ∨ e = .bitRefused b) ∧ (t.wait ≠ none ∨ t.seq = .fault) := by
  obtain ⟨u, own, b, hu, hx⟩ := h
  obtain ⟨ob, ac, cn, rfl⟩ := hu.fields
  rcases hx with ⟨-, rfl⟩ | ⟨-, rfl⟩
  · refine ⟨own.map .bit ++ [.bitRefused b], by simp [State.bitRefused], ?_, .inr rfl⟩
    intro e he
    rcases List.mem_append.mp he with he | he
    · obtain ⟨c, -, rfl⟩ := List.mem_map.mp he; exact ⟨c, .inl rfl⟩
    · exact ⟨b, .inr (List.mem_singleton.mp he)⟩
  · refine ⟨own.map .bit, rfl, ?_, .inl (by simp [State.waitsOnBit])⟩
    intro e he
    obtain ⟨c, -, rfl⟩ := List.mem_map.mp he; exact ⟨c, .inl rfl⟩

/-- What O46 says of one step: its transactions come after those before it, and are of the kind and the number its sequencer
state allows (R211, R284). -/
def InOrder (s t : State) : Prop := ∃ new : List Event, t.events = s.events ++ new ∧
  (s.stopped = true ∨ s.seq = .idle ∨ s.seq = .init → new = []) ∧
  (s.seq = .fill ∨ s.seq = .adv → new.length ≤ 1 ∧ ∀ e ∈ new, ∃ a, e = .read a) ∧
  (s.seq = .emit ∨ s.seq = .eos → ∀ e ∈ new, ∃ b, e = .bit b ∨ e = .bitRefused b) ∧
  (s.stopped = false → t.wait = none → t.seq ≠ .fault →
    (s.seq = .adv → new.length = 1) ∧ (s.seq = .eos → new.length = 11) ∧
    (s.seq = .emit → new.length = 0 ∨ new.length = 9 ∨ new.length = 15))

/-- A step without a transaction: one that is not of `S_ADV` or `S_EOS`, or that stops. -/
theorem inOrder_none (he : t.events = s.events)
    (h : s.stopped = true ∨ t.wait ≠ none ∨ t.seq = .fault ∨ (s.seq ≠ .adv ∧ s.seq ≠ .eos)) : InOrder s t := by
  refine ⟨[], by simp [he], fun _ => rfl, by simp, by simp, fun hs hw hf => ?_⟩
  have hq : s.seq ≠ .adv ∧ s.seq ≠ .eos := by simpa [hs, hw, hf] using h
  simp [hq.1, hq.2]

/-- A step with one answered read: one of `S_FILL` or `S_ADV`. -/
theorem inOrder_read {a : Answer} (he : t.events = s.events ++ [.read a]) (hs : s.stopped = false)
    (hq : s.seq = .fill ∨ s.seq = .adv) : InOrder s t := by
  refine ⟨[.read a], he, ?_, by simp, ?_, fun _ _ _ => ⟨fun _ => rfl, ?_, ?_⟩⟩ <;> rcases hq with hq | hq <;> simp [hs, hq]

/-- A step that puts bits out: one of `S_EMIT` or `S_EOS`, a whole record unless it stops. -/
theorem inOrder_bits {new : List Event} (he : t.events = s.events ++ new)
    (hb : ∀ e ∈ new, ∃ b, e = .bit b ∨ e = .bitRefused b) (hs : s.stopped = false) (hq : s.seq = .emit ∨ s.seq = .eos)
    (hl : (t.wait ≠ none ∨ t.seq = .fault) ∨ (s.seq = .emit ∧ (new.length = 9 ∨ new.length = 15)) ∨
      (s.seq = .eos ∧ new.length = 11)) : InOrder s t := by
  refine ⟨new, he, ?_, ?_, fun _ => hb, fun _ hw hf => ?_⟩
  · rcases hq with hq | hq <;> simp [hs, hq]
  · rcases hq with hq | hq <;> simp [hq]
  · rcases hl with hl | ⟨hq, hl⟩ | ⟨hq, hl⟩
    · simp [hw, hf] at hl
    · simp [hq, hl]
    · simp [hq, hl]

theorem ReadStops.inOrder (h : ReadStops u t) (he : u.events = s.events) (hs : s.stopped = false)
    (hq : s.seq = .fill ∨ s.seq = .adv) : InOrder s t := by
  rcases h with ⟨-, rfl⟩ | ⟨-, rfl⟩
  · exact inOrder_none he (.inr (.inl (by simp)))
  · exact inOrder_read (a := .err) (by simp [he]) hs hq

theorem EmitStops.inOrder (h : EmitStops u t) (he : u.events = s.events) (hs : s.stopped = false)
    (hq : s.seq = .emit ∨ s.seq = .eos) : InOrder s t := by
  obtain ⟨new, hn, hb, hl⟩ := h.events
  exact inOrder_bits (hn.trans (by rw [he])) hb hs hq (.inl hl)

/-- A whole record in `S_EMIT` or `S_EOS`. -/
theorem Emitted.inOrder {v : State} {bits : List Bool} (h : Emitted u v bits) (he : u.events = s.events) (ht : t.events = v.events)
    (hs : s.stopped = false)
    (hl : (s.seq = .emit ∧ (bits.length = 9 ∨ bits.length = 15)) ∨ (s.seq = .eos ∧ bits.length = 11)) : InOrder s t := by
  have hev : t.events = s.events ++ bits.map .bit := by rw [ht, h.frame, he]
  refine inOrder_bits hev ?_ hs (hl.imp And.left And.left) (.inr (by simpa using hl))
  intro e hm
  obtain ⟨b, -, rfl⟩ := List.mem_map.mp hm
  exact ⟨b, .inl rfl⟩

/-- Settles O46, by the ends of a step (`sequencerStep_ends`). -/
theorem transactionsInProgramOrder : Obligations.TransactionsInProgramOrder := by
  intro s t hx
  show InOrder s t
  cases hs : s.stopped with
  | true =>
    rw [sequencerStep_stopped hs, Host.Outcome.next.injEq] at hx
    exact inOrder_none (by rw [hx]) (.inl hs)
  | false =>
    have hclamp : s.clamp.events = s.events := by obtain ⟨m, e⟩ := clamp_frame s; rw [e]
    rcases sequencerStep_ends hs hx with ⟨hq, rfl⟩ | ⟨hq, hp⟩ | ⟨hq, m, -, rfl⟩ | ⟨hq, he⟩ | ⟨hq, ha⟩ | ⟨hq, he⟩
    · exact inOrder_none rfl (.inr (.inr (.inr (by simp [hq]))))
    · rcases hp with rfl | ⟨-, rfl⟩ | ⟨b, -, rfl⟩ | hr
      · exact inOrder_none rfl (.inr (.inr (.inr (by simp [hq]))))
      · exact inOrder_read (a := .eoi) rfl hs (.inl hq)
      · exact inOrder_read (a := .byte b) rfl hs (.inl hq)
      · exact hr.inOrder rfl hs (.inl hq)
    · exact inOrder_none rfl (.inr (.inr (.inr (by simp [hq]))))
    · rcases he with ⟨-, rfl⟩ | ⟨u, bits, c, hl, hu, rfl⟩ | rfl | he
      · exact inOrder_none rfl (.inr (.inr (.inr (by simp [hq]))))
      · exact hu.inOrder hclamp rfl hs (.inl ⟨hq, hl⟩)
      · exact inOrder_none hclamp (.inr (.inr (.inl rfl)))
      · exact he.inOrder hclamp hs (.inl hq)
    · rcases ha with ⟨r, u, -, ⟨⟨_, _, _, _, _, _, _, _, _, _, _, _, rfl⟩, -⟩, rfl⟩ | ⟨u, ⟨⟨_, _, _, _, rfl⟩, -⟩, rfl | hr⟩ |
          ⟨r, u, -, ⟨⟨_, _, _, _, _, _, _, _, _, _, _, _, rfl⟩, -⟩, rfl⟩
      · exact inOrder_read (a := r) rfl hs (.inr hq)
      · exact inOrder_none rfl (.inr (.inr (.inl rfl)))
      · exact hr.inOrder rfl hs (.inr hq)
      · exact inOrder_read (a := r) rfl hs (.inr hq)
    · rcases he with ⟨u, hu, rfl⟩ | he
      · obtain ⟨_, _, _, e⟩ := enterDone_frame u
        exact hu.inOrder rfl (by rw [e]) hs (.inr ⟨hq, rfl⟩)
      · exact he.inOrder rfl hs (.inr hq)

end Sys2Proof.Machine
end

section
/-! PROOF. What the environment does to a run, and what a step of a run keeps besides its bookkeeping: the packed view, the stopped
block, the window, the tree. -/

namespace Sys2Proof.Machine

variable {s t u : State}

/-! ## The environment (R16, R131, R134) -/

/-- How a step uses up the environment's answers: none of the input's, or its next one; any number of the sink's. -/
structure EnvMoves (s t : State) : Prop where
  input : (t.inPort = s.inPort ∧ t.inEnded = s.inEnded) ∨
    (t.inPort = s.inPort.tail ∧ t.inEnded = if s.nextInput = some .eoi then true else s.inEnded)
  sink  : ∃ k, t.outPort = s.outPort.drop k

/-- An environment that keeps the input contract and answers without error. -/
structure GoodEnv (s : State) : Prop where
  contract : inputContract s.inEnded s.inPort = true
  answers  : s.inputAnswers = true
  sink     : s.sinkAnswers = true

/-- The end of input, once answered, is remembered, and no byte may follow it (R131). -/
theorem inputContract_tail (h : inputContract s.inEnded s.inPort = true) :
    inputContract (if s.nextInput = some .eoi then true else s.inEnded) s.inPort.tail = true := by
  unfold State.nextInput
  cases hp : s.inPort with
  | nil => rfl
  | cons x l =>
    rw [hp] at h
    unfold inputContract at h
    rw [List.headD_cons, List.tail_cons]
    rcases Option.eq_none_or_eq_some x.answer with hx | ⟨a, hx⟩
    · simpa [hx] using h
    · cases a with
      | byte b =>
        simp only [hx, Bool.and_eq_true] at h
        simpa [hx] using h.2
      | eoi => simpa [hx] using h
      | err => simpa [hx] using h

theorem EnvMoves.contract (h : EnvMoves s t) (hc : inputContract s.inEnded s.inPort = true) :
    inputContract t.inEnded t.inPort = true := by
  rcases h.input with ⟨h1, h2⟩ | ⟨h1, h2⟩ <;> rw [h1, h2]
  · exact hc
  · exact inputContract_tail hc

theorem EnvMoves.good (h : EnvMoves s t) (hg : GoodEnv s) : GoodEnv t := by
  refine ⟨h.contract hg.contract, ?_, ?_⟩
  · have ha := hg.answers
    unfold State.inputAnswers at *
    rw [List.all_eq_true] at *
    rcases h.input with ⟨h1, -⟩ | ⟨h1, -⟩ <;> rw [h1]
    · exact ha
    · exact fun x hx => ha x (List.mem_of_mem_tail hx)
  · obtain ⟨k, hk⟩ := h.sink
    have hs := hg.sink
    unfold State.sinkAnswers at *
    rw [List.all_eq_true] at *
    rw [hk]
    exact fun x hx => hs x (List.mem_of_mem_drop hx)

/-- An input that answers every read without error answers the next one so. -/
theorem inputAnswers_next (h : s.inputAnswers = true) : s.nextInput ≠ none ∧ s.nextInput ≠ some .err := by
  unfold State.inputAnswers at h
  unfold State.nextInput
  cases hp : s.inPort with
  | nil => exact ⟨by decide, by decide⟩
  | cons x l =>
    rw [hp, List.all_cons, Bool.and_eq_true, Bool.and_eq_true] at h
    simpa using h.1

/-- A sink that takes every bit takes the next one, and any after it. -/
theorem sinkAnswers_drop (h : s.sinkAnswers = true) {k : Nat} (hu : u.outPort = s.outPort.drop k) : u.nextSink = some true := by
  unfold State.sinkAnswers at h
  unfold State.nextSink
  rw [List.all_eq_true] at h
  cases hp : u.outPort with
  | nil => rfl
  | cons x l =>
    have hx : x ∈ s.outPort := List.mem_of_mem_drop (i := k) (by rw [← hu, hp]; exact List.mem_cons_self)
    simpa using h x hx

theorem ReadStops.not_answers (h : ReadStops s t) : ¬ s.inputAnswers = true := by
  intro ha
  obtain ⟨h1, h2⟩ := inputAnswers_next ha
  rcases h with ⟨hn, -⟩ | ⟨hn, -⟩
  · exact h1 hn
  · exact h2 hn

theorem EmitStops.not_answers (h : EmitStops s t) : ¬ s.sinkAnswers = true := by
  intro ha
  obtain ⟨u, own, b, hu, hx⟩ := h
  have hn := sinkAnswers_drop ha (k := own.length) (u := u) (by rw [hu.frame])
  rcases hx with ⟨hf, -⟩ | ⟨hf, -⟩ <;> rw [hn] at hf <;> cases hf

theorem ReadStops.envMoves (h : ReadStops s t) : EnvMoves s t := by
  rcases h with ⟨hn, rfl⟩ | ⟨hn, rfl⟩
  · exact ⟨.inr ⟨rfl, by simp [hn]⟩, 0, rfl⟩
  · exact ⟨.inr ⟨rfl, by simp [hn]⟩, 0, rfl⟩

theorem EmitStops.envMoves (h : EmitStops s t) : EnvMoves s t := by
  obtain ⟨u, own, b, hu, hx⟩ := h
  obtain ⟨ob, ac, cn, rfl⟩ := hu.fields
  rcases hx with ⟨-, rfl⟩ | ⟨-, rfl⟩
  · exact ⟨.inl ⟨rfl, rfl⟩, own.length + 1, by simp [State.bitRefused]⟩
  · exact ⟨.inl ⟨rfl, rfl⟩, own.length + 1, by simp [State.waitsOnBit]⟩

/-! ## The packed view (R135, R136, R212) -/

theorem packedBits_length (s : State) : s.packedBits.length = 8 * s.outBytes.length + s.bsCnt.toNat := by
  have hc := s.bsCnt.isLt
  have hb : ∀ l : List Byte, (l.flatMap fun b => msbBits 8 b.toNat).length = 8 * l.length := by
    intro l
    induction l with
    | nil => rfl
    | cons b l ih => rw [List.flatMap_cons, List.length_append, ih, msbBits_length, List.length_cons]; omega
  unfold State.packedBits
  rw [List.length_append, hb, List.length_take, msbBits_length]
  omega

/-- Flush completes a byte whose unfilled bits are zero: the packed view grows to whole bytes by zeros (R136). -/
theorem flushSink_packed (hc : (msbBits 8 s.bsAcc.toNat).drop s.bsCnt.toNat = List.replicate (8 - s.bsCnt.toNat) false) :
    s.flushSink.bsCnt = 0 ∧
    s.flushSink.packedBits = s.packedBits ++ List.replicate ((8 - s.bsCnt.toNat) % 8) false ∧
    (msbBits 8 s.flushSink.bsAcc.toNat).drop 0 = List.replicate 8 false := by
  unfold State.flushSink
  split
  · rename_i h0
    rw [h0] at hc
    exact ⟨h0, by simp [h0], hc⟩
  · rename_i h0
    have hlt := s.bsCnt.isLt
    have hne : s.bsCnt.toNat ≠ 0 := fun e => h0 (BitVec.eq_of_toNat_eq (by simpa using e))
    refine ⟨rfl, ?_, (by decide : (msbBits 8 (0 : Byte).toNat).drop 0 = List.replicate 8 false)⟩
    rw [Nat.mod_eq_of_lt (by omega), ← hc]
    simp [State.packedBits]

/-- The packed view in `S_DONE`: the output, padded with zeros to whole bytes (R135, R212). -/
theorem packing_enterDone (hp : s.packedBits = s.outBits)
    (hc : (msbBits 8 s.bsAcc.toNat).drop s.bsCnt.toNat = List.replicate (8 - s.bsCnt.toNat) false) :
    s.enterDone.packingAgrees := by
  obtain ⟨h0, h1, h2⟩ := flushSink_packed (s := { s with seq := .done, done := true }) hc
  obtain ⟨ob, ac, cn, e⟩ := enterDone_frame s
  have hout : s.enterDone.outBits = s.outBits := by rw [e]
  have hseq : s.enterDone.seq = .done := by rw [e]
  have hlen : s.outBits.length % 8 = s.bsCnt.toNat := by
    rw [← hp, packedBits_length]
    have := s.bsCnt.isLt
    omega
  have h0' : s.enterDone.bsCnt = 0 := h0
  refine ⟨fun h => absurd hseq h, fun _ => ⟨h0', ?_⟩, ?_⟩
  · rw [hout, hlen, ← hp]
    exact h1
  · rw [h0']
    exact h2

/-! ## Inside a step -/

theorem RunInv.going (h : RunInv s) (hs : s.stopped = false) : Going s := ⟨⟨h.memories, h.flags, h.trace⟩, hs⟩

/-- What holds of a run between two transactions of a step: the invariant of runs but for what it says of the sequencer state and of
whole records. -/
structure MidStep (s : State) : Prop extends Going s where
  host   : s.hostDriven = true
  packed : s.packedBits = s.outBits
  clean  : (msbBits 8 s.bsAcc.toNat).drop s.bsCnt.toNat = List.replicate (8 - s.bsCnt.toNat) false
  bounds : s.aheadBytes ≤ 17 ∧ s.matchLen ≤ 17 ∧ (s.matchLen ≠ 0 → s.matchPos ≠ 0)
  shape  : TreeShape s.nodeAt
  window : s.windowInv
  noViolation : s.cause ≠ .invariantViolation

theorem RunInv.midStep (h : RunInv s) (hs : s.stopped = false) : MidStep s where
  toGoing := h.going hs
  host := h.host
  packed := h.packing.1 (not_stopped hs).2.1
  clean := h.packing.2.2
  bounds := ⟨h.driver.1, h.driver.2.1, h.driver.2.2.1⟩
  shape := h.tree.1
  window := h.window
  noViolation := h.noViolation

/-- With what the sequencer state asks for, it is the invariant of runs again. -/
theorem MidStep.runInv (h : MidStep s) (hd : s.driverInv) (ht : s.treeInv) (hr : s.streamInv) : RunInv s where
  host := h.host
  memories := h.memories
  flags := h.flags
  trace := h.trace
  packing := ⟨fun _ => h.packed, fun e => absurd e (not_stopped h.running).2.1, h.clean⟩
  driver := hd
  tree := ht
  window := h.window
  stream := hr
  noViolation := h.noViolation

/-- Taking a fault of the environment ends the step in the invariant of runs (R246). -/
theorem MidStep.enterFault {c : Cause} (h : MidStep s) (h1 : c ≠ .noFault) (h2 : c ≠ .invariantViolation) :
    RunInv (s.enterFault c) := by
  obtain ⟨hm, hf, ht⟩ := h.toGoing.enterFault h1
  obtain ⟨ha, hl, hp⟩ := h.bounds
  exact
    { host := h.host, memories := hm, flags := hf, trace := ht
      packing := ⟨fun _ => h.packed, fun e => (by cases e), h.clean⟩
      driver := ⟨ha, hl, hp, trivial⟩, tree := ⟨h.shape, trivial⟩, window := h.window, stream := fun _ => trivial
      noViolation := h2 }

theorem MidStep.emitted {bits : List Bool} (h : MidStep s) (he : Emitted s u bits) : MidStep u := by
  have hg := h.toGoing.emitted he
  have hp := he.packed
  have hc := he.clean h.clean
  obtain ⟨ob, ac, cn, rfl⟩ := he.fields
  exact ⟨hg, h.host, by rw [hp, h.packed], hc, h.bounds, h.shape, windowInv_emit h.window, h.noViolation⟩

/-- A transaction that brings in no byte and leaves the memories and the driver registers alone leaves the window alone (R81). -/
theorem windowInv_congr (h : s.windowInv) (he : eventBytes t.events = eventBytes s.events) (ha : t.aheadBytes = s.aheadBytes)
    (hw : t.window = s.window) (hp : t.winPos = s.winPos) : t.windowInv := by
  unfold State.windowInv State.byteAt at *
  rwa [he, ha, hw, hp]

/-- A read that is not answered, or errs, ends a step of a run in its invariant (R18, R243). -/
theorem RunInv.readStops (h : RunInv s) (hs : s.stopped = false) (hr : ReadStops s t) : RunInv t := by
  have hm := h.midStep hs
  obtain ⟨hb, hf, ht⟩ := (h.going hs).readStops hr
  rcases hr with ⟨-, rfl⟩ | ⟨-, rfl⟩
  · exact
      { host := h.host, memories := hb, flags := hf, trace := ht, packing := h.packing, driver := h.driver, tree := h.tree
        window := h.window, stream := fun e => (by cases e), noViolation := h.noViolation }
  · have hw : State.windowInv (s.issueRead.record (.read .err)) :=
      windowInv_congr h.window (by simp [eventBytes]) rfl rfl rfl
    have hg : Going (s.issueRead.record (.read .err)) := (h.going hs).afterRead .err
    exact MidStep.enterFault ⟨hg, hm.host, hm.packed, hm.clean, hm.bounds, hm.shape, hw, hm.noViolation⟩ (by decide) (by decide)

/-- A bit that is not answered, or is refused, ends a step of a run in its invariant (R18, R242). -/
theorem RunInv.emitStops (h : RunInv s) (hs : s.stopped = false) (he : EmitStops s t) : RunInv t := by
  obtain ⟨u, own, b, hu, hx⟩ := he
  have hm := (h.midStep hs).emitted hu
  rcases hx with ⟨-, rfl⟩ | ⟨-, rfl⟩
  · have hw : State.windowInv (u.issueBit.record (.bitRefused b)) :=
      windowInv_congr hm.window (by simp [eventBytes]) rfl rfl rfl
    exact MidStep.enterFault
      ⟨hm.toGoing.refuseBit b, hm.host, hm.packed, hm.clean, hm.bounds, hm.shape, hw, hm.noViolation⟩ (by decide) (by decide)
  · obtain ⟨hb, hf, ht⟩ := hm.toGoing.waitsOnBit b
    obtain ⟨ob, ac, cn, rfl⟩ := hu.fields
    exact
      { host := hm.host, memories := hb, flags := hf, trace := ht
        packing := ⟨fun _ => hm.packed, fun e => absurd e (not_stopped hm.running).2.1, hm.clean⟩
        driver := h.driver, tree := h.tree, window := hm.window, stream := fun e => (by cases e), noViolation := hm.noViolation }

end Sys2Proof.Machine
end

section
/-! PROOF. Each step of a run, state of the sequencer by state: what it ends in, that it keeps the invariant of runs, and that a run
gets nearer its end (43_driver.md R200 to R214). -/

namespace Sys2Proof.Machine

variable {s t u : State}

/-! ## How a step of a run ends -/

/-- A bound on the steps left of a run: each advance uses up an input item or takes one off `aheadBytes`, a turn of the prefill
fills the look-ahead, and the other steps come once or once an advance (R201, R203, R207, R214). -/
def State.stepsLeft (s : State) : Nat :=
  2 * (s.inPort.length + s.aheadBytes.toNat) +
    match s.seq with
    | .idle  => 23
    | .fill  => (17 - s.aheadBytes.toNat) + (if s.eos then 0 else 1) + 4
    | .init  => 3
    | .emit  => 2
    | .adv   => 1
    | .eos   => 1
    | .done  => 0
    | .fault => 0

/-- The sequencer's step from a state of a run to a state of a run. -/
structure RunsTo (s t : State) : Prop where
  step : sequencerStep s = .next t
  inv  : RunInv t
  env  : EnvMoves s t

/-- How a step of a run ends: it goes on, nearer the end; the environment refused it or left it without an answer; or the
environment answered a byte after the end of input (R131). -/
inductive RunStep (s : State) : Prop where
  | goes (t : State) (h : RunsTo s t) (running : t.wait = none ∧ t.seq ≠ .fault ∧ t.seq ≠ .idle) (less : t.stepsLeft < s.stepsLeft)
  | halts (t : State) (h : RunsTo s t) (env : ¬ (s.inputAnswers = true ∧ s.sinkAnswers = true))
  | late (b : Byte) (h : sequencerStep s = .refused .byteAfterEndOfInput) (byte : s.nextInput = some (.byte b)) (ended : s.inEnded = true)

/-- The step of a running sequencer is its operation. -/
theorem sequencerStep_running (hs : s.stopped = false) : sequencerStep s = (sequencerOp s).outcome fun _ s => s := by
  rw [sequencerStep, if_neg (by simp [hs])]

/-- The bookkeeping of the next state, for a step that goes on. -/
theorem RunInv.goingNext (h : RunInv s) (hx : sequencerStep s = .next t) (hr : t.stopped = false) : Going t :=
  ⟨Bookkeeping.sequencerStep ⟨h.memories, h.flags, h.trace⟩ hx, hr⟩

/-! ## A read -/

/-- Everything a `ReadByte` can do, by what becomes of the step: it goes on, it stops, or it is refused (R130, R131). -/
theorem readByte_outcome (s : State) :
    (∃ r, Returns s r ∧ readByte s = .ret r (s.afterRead r)) ∨ (∃ t, ReadStops s t ∧ readByte s = .stop t) ∨
    (∃ b, s.nextInput = some (.byte b) ∧ s.inEnded = true ∧ readByte s = .refused .byteAfterEndOfInput) := by
  rcases readByte_cases s with ⟨hn, hx⟩ | ⟨hn, hx⟩ | ⟨hn, hx⟩ | ⟨b, hn, hE, hx⟩ | hx
  · exact .inr (.inl ⟨_, .inl ⟨hn, rfl⟩, hx⟩)
  · exact .inr (.inl ⟨_, .inr ⟨hn, rfl⟩, hx⟩)
  · exact .inl ⟨.eoi, ⟨hn, .inl rfl⟩, hx⟩
  · exact .inl ⟨.byte b, ⟨hn, .inr ⟨hE, b, rfl⟩⟩, hx⟩
  · exact .inr (.inr hx)

theorem Returns.envMoves {r : Answer} (h : Returns s r) (h1 : t.inPort = s.inPort.tail)
    (h2 : t.inEnded = if r = .eoi then true else s.inEnded) (h3 : t.outPort = s.outPort) : EnvMoves s t :=
  ⟨.inr ⟨h1, by rw [h2, h.1]; simp⟩, 0, h3⟩

/-- A byte is one of the items the input port still has (R131). -/
theorem Returns.inPort_length {b : Byte} (h : Returns s (.byte b)) : s.inPort.length = s.inPort.tail.length + 1 := by
  cases hp : s.inPort with
  | nil => simp [Returns, State.nextInput, hp, InItem.endOfInput, InItem.answer] at h
  | cons x l => rfl

/-! ## S_FILL -/

theorem windowAt_inj {p : Pos} {a b : Cnt} : windowAt p a = windowAt p b ↔ a = b := by
  unfold windowAt
  constructor
  · intro h; bv_omega
  · rintro rfl; rfl

/-- A byte stored after the valid ones extends the valid look-ahead (R81, R201). -/
theorem windowInv_fill {b : Byte} (h : s.windowInv) (ha : s.aheadBytes < 17) (he : t.events = s.events ++ [.read (.byte b)])
    (hb : t.aheadBytes = s.aheadBytes + 1) (hw : t.window = Memory.write s.window (windowAt s.winPos s.aheadBytes) b)
    (hp : t.winPos = s.winPos) : t.windowInv := by
  obtain ⟨hlen, hcells⟩ := h
  have hev : eventBytes t.events = eventBytes s.events ++ [b] := by simp [he, eventBytes]
  have hn : t.aheadBytes.toNat = s.aheadBytes.toNat + 1 := by rw [hb]; bv_omega
  refine ⟨by rw [hev, hn, List.length_append]; simpa using hlen, fun d hd => ?_⟩
  have hcell : t.byteAt (windowAt t.winPos d) = if d = s.aheadBytes then b else s.byteAt (windowAt s.winPos d) := by
    rw [State.byteAt, hw, hp, Memory.read_write]
    simp only [windowAt_inj]
    rfl
  rw [hcell, hev, hn, List.length_append, List.length_singleton]
  by_cases hda : d = s.aheadBytes
  · rw [if_pos hda, hda, List.getElem?_append_right (by omega)]
    rw [show (eventBytes s.events).length + 1 - (s.aheadBytes.toNat + 1) + s.aheadBytes.toNat - (eventBytes s.events).length = 0 by
      omega]
    rfl
  · have hlt : d < s.aheadBytes := by rw [hb] at hd; bv_omega
    have hdn : d.toNat < s.aheadBytes.toNat := BitVec.lt_def.mp hlt
    rw [if_neg hda, ← hcells d hlt, List.getElem?_append_left (by omega)]
    congr 1
    omega

theorem RunInv.in_fill (h : RunInv s) (hs : s.stopped = false) (hq : s.seq = .fill) :
    s.winPos = 1 ∧ s.matchLen = 0 ∧ s.inEnded = s.eos ∧ s.node = [] ∧ streamOf s.outBits s.passed [] := by
  have hd := h.driver.2.2.2
  have ht := h.tree.2
  have hr := h.stream (not_stopped hs).1
  rw [hq] at hd ht hr
  exact ⟨hd.1, hd.2.1, hd.2.2, ht, hr⟩

theorem sequencerStep_fill (hs : s.stopped = false) (hq : s.seq = .fill) :
    sequencerStep s = (prefill s).outcome fun _ s => s := by
  rw [sequencerStep_running hs, sequencerOp, hq]

/-- The last turn of the prefill: the look-ahead is full, or the end of the input was seen (R201). -/
theorem RunInv.fillStep_ends (h : RunInv s) (hs : s.stopped = false) (hq : s.seq = .fill) (hc : ¬ (s.aheadBytes < 17 ∧ s.eos = false)) :
    RunStep s := by
  have hm := h.midStep hs
  obtain ⟨hwait, -, -⟩ := not_stopped hs
  obtain ⟨hpos, hlen0, hend, hnode, hstream⟩ := h.in_fill hs hq
  obtain ⟨ha17, hl17, hlp⟩ := hm.bounds
  have hx : sequencerStep s = .next { s with seq := .init } := by
    rw [sequencerStep_fill hs hq, prefill, if_neg (by exact hc)]; rfl
  have hfull : s.inEnded = true ∨ s.aheadBytes = 17 := by
    rw [hend]
    by_cases he : s.eos = true
    · exact .inl he
    · have hnlt : ¬ s.aheadBytes < 17 := fun hlt => hc ⟨hlt, by simpa using he⟩
      exact .inr (by bv_omega)
  refine .goes _ ⟨hx, ?_, .inl ⟨rfl, rfl⟩, 0, rfl⟩ ⟨hwait, by simp, by simp⟩ ?_
  · exact MidStep.runInv ⟨h.goingNext hx (by simp [State.stopped, hwait]), hm.host, hm.packed, hm.clean, hm.bounds, hm.shape, h.window,
      hm.noViolation⟩ ⟨ha17, hl17, hlp, hpos, hlen0, hfull⟩ ⟨hm.shape, hnode⟩ fun _ => hstream
  · simp only [State.stepsLeft, hq]
    omega

/-- A turn of the prefill that is answered with the end of input (R201). -/
theorem RunInv.fillStep_eoi (h : RunInv s) (hs : s.stopped = false) (hq : s.seq = .fill) (hc : s.aheadBytes < 17 ∧ s.eos = false)
    (hr : Returns s .eoi) (hread : readByte s = .ret .eoi (s.afterRead .eoi)) : RunStep s := by
  have hm := h.midStep hs
  obtain ⟨hwait, -, -⟩ := not_stopped hs
  obtain ⟨hpos, hlen0, -, hnode, hstream⟩ := h.in_fill hs hq
  obtain ⟨ha17, hl17, hlp⟩ := hm.bounds
  have hx : sequencerStep s = .next { s.afterRead .eoi with eos := true, seq := .fill } := by
    rw [sequencerStep_fill hs hq, prefill, if_pos (by exact hc), hread]; rfl
  have hev : eventBytes (s.events ++ [.read .eoi]) = eventBytes s.events := by simp [eventBytes]
  have hg := h.goingNext hx (by simp [State.stopped, State.afterRead, hwait])
  refine .goes _ ⟨hx, ?_, hr.envMoves rfl rfl rfl⟩ ⟨hwait, by simp, by simp⟩ ?_
  · refine MidStep.runInv ⟨hg, hm.host, hm.packed, hm.clean, hm.bounds, hm.shape, windowInv_congr h.window hev rfl rfl rfl,
      hm.noViolation⟩ ⟨ha17, hl17, hlp, hpos, hlen0, rfl⟩ ⟨hm.shape, hnode⟩ fun _ => ?_
    show streamOf s.outBits ((eventBytes (s.events ++ [.read .eoi])).length - s.aheadBytes.toNat) []
    rw [hev]; exact hstream
  · have : s.inPort.tail.length ≤ s.inPort.length := by simp
    simp only [State.stepsLeft, State.afterRead, hq, hc.2, if_true, Bool.false_eq_true, if_false]
    omega

/-- A turn of the prefill that brings a byte in (R201). -/
theorem RunInv.fillStep_byte (h : RunInv s) (hs : s.stopped = false) (hq : s.seq = .fill) (hc : s.aheadBytes < 17 ∧ s.eos = false)
    {b : Byte} (hr : Returns s (.byte b)) (hread : readByte s = .ret (.byte b) (s.afterRead (.byte b))) : RunStep s := by
  have hm := h.midStep hs
  obtain ⟨hwait, -, -⟩ := not_stopped hs
  obtain ⟨hpos, hlen0, hend, hnode, hstream⟩ := h.in_fill hs hq
  obtain ⟨-, hl17, hlp⟩ := hm.bounds
  have hlt : s.aheadBytes.toNat < 17 := hc.1
  have hn : (s.aheadBytes + 1).toNat = s.aheadBytes.toNat + 1 := by bv_omega
  have ha17 : s.aheadBytes + 1 ≤ 17 := by bv_omega
  have hx : sequencerStep s = .next { s.afterRead (.byte b) with
      window := Memory.write s.window (windowAt s.winPos s.aheadBytes) b, aheadBytes := s.aheadBytes + 1, seq := .fill } := by
    rw [sequencerStep_fill hs hq, prefill, if_pos (by exact hc), hread]; rfl
  have hg := h.goingNext hx (by simp [State.stopped, State.afterRead, hwait])
  refine .goes _ ⟨hx, ?_, hr.envMoves rfl rfl rfl⟩ ⟨hwait, by simp, by simp⟩ ?_
  · refine MidStep.runInv ⟨hg, hm.host, hm.packed, hm.clean, ⟨ha17, hl17, hlp⟩, hm.shape,
      windowInv_fill h.window hc.1 rfl rfl rfl rfl, hm.noViolation⟩ ⟨ha17, hl17, hlp, hpos, hlen0, hend⟩ ⟨hm.shape, hnode⟩ fun _ => ?_
    show streamOf s.outBits ((eventBytes (s.events ++ [.read (.byte b)])).length - (s.aheadBytes + 1).toNat) []
    have hp : (eventBytes (s.events ++ [.read (.byte b)])).length - (s.aheadBytes + 1).toNat = s.passed := by
      rw [hn, eventBytes_append, List.length_append, State.passed]
      simp [eventBytes]
    rw [hp]; exact hstream
  · have := hr.inPort_length
    simp only [State.stepsLeft, State.afterRead, hq, hn, hc.2]
    omega

theorem RunInv.fillStep (h : RunInv s) (hs : s.stopped = false) (hq : s.seq = .fill) : RunStep s := by
  by_cases hc : s.aheadBytes < 17 ∧ s.eos = false
  · rcases readByte_outcome s with ⟨r, hr, hx⟩ | ⟨t, hr, hx⟩ | ⟨b, -, hE, -⟩
    · obtain rfl | ⟨-, b, rfl⟩ := hr.2
      · exact h.fillStep_eoi hs hq hc hr hx
      · exact h.fillStep_byte hs hq hc hr hx
    · refine .halts t ⟨?_, h.readStops hs hr, hr.envMoves⟩ fun e => hr.not_answers e.1
      rw [sequencerStep_fill hs hq, prefill, if_pos (by exact hc), hx]; rfl
    · obtain ⟨-, -, hend, -, -⟩ := h.in_fill hs hq
      rw [hend, hc.2] at hE; cases hE
  · exact h.fillStep_ends hs hq hc

/-! ## S_INIT -/

/-- The links InitTree leaves in an empty `Node`: one slot under the root (R150). -/
def singleton (r n : NodeIx) : NodeRec :=
  if n = r then { parent := 1024, smallChild := 0, largeChild := 0 }
  else if n = 1024 then { parent := 0, smallChild := 0, largeChild := r }
  else NodeRec.zero

theorem singleton_live {r n : NodeIx} (hr : r ≠ 0) (hr' : r ≠ 1024) : liveIn (singleton r) n ↔ n = r := by
  unfold liveIn singleton
  constructor
  · rintro ⟨-, h1, h2⟩
    by_contra hn
    rw [if_neg hn, if_neg h1] at h2
    exact h2 rfl
  · rintro rfl
    exact ⟨hr, hr', by rw [if_pos rfl]; decide⟩

/-- A tree of one slot has the shape of a tree (R47, R150). -/
theorem treeShape_singleton {r : NodeIx} (hr : r ≠ 0) (hr' : r ≠ 1024) : TreeShape (singleton r) := by
  have hroot : singleton r 1024 = { parent := 0, smallChild := 0, largeChild := r } := by
    rw [singleton, if_neg (Ne.symm hr'), if_pos rfl]
  have hself : singleton r r = { parent := 1024, smallChild := 0, largeChild := 0 } := by rw [singleton, if_pos rfl]
  have hlive := fun n => singleton_live (n := n) hr hr'
  have hlinked : ∀ p, linkedIn (singleton r) p → p = 1024 ∨ p = r := fun p hp => hp.imp id (hlive p).mp
  refine ⟨?_, ?_, ?_, ?_, ?_, ?_, ?_, ⟨fun n => if n = r then 1 else 0, ?_⟩⟩
  · rw [hroot]; exact ⟨rfl, rfl⟩
  · rw [singleton, if_neg (Ne.symm hr), if_neg (by decide)]; exact ⟨rfl, rfl⟩
  · intro n _ hn hp
    have hnr : n ≠ r := by rintro rfl; rw [hself] at hp; exact absurd hp (by decide)
    rw [singleton, if_neg hnr, if_neg hn]
  · intro n hn
    obtain rfl := (hlive n).mp hn
    rw [hself]
    exact ⟨.inl rfl, .inr (by rw [hroot])⟩
  · intro p hp hc
    rcases hlinked p hp with rfl | rfl
    · rw [hroot] at hc; exact absurd rfl hc
    · rw [hself] at hc; exact absurd rfl hc
  · intro p hp hc
    rcases hlinked p hp with rfl | rfl
    · rw [hroot]; exact ⟨(hlive r).mpr rfl, by rw [hself]⟩
    · rw [hself] at hc; exact absurd rfl hc
  · intro p hp e
    rcases hlinked p hp with rfl | rfl
    · rw [hroot]
    · rw [hself]
  · intro n hn
    obtain rfl := (hlive n).mp hn
    rw [hself]
    simp [Ne.symm hr']

/-- InitTree in an empty `Node` (R150, R202). -/
theorem initTree_empty {p : Pos} (hp : p ≠ 0) (hn : s.node = []) :
    ∃ m, initTree p s = .ret () { s with node := m } ∧ NodeMemory.read m = singleton (posToNode p) := by
  rw [initTree, if_neg hp]
  refine ⟨_, rfl, funext fun n => ?_⟩
  have h0 : NodeMemory.read s.node n = NodeRec.zero := by rw [hn]; rfl
  simp only [State.putNode_node, NodeMemory.read_write, h0]
  rfl

theorem RunInv.initStep (h : RunInv s) (hs : s.stopped = false) (hq : s.seq = .init) : RunStep s := by
  have hm := h.midStep hs
  obtain ⟨hwait, -, -⟩ := not_stopped hs
  have hd := h.driver.2.2.2
  have ht := h.tree.2
  have hr := h.stream hwait
  rw [hq] at hd ht hr
  obtain ⟨hpos, hlen0, hfull⟩ := hd
  obtain ⟨ha17, hl17, hlp⟩ := hm.bounds
  have hne : s.winPos ≠ 0 := by rw [hpos]; decide
  obtain ⟨m, hi, hnode⟩ := initTree_empty hne ht
  have hx : sequencerStep s = .next { s with node := m, seq := .emit } := by
    rw [sequencerStep_running hs, sequencerOp, hq]
    simp only [Machine.initStep, hi]
    rfl
  have hr0 : posToNode s.winPos ≠ 0 := fun e => hne (posToNode_eq_zero.mp e)
  have hlive : ∀ n, liveIn (NodeMemory.read m) n ↔ n = posToNode s.winPos := fun n => by
    rw [hnode]; exact singleton_live hr0 (posToNode_ne_root s.winPos)
  have hshape : TreeShape (NodeMemory.read m) := hnode ▸ treeShape_singleton hr0 (posToNode_ne_root s.winPos)
  have hwithin : liveWithin (NodeMemory.read m) s.winPos 1007 := fun p hp => by
    rw [posToNode_inj.mp ((hlive _).mp hp)]; simp
  have hanchor : anchored (NodeMemory.read m) s.winPos := by
    rw [anchored, if_neg hne]; exact (hlive _).mpr rfl
  have hg := h.goingNext hx (by simp [State.stopped, hwait])
  refine .goes _ ⟨hx, ?_, .inl ⟨rfl, rfl⟩, 0, rfl⟩ ⟨hwait, by simp, by simp⟩ ?_
  · exact MidStep.runInv ⟨hg, hm.host, hm.packed, hm.clean, hm.bounds, hshape, h.window, hm.noViolation⟩
      ⟨ha17, hl17, hlp, hfull⟩ ⟨hshape, hwithin, fun _ => hanchor⟩ fun _ => hr
  · simp only [State.stepsLeft, hq]
    omega

/-! ## S_EMIT -/

/-- The clamp keeps the invariant of runs: it only lowers `matchLen` (R203). -/
theorem RunInv.clamp (h : RunInv s) (hq : s.seq = .emit) : RunInv s.clamp := by
  unfold State.clamp
  split
  · rename_i hlt
    have hd := h.driver
    unfold State.driverInv at hd
    rw [hq] at hd
    obtain ⟨ha, hl, hp, hfull⟩ := hd
    have hdr : State.driverInv { s with matchLen := s.aheadBytes } := by
      unfold State.driverInv
      simp only [hq]
      exact ⟨ha, ha, fun _ => hp (by bv_omega), hfull⟩
    exact
      { host := h.host, memories := h.memories, flags := h.flags, trace := h.trace, packing := h.packing, driver := hdr
        tree := h.tree, window := h.window, stream := h.stream, noViolation := h.noViolation }
  · exact h

theorem clamp_le (s : State) : s.clamp.matchLen ≤ s.aheadBytes := by
  unfold State.clamp
  split
  · exact BitVec.le_refl _
  · rename_i h
    bv_omega

/-- What a sequence of bits does: all of it is taken, or the step stops inside it. -/
theorem putBits_outcome (bits : List Bool) (s : State) :
    (∃ u, putBits bits s = .ret () u ∧ Emitted s u bits) ∨ (∃ t, putBits bits s = .stop t ∧ EmitStops s t) := by
  have he := putBits_ends bits s
  rcases putBits_cases bits s with hu | ⟨u, own, b, rest, -, -, hx | hx⟩
  · exact .inl hu
  · rw [hx] at he; exact .inr ⟨_, hx, he⟩
  · rw [hx] at he; exact .inr ⟨_, hx, he⟩

/-- The length field is the length less 2 (R106). -/
theorem lengthField_toNat {m : Cnt} (h1 : ¬ m ≤ 1) (h2 : m ≤ 17) : (lengthField m).toNat + 2 = m.toNat := by
  have e : lengthField m = (m - 2).setWidth 4 := rfl
  rw [e]
  bv_omega

/-- The record a run puts out in `S_EMIT` is a well-formed data record, which stands for as many bytes as the run then advances over
(R100, R106, R109, R203). -/
theorem RunInv.emit_record (h : RunInv s) (hq : s.seq = .emit) :
    ∃ (r : Instr) (bits : List Bool), r.isData = true ∧ r.recordBits = some bits ∧
      s.clamp.emission (if s.clamp.matchLen ≤ 1 then .emitLiteral else .emitMatch) = some bits ∧
      r.covers = (if s.clamp.matchLen ≤ 1 then 1 else s.clamp.matchLen).toNat := by
  obtain ⟨-, hl17, hlp, -⟩ := (h.clamp hq).driver
  by_cases hm : s.clamp.matchLen ≤ 1
  · simp only [if_pos hm]
    exact ⟨.literal (s.clamp.byteAt s.clamp.winPos), _, rfl, rfl, rfl, rfl⟩
  · simp only [if_neg hm]
    have hp : s.clamp.matchPos ≠ 0 := hlp fun e => hm (by rw [e]; decide)
    have hc : ¬ (s.clamp.matchPos = 0 ∨ 17 < s.clamp.matchLen) := by
      rintro (e | e)
      · exact hp e
      · bv_omega
    exact ⟨.matchRecord s.clamp.matchPos (lengthField s.clamp.matchLen), _, by simpa [Instr.isData] using hp, rfl, if_neg hc,
      lengthField_toNat hm hl17⟩

theorem sequencerStep_emit (hs : s.stopped = false) (hq : s.seq = .emit) :
    sequencerStep s = (emitStep s).outcome fun _ s => s := by
  rw [sequencerStep_running hs, sequencerOp, hq]

/-- The loop test: nothing is left to put out (R203). -/
theorem RunInv.emitStep_ends (h : RunInv s) (hs : s.stopped = false) (hq : s.seq = .emit) (ha : s.aheadBytes = 0) : RunStep s := by
  have hm := h.midStep hs
  obtain ⟨hwait, -, -⟩ := not_stopped hs
  obtain ⟨ha17, hl17, hlp⟩ := hm.bounds
  have hr := h.stream hwait
  rw [hq] at hr
  have hx : sequencerStep s = .next { s with seq := .eos } := by rw [sequencerStep_emit hs hq, Machine.emitStep, if_pos ha]; rfl
  have hg := h.goingNext hx (by simp [State.stopped, hwait])
  refine .goes _ ⟨hx, ?_, .inl ⟨rfl, rfl⟩, 0, rfl⟩ ⟨hwait, by simp, by simp⟩ ?_
  · exact MidStep.runInv ⟨hg, hm.host, hm.packed, hm.clean, hm.bounds, hm.shape, h.window, hm.noViolation⟩
      ⟨ha17, hl17, hlp, ha⟩ ⟨hm.shape, trivial⟩ fun _ => hr
  · simp only [State.stepsLeft, hq]
    omega

/-- After the record the run advances over its bytes, of which there is at least one and no more than the look-ahead holds (R206). -/
theorem RunInv.toAdv (h : RunInv s) (hs : s.stopped = false) (hq : s.seq = .emit) (ha : s.aheadBytes ≠ 0) {r : Instr} {bits : List Bool}
    {c : Cnt} (hdata : r.isData = true) (hbits : r.recordBits = some bits) (hcov : r.covers = c.toNat) (hc0 : c ≠ 0)
    (hca : c ≤ s.aheadBytes) (he : Emitted s u bits) (hg : Going { u with replCnt := c, advCnt := 0, seq := .adv }) :
    RunInv { u with replCnt := c, advCnt := 0, seq := .adv } := by
  have hm := (h.midStep hs).emitted he
  have hd := h.driver.2.2.2
  have ht := h.tree.2
  have hr := h.stream (not_stopped hs).1
  rw [hq] at hd ht hr
  obtain ⟨ob, ac, cn, rfl⟩ := he.fields
  obtain ⟨ha17, hl17, hlp⟩ := hm.bounds
  have hc17 : c ≤ 17 := BitVec.le_trans hca ha17
  have hc0' : (0 : Cnt) < c := by bv_omega
  have hcn : c.toNat ≤ s.aheadBytes.toNat := hca
  refine MidStep.runInv ⟨hg, hm.host, hm.packed, hm.clean, hm.bounds, hm.shape, hm.window, hm.noViolation⟩
    ⟨ha17, hl17, hlp, hd, hc17, hc0', by simpa using hcn⟩ ⟨hm.shape, ht.1, ht.2 ha⟩ fun _ => ?_
  refine streamOf_snoc hr hdata hbits ?_
  rw [hcov, ← passed_emit (s := s) (own := bits) (ob := ob) (ac := ac) (cn := cn) (op := s.outPort.drop bits.length)]
  rfl

theorem RunInv.emitStep (h : RunInv s) (hs : s.stopped = false) (hq : s.seq = .emit) : RunStep s := by
  by_cases ha : s.aheadBytes = 0
  · exact h.emitStep_ends hs hq ha
  · have hcl := h.clamp hq
    have hle := clamp_le s
    obtain ⟨r, bits, hdata, hbits, hem, hcov⟩ := h.emit_record hq
    have hk := emitStep_emission ha hem
    obtain ⟨k, e⟩ := clamp_frame s
    rw [e] at hcl hle hk hcov
    have hle' : k ≤ s.aheadBytes := hle
    have hrun : State.stopped { s with matchLen := k } = false := hs
    rcases putBits_outcome bits { s with matchLen := k } with ⟨u, hu, he⟩ | ⟨t, ht, hst⟩
    · have hku : u.matchLen = k := by rw [he.frame]
      have hk' : Machine.emitStep s = .ret () { u with replCnt := if k ≤ 1 then 1 else k, advCnt := 0, seq := .adv } := by
        rw [hk, hu, Res.ret_andThen, hku]
      have hc : (if k ≤ 1 then 1 else k) ≠ 0 ∧ (if k ≤ 1 then 1 else k) ≤ s.aheadBytes := by
        split
        · exact ⟨by decide, by bv_omega⟩
        · exact ⟨by bv_omega, hle'⟩
      generalize (if k ≤ 1 then 1 else k) = c at hk' hcov hc
      have hx : sequencerStep s = .next { u with replCnt := c, advCnt := 0, seq := .adv } := by
        rw [sequencerStep_emit hs hq, hk']; rfl
      have hwait : u.wait = none := by rw [he.frame]; exact (not_stopped hs).1
      have hg := h.goingNext hx (by simp [State.stopped, hwait])
      refine .goes _ ⟨hx, hcl.toAdv hrun hq ha hdata hbits hcov hc.1 hc.2 he hg, ?_⟩ ⟨hwait, by simp, by simp⟩ ?_
      · obtain ⟨ob, ac, cn, rfl⟩ := he.fields
        exact ⟨.inl ⟨rfl, rfl⟩, bits.length, rfl⟩
      · obtain ⟨ob, ac, cn, rfl⟩ := he.fields
        simp only [State.stepsLeft, hq]
        omega
    · refine .halts t ⟨?_, hcl.emitStops hrun hst, ?_⟩ fun e => hst.not_answers e.2
      · rw [sequencerStep_emit hs hq, hk, ht]; rfl
      · exact ⟨hst.envMoves.input, hst.envMoves.sink⟩

/-! ## S_EOS -/

/-- The terminator and the entry into `S_DONE` (R100, R209, R212). -/
theorem RunInv.toDone (h : RunInv s) (hs : s.stopped = false) (hq : s.seq = .eos) (he : Emitted s u eosBits) : RunInv u.enterDone := by
  have hm := (h.midStep hs).emitted he
  obtain ⟨hmem, hfl, htr⟩ := hm.toGoing.enterDone
  have hpack := packing_enterDone hm.packed hm.clean
  obtain ⟨ob, ac, cn, e⟩ := enterDone_frame u
  rw [e] at hmem hfl htr hpack ⊢
  have hd := h.driver.2.2.2
  have hr := h.stream (not_stopped hs).1
  rw [hq] at hd hr
  obtain ⟨ob', ac', cn', rfl⟩ := he.fields
  obtain ⟨ha17, hl17, hlp⟩ := hm.bounds
  refine
    { host := hm.host, memories := hmem, flags := hfl, trace := htr, packing := hpack, driver := ⟨ha17, hl17, hlp, hd⟩
      tree := ⟨hm.shape, trivial⟩, window := hm.window, stream := fun _ => ?_, noViolation := hm.noViolation }
  obtain ⟨rs, h1, h2, h3⟩ := hr
  refine ⟨rs, h1, ?_, ?_⟩
  · show s.outBits ++ eosBits = _
    rw [h2, List.append_nil]
  · rw [h3, State.passed, hd]
    simp

theorem RunInv.eosStep (h : RunInv s) (hs : s.stopped = false) (hq : s.seq = .eos) : RunStep s := by
  have hop : sequencerStep s = ((putBits eosBits s).andThen fun _ s => .ret () s.enterDone).outcome fun _ s => s := by
    rw [sequencerStep_running hs, sequencerOp, hq]
    simp only [emitEos, emitEosRecord_eq_putBits]
  rcases putBits_outcome eosBits s with ⟨u, hu, he⟩ | ⟨t, ht, hst⟩
  · have hx : sequencerStep s = .next u.enterDone := by rw [hop, hu]; rfl
    have hi := h.toDone hs hq he
    obtain ⟨ob, ac, cn, e⟩ := enterDone_frame u
    rw [e] at hx hi
    obtain ⟨ob', ac', cn', rfl⟩ := he.fields
    refine .goes _ ⟨hx, hi, .inl ⟨rfl, rfl⟩, eosBits.length, rfl⟩ ⟨(not_stopped hs).1, by simp, by simp⟩ ?_
    simp only [State.stepsLeft, hq]
    omega
  · refine .halts t ⟨?_, h.emitStops hs hst, hst.envMoves⟩ fun e => hst.not_answers e.2
    rw [hop, ht]; rfl

end Sys2Proof.Machine
end

section
/-! PROOF. An advance of a run (R207, R208), and the whole run (R200, R212, R285). -/

namespace Sys2Proof.Machine

variable {s t u : State}

/-! ## S_ADV -/

theorem windowAt_succ (p : Pos) {d : Cnt} (h : d < 31) : windowAt (p + 1) d = windowAt p (d + 1) := by
  unfold windowAt
  bv_omega

/-- The look-ahead after an advance is the one before it without its first byte, and with the byte read, if one was (R81, R207). -/
theorem windowInv_advance {r : Answer} (h : s.windowInv) (ha : s.aheadBytes ≤ 17) (ha0 : s.aheadBytes ≠ 0)
    (hr : r = .eoi ∨ (s.aheadBytes = 17 ∧ ∃ b, r = .byte b)) (he : t.events = s.events ++ [.read r])
    (hb : t.aheadBytes = if r = .eoi then s.aheadBytes - 1 else s.aheadBytes) (hw : t.window = windowAfterRead s r)
    (hp : t.winPos = s.winPos + 1) : t.windowInv := by
  obtain ⟨hlen, hcells⟩ := h
  rcases hr with rfl | ⟨h17, b, rfl⟩
  · have hev : eventBytes t.events = eventBytes s.events := by simp [he, eventBytes]
    have hb' : t.aheadBytes = s.aheadBytes - 1 := hb
    have hn : t.aheadBytes.toNat + 1 = s.aheadBytes.toNat := by rw [hb']; bv_omega
    refine ⟨by rw [hev]; omega, fun d hd => ?_⟩
    have hd1 : d.toNat < t.aheadBytes.toNat := hd
    have hd31 : d < 31 := by bv_omega
    have hds : (d + 1).toNat = d.toNat + 1 := by bv_omega
    have hlt : d + 1 < s.aheadBytes := by rw [BitVec.lt_def]; omega
    have hbyte : t.byteAt (windowAt t.winPos d) = s.byteAt (windowAt s.winPos (d + 1)) := by
      rw [State.byteAt, hw, hp, windowAt_succ _ hd31]; rfl
    rw [hbyte, ← hcells _ hlt, hev, hds]
    congr 1
    omega
  · have hev : eventBytes t.events = eventBytes s.events ++ [b] := by simp [he, eventBytes]
    have hb' : t.aheadBytes = 17 := by rw [hb]; simpa using h17
    rw [h17] at hlen hcells
    have hlen' : 17 ≤ (eventBytes s.events).length := hlen
    refine ⟨by rw [hev, hb', List.length_append]; exact Nat.le_add_right_of_le hlen, fun d hd => ?_⟩
    rw [hb'] at hd
    have hd31 : d < 31 := by bv_omega
    have hds : (d + 1).toNat = d.toNat + 1 := by bv_omega
    have hbyte : t.byteAt (windowAt t.winPos d) = if d = 16 then b else s.byteAt (windowAt s.winPos (d + 1)) := by
      have hcell : windowAt s.winPos (d + 1) = s.winPos + 17 ↔ d = 16 := by
        rw [show s.winPos + 17 = windowAt s.winPos 17 from rfl, windowAt_inj]
        constructor <;> intro e <;> bv_omega
      rw [State.byteAt, hw, hp, windowAt_succ _ hd31, windowAfterRead, Memory.read_write]
      simp only [hcell]
      rfl
    rw [hbyte, hev, hb', List.length_append, List.length_singleton]
    have h17n : (17 : Cnt).toNat = 17 := rfl
    have hd17 : d.toNat < 17 := hd
    by_cases h16 : d = 16
    · have h16n : d.toNat = 16 := by rw [h16]; rfl
      rw [if_pos h16, List.getElem?_append_right (by omega), h17n, h16n,
        show (eventBytes s.events).length + 1 - 17 + 16 - (eventBytes s.events).length = 0 by omega]
      rfl
    · have hlt : d + 1 < 17 := by bv_omega
      have hltn : d.toNat + 1 < 17 := by rw [← hds]; exact hlt
      rw [if_neg h16, ← hcells _ hlt, List.getElem?_append_left (by omega), hds, h17n]
      congr 1
      omega

/-- What an advance finds: the tree and the counts of R206, R285. -/
theorem RunInv.in_adv (h : RunInv s) (hs : s.stopped = false) (hq : s.seq = .adv) :
    (s.inEnded = true ∨ s.aheadBytes = 17) ∧ (s.replCnt ≤ 17 ∧ s.advCnt < s.replCnt ∧
      s.replCnt.toNat - s.advCnt.toNat ≤ s.aheadBytes.toNat) ∧
    liveWithin s.nodeAt s.winPos 1007 ∧ anchored s.nodeAt s.winPos ∧
    streamOf s.outBits (s.passed + (s.replCnt.toNat - s.advCnt.toNat)) [] := by
  have hd := h.driver.2.2.2
  have ht := h.tree.2
  have hr := h.stream (not_stopped hs).1
  rw [hq] at hd ht hr
  exact ⟨hd.1, hd.2, ht.1, ht.2, hr⟩

theorem sequencerStep_adv (hs : s.stopped = false) (hq : s.seq = .adv) :
    sequencerStep s = (advance s).outcome fun _ s => s := by
  rw [sequencerStep_running hs, sequencerOp, hq]

/-- An advance passes one byte (R112, R207). -/
theorem passed_advance {r : Answer} (hw : s.windowInv) (ha0 : s.aheadBytes ≠ 0)
    (hr : r = .eoi ∨ (s.aheadBytes = 17 ∧ ∃ b, r = .byte b)) :
    (eventBytes (s.events ++ [.read r])).length - (if r = .eoi then s.aheadBytes - 1 else s.aheadBytes).toNat = s.passed + 1 := by
  have hlen := hw.1
  have h0 : s.aheadBytes.toNat ≠ 0 := fun e => ha0 (BitVec.eq_of_toNat_eq e)
  rcases hr with rfl | ⟨-, b, rfl⟩
  · have hn : (s.aheadBytes - 1).toNat = s.aheadBytes.toNat - 1 := by bv_omega
    rw [if_pos rfl, hn, State.passed]
    simp only [eventBytes_append, eventBytes, List.append_nil]
    omega
  · rw [if_neg (by simp), State.passed]
    simp only [eventBytes_append, eventBytes, List.length_append, List.length_singleton]
    omega

/-- The answer an advance of a run gets: the end of input, or a byte while the look-ahead is full (R207, R214). -/
theorem RunInv.adv_answer (h : RunInv s) (hs : s.stopped = false) (hq : s.seq = .adv) {r : Answer} (hret : Returns s r) :
    r = .eoi ∨ (s.aheadBytes = 17 ∧ ∃ b, r = .byte b) := by
  obtain ⟨hfull, -⟩ := h.in_adv hs hq
  rcases hret.2 with hr | ⟨hE, hr⟩
  · exact .inl hr
  · exact .inr ⟨hfull.resolve_left (by simp [hE]), hr⟩

/-- `aheadBytes` after an advance: at most one less, with an input item used up where it is not; full unless the input has ended. -/
theorem ahead_advance {r : Answer} (ha : s.aheadBytes ≤ 17) (ha0 : s.aheadBytes ≠ 0) (hret : Returns s r)
    (hr : r = .eoi ∨ (s.aheadBytes = 17 ∧ ∃ b, r = .byte b)) {a' : Cnt} (e : (if r = .eoi then s.aheadBytes - 1 else s.aheadBytes) = a') :
    a' ≤ 17 ∧ s.aheadBytes.toNat ≤ a'.toNat + 1 ∧
    s.inPort.tail.length + a'.toNat < s.inPort.length + s.aheadBytes.toNat ∧
    ((if r = .eoi then true else s.inEnded) = true ∨ a' = 17) := by
  subst e
  rcases hr with rfl | ⟨h17, b, rfl⟩
  · have : s.inPort.tail.length ≤ s.inPort.length := by simp
    have hn : (s.aheadBytes - 1).toNat + 1 = s.aheadBytes.toNat := by bv_omega
    simp only [if_true]
    exact ⟨by bv_omega, by omega, by omega, .inl trivial⟩
  · have := hret.inPort_length
    simp only [reduceCtorEq, if_false]
    exact ⟨ha, by omega, by omega, .inr h17⟩

/-- An advance whose read is answered inside the contract: the count says whether another follows or a record (R207, R208). -/
theorem RunInv.advStep_answered (h : RunInv s) (hs : s.stopped = false) (hq : s.seq = .adv) {r : Answer} (hret : Returns s r) :
    RunStep s := by
  have hm := h.midStep hs
  obtain ⟨hwait, -, -⟩ := not_stopped hs
  obtain ⟨-, ⟨hrepl, hlt, hcount⟩, hwithin, hanchor, hstream⟩ := h.in_adv hs hq
  obtain ⟨ha17, hl17, hlp⟩ := hm.bounds
  have hltn : s.advCnt.toNat < s.replCnt.toNat := hlt
  have hsucc : (s.advCnt + 1).toNat = s.advCnt.toNat + 1 := by bv_omega
  have ha0 : s.aheadBytes ≠ 0 := fun e0 => by rw [e0] at hcount; simp at hcount; omega
  have hr17 := h.adv_answer hs hq hret
  obtain ⟨m, win, x, y, z, d, e, f, g, k, ml, mp, hadv, rfl, hkeep, hmatch, -, hshape, hwithin', hanchor', -, -, -⟩ :=
    advance_ret s r h.tree.1 hwithin hanchor hret.1 hret.2
  have hx := sequencerStep_adv hs hq
  rw [hadv, Res.ret_outcome] at hx
  have hpassed := passed_advance h.window ha0 hr17
  have hw := fun t => windowInv_advance (t := t) h.window ha17 ha0 hr17
  have hahead := fun a' => ahead_advance ha17 ha0 hret hr17 (a' := a')
  generalize hca : (if r = .eoi then s.aheadBytes - 1 else s.aheadBytes) = a' at hx hkeep hmatch hanchor' hpassed hw
  obtain ⟨ha', hstep, hless, hfull'⟩ := hahead a' hca
  have hml : ml ≤ 17 ∧ (ml ≠ 0 → mp ≠ 0) := by
    by_cases h0 : a' = 0
    · obtain ⟨rfl, rfl⟩ := hkeep h0; exact ⟨hl17, hlp⟩
    · exact ⟨(hmatch h0).1, (hmatch h0).2.1⟩
  by_cases hc : s.advCnt + 1 = s.replCnt
  · rw [if_pos hc] at hx
    have hg := h.goingNext hx (by simp [State.stopped, hwait])
    have hp : (eventBytes (s.events ++ [.read r])).length - a'.toNat = s.passed + (s.replCnt.toNat - s.advCnt.toNat) := by
      rw [hpassed, ← hc, hsucc]; omega
    refine .goes _ ⟨hx, ?_, hret.envMoves rfl rfl rfl⟩ ⟨hwait, by simp, by simp⟩ ?_
    · refine MidStep.runInv ⟨hg, hm.host, hm.packed, hm.clean, ⟨ha', hml⟩, hshape, hw _ rfl rfl rfl rfl, hm.noViolation⟩
        ⟨ha', hml.1, hml.2, hfull'⟩ ⟨hshape, hwithin', hanchor'⟩ fun _ => ?_
      show streamOf s.outBits ((eventBytes (s.events ++ [.read r])).length - a'.toNat) []
      rw [hp]; exact hstream
    · simp only [State.stepsLeft, hq]
      omega
  · rw [if_neg hc] at hx
    have hg := h.goingNext hx (by simp [State.stopped, hwait])
    have hlt' : s.advCnt + 1 < s.replCnt := by bv_omega
    have hltn' : s.advCnt.toNat + 1 < s.replCnt.toNat := by rw [← hsucc]; exact hlt'
    have hne : a' ≠ 0 := fun e0 => by rw [e0] at hstep; simp at hstep; omega
    have hcount' : s.replCnt.toNat - (s.advCnt + 1).toNat ≤ a'.toNat := by omega
    have hp : (eventBytes (s.events ++ [.read r])).length - a'.toNat + (s.replCnt.toNat - (s.advCnt + 1).toNat) =
        s.passed + (s.replCnt.toNat - s.advCnt.toNat) := by
      rw [hpassed, hsucc]; omega
    refine .goes _ ⟨hx, ?_, hret.envMoves rfl rfl rfl⟩ ⟨hwait, by simp, by simp⟩ ?_
    · refine MidStep.runInv ⟨hg, hm.host, hm.packed, hm.clean, ⟨ha', hml⟩, hshape, hw _ rfl rfl rfl rfl, hm.noViolation⟩
        ⟨ha', hml.1, hml.2, hfull', hrepl, hlt', hcount'⟩ ⟨hshape, hwithin', hanchor' hne⟩ fun _ => ?_
      show streamOf s.outBits ((eventBytes (s.events ++ [.read r])).length - a'.toNat + (s.replCnt.toNat - (s.advCnt + 1).toNat)) []
      rw [hp]; exact hstream
    · simp only [State.stepsLeft, hq]
      omega

/-- The delete of step 3a keeps the invariant of runs (R285). -/
theorem RunInv.afterDelete (h : RunInv s) (hs : s.stopped = false) (hq : s.seq = .adv) :
    ∃ u, deleteNode (fillSlot s.winPos) s = .ret () u ∧ TreeOnly s u ∧ RunInv u := by
  have hm := h.midStep hs
  obtain ⟨hfull, hcount, hwithin, hanchor, hstream⟩ := h.in_adv hs hq
  obtain ⟨ha17, hl17, hlp⟩ := hm.bounds
  obtain ⟨u, hx, ht, hshape, -, hwithin', hanchor', -⟩ := deleteStep h.tree.1 hwithin hanchor
  refine ⟨u, hx, ht, ?_⟩
  have hg := (h.going hs).treeOnly ht
  obtain ⟨⟨m, a, b, c, rfl⟩, -⟩ := ht
  have hdr : State.driverInv { s with node := m, par := a, nxt := b, repl := c } := h.driver
  have htr : State.treeInv { s with node := m, par := a, nxt := b, repl := c } := by
    unfold State.treeInv
    rw [hq]
    exact ⟨hshape, fun p hp => Nat.le_succ_of_le (hwithin' p hp), hanchor'⟩
  exact MidStep.runInv ⟨hg, hm.host, hm.packed, hm.clean, hm.bounds, hshape, h.window, hm.noViolation⟩ hdr htr h.stream

theorem RunInv.advStep (h : RunInv s) (hs : s.stopped = false) (hq : s.seq = .adv) : RunStep s := by
  obtain ⟨u, hdel, ht, hu⟩ := h.afterDelete hs hq
  obtain ⟨⟨m, a, b, c, rfl⟩, -⟩ := ht
  have hop := sequencerStep_adv hs hq
  rw [advance, hdel, Res.ret_andThen] at hop
  rcases readByte_outcome { s with node := m, par := a, nxt := b, repl := c } with ⟨r, hr, -⟩ | ⟨t, hr, hx⟩ | ⟨b, hn, hE, hx⟩
  · exact h.advStep_answered hs hq hr
  · rw [hx] at hop
    exact .halts t ⟨hop, hu.readStops hs hr, hr.envMoves.input, hr.envMoves.sink⟩ fun e => hr.not_answers e.1
  · rw [hx] at hop
    exact .late b hop hn hE

/-! ## The step and the run -/

/-- Every step of a run: it goes on nearer its end, or the environment stops it, or a byte comes after the end of input. -/
theorem RunInv.runStep (h : RunInv s) (hs : s.stopped = false) (hi : s.seq ≠ .idle) : RunStep s := by
  obtain ⟨-, hd, hf⟩ := not_stopped hs
  cases hq : s.seq with
  | idle => exact absurd hq hi
  | fill => exact h.fillStep hs hq
  | init => exact h.initStep hs hq
  | emit => exact h.emitStep hs hq
  | adv => exact h.advStep hs hq
  | eos => exact h.eosStep hs hq
  | done => exact absurd hq hd
  | fault => exact absurd hq hf

/-- Start begins a run in the invariant of runs (R137). -/
theorem RunInv.started (h : RunInv s) : RunInv s.started := by
  unfold State.started
  split
  · rename_i hq
    have hd := h.driver
    have ht := h.tree
    have hr := h.stream
    unfold State.driverInv at hd
    unfold State.treeInv at ht
    unfold State.streamInv at hr
    rw [hq] at hd ht hr
    obtain ⟨ha, hl, hp, hpos, -, hl0, heos, hend⟩ := hd
    have hf : State.flagsAgree { s with seq := .fill } = true := by
      obtain ⟨h1, h2, h3⟩ := flagsAgree_iff.mp h.flags
      rw [hq] at h1 h2
      exact flagsAgree_iff.mpr ⟨h1, h2, h3⟩
    exact
      { host := h.host, memories := h.memories, flags := hf, trace := h.trace
        packing := ⟨fun _ => h.packing.1 (by simp [hq]), fun e => (by cases e), h.packing.2.2⟩
        driver := ⟨ha, hl, hp, hpos, hl0, hend.trans heos.symm⟩, tree := ht, window := h.window, stream := hr
        noViolation := h.noViolation }
  · exact h

theorem stepsLeft_le (h : s.aheadBytes ≤ 17) : s.stepsLeft ≤ 2 * s.inPort.length + 57 := by
  have ha : s.aheadBytes.toNat ≤ 17 := h
  have he : (if s.eos then 0 else 1) ≤ 1 := by split <;> omega
  unfold State.stepsLeft
  cases s.seq <;> simp only <;> omega

theorem runSequencer_stopped (fuel : Nat) (hs : s.stopped = true) : runSequencer fuel s = .next s := by
  cases fuel <;> rw [runSequencer, if_pos hs]

theorem runSequencer_succ {fuel : Nat} (hs : s.stopped = false) (hx : sequencerStep s = .next t) :
    runSequencer (fuel + 1) s = runSequencer fuel t := by
  rw [runSequencer, if_neg (by simp [hs]), hx]

/-- An input that keeps its contract answers no byte after its end (R131). -/
theorem GoodEnv.not_late {b : Byte} (h : GoodEnv s) (hn : s.nextInput = some (.byte b)) (hE : s.inEnded = true) : False := by
  have hc := h.contract
  unfold State.nextInput at hn
  cases hp : s.inPort with
  | nil => rw [hp] at hn; cases hn
  | cons x l =>
    rw [hp] at hn hc
    have hx : x.answer = some (.byte b) := hn
    simp [inputContract, hx, hE] at hc

/-- In a good environment a run goes on until it is done. -/
theorem RunInv.goesOn (h : RunInv s) (hg : GoodEnv s) (hs : s.stopped = false) (hi : s.seq ≠ .idle) :
    ∃ t, RunsTo s t ∧ (t.wait = none ∧ t.seq ≠ .fault ∧ t.seq ≠ .idle) ∧ t.stepsLeft < s.stepsLeft := by
  cases h.runStep hs hi with
  | goes t ht hr hl => exact ⟨t, ht, hr, hl⟩
  | halts t ht he => exact absurd ⟨hg.answers, hg.sink⟩ he
  | late b hx hn hE => exact (hg.not_late hn hE).elim

/-- In a good environment the sequencer's steps bring every run to `S_DONE`, within the steps left (R18, R212, R214). -/
theorem RunInv.completes (fuel : Nat) (h : RunInv s) (hg : GoodEnv s) (hr : s.wait = none ∧ s.seq ≠ .fault ∧ s.seq ≠ .idle)
    (hb : s.stepsLeft ≤ fuel) : ∃ t, runSequencer fuel s = .next t ∧ RunInv t ∧ t.seq = .done := by
  induction fuel generalizing s with
  | zero =>
    cases hs : s.stopped with
    | true => exact ⟨s, runSequencer_stopped 0 hs, h, by simpa [State.stopped, hr.1, hr.2.1] using hs⟩
    | false =>
      obtain ⟨t, -, -, hl⟩ := h.goesOn hg hs hr.2.2
      omega
  | succ fuel ih =>
    cases hs : s.stopped with
    | true => exact ⟨s, runSequencer_stopped _ hs, h, by simpa [State.stopped, hr.1, hr.2.1] using hs⟩
    | false =>
      obtain ⟨t, ht, hr', hl⟩ := h.goesOn hg hs hr.2.2
      rw [runSequencer_succ hs ht.step]
      exact ih ht.inv (ht.env.good hg) hr' (by omega)

/-- Settles O50: every step keeps the invariant of runs and leaves fewer steps (`RunInv.runStep`), so the run reaches `S_DONE` within
the model's bound; the flags then say that there is no fault. -/
theorem compressDataCompletes : Obligations.CompressDataCompletes := by
  intro s h hc ha hk hw hf
  have hst : s.started.inPort = s.inPort ∧ s.started.outPort = s.outPort ∧ s.started.inEnded = s.inEnded ∧ s.started.wait = s.wait ∧
      s.started.seq ≠ .fault ∧ s.started.seq ≠ .idle := by
    unfold State.started
    split
    · exact ⟨rfl, rfl, rfl, rfl, by simp, by simp⟩
    · exact ⟨rfl, rfl, rfl, rfl, hf, ‹_›⟩
  obtain ⟨h1, h2, h3, h4, h5, h6⟩ := hst
  have hg : GoodEnv s.started := by
    refine ⟨by rw [h1, h3]; exact hc, ?_, ?_⟩
    · unfold State.inputAnswers at *; rwa [h1]
    · unfold State.sinkAnswers at *; rwa [h2]
  have hb : s.started.stepsLeft ≤ runBound s := by
    have := stepsLeft_le h.started.driver.1
    rw [h1] at this
    unfold runBound
    omega
  obtain ⟨t, hx, ht, hd⟩ := h.started.completes (runBound s) hg ⟨h4.trans hw, h5, h6⟩ hb
  obtain ⟨f1, f2, -⟩ := flagsAgree_iff.mp ht.flags
  exact ⟨t, hx, ht, hd, by rw [f1, hd]; rfl, by rw [f2, hd]; rfl⟩

end Sys2Proof.Machine
end

section
/-! PROOF. DeleteNode and AddNode in a tree, and the advance made of them: the shape and the search order they leave (R47, R154, R155,
R182, R185, R207), and the frame of the tree operations (R38, R39, R246). -/

namespace Sys2Proof.Machine

variable {s t u : State}

/-- The tree of a state is a search tree over its window (R47). -/
def SearchOrdered (s : State) : Prop := Ordered s.nodeAt s.window

/-- The order looks at the two memories only. -/
theorem SearchOrdered.congr (h : SearchOrdered s) (hn : t.node = s.node) (hw : t.window = s.window) : SearchOrdered t := by
  unfold SearchOrdered State.nodeAt at *
  rwa [hn, hw]

/-! ## DeleteNode -/

/-- What DeleteNode leaves of a tree: a tree in the same order, without the slot (R154, R155). -/
structure DeletedFrom (s u : State) (n : Pos) : Prop where
  frame : TreeOnly s u
  shape : TreeShape u.nodeAt
  live  : ∀ m, liveIn u.nodeAt m ↔ liveIn s.nodeAt m ∧ m ≠ posToNode n
  order : SearchOrdered s → SearchOrdered u

theorem TreeOnly.window (h : TreeOnly s t) : t.window = s.window := by
  rw [h.frame]

/-- A position's slot is live, or DeleteNode's guard turns it away (decision D4). -/
theorem live_or_dead (f : NodeIx → NodeRec) (p : Pos) : liveIn f (posToNode p) ∨ p = 0 ∨ (f (posToNode p)).parent = 0 := by
  by_cases h0 : p = 0
  · exact .inr (.inl h0)
  by_cases hp : (f (posToNode p)).parent = 0
  · exact .inr (.inr hp)
  · exact .inl ⟨fun e => h0 (posToNode_eq_zero.mp e), posToNode_ne_root p, hp⟩

/-- In a tree DeleteNode returns, for every position (R154). -/
theorem deleteNode_in_tree (h : TreeShape s.nodeAt) (n : Pos) : ∃ u, deleteNode n s = .ret () u ∧ DeletedFrom s u n := by
  rcases live_or_dead s.nodeAt n with hl | hd
  · obtain ⟨u, r, hx, hfr, hnode, hr, hshape, hlive, hwf⟩ := deleteNode_ret h hl
    have ht : TreeOnly s u := ⟨⟨_, _, _, _, hfr⟩, hwf⟩
    refine ⟨u, hx, ht, hshape, hlive, fun hO => ?_⟩
    unfold SearchOrdered
    rw [ht.window, show u.nodeAt = _ from funext hnode]
    exact Ordered.delete hO h hl hr
  · refine ⟨s, deleteNode_dead hd, .refl s, h, fun m => ⟨fun hm => ⟨hm, ?_⟩, And.left⟩, id⟩
    rintro rfl
    rcases hd with rfl | hd
    · exact hm.ne_zero rfl
    · exact hm.2.2 hd

/-- The fill slot is the one position that leaves the 1007 behind `winPos` when it moves on (R49, R76). -/
theorem DeletedFrom.liveWithin {q : Pos} (h : DeletedFrom s u (q + 17)) (hw : liveWithin s.nodeAt q 1007) :
    liveWithin u.nodeAt q 1006 := by
  intro p hp
  obtain ⟨hl, hne⟩ := (h.live _).mp hp
  have hk := hw p hl
  have hpq : p ≠ q + 17 := fun e => hne (by rw [e])
  bv_omega

/-- Settles O29: `deleteNode_in_tree`; a slot that is not live holds the zero record. -/
theorem deleteNodeRemovesExactlyItsSlot : Obligations.DeleteNodeRemovesExactlyItsSlot := by
  intro s n h hl
  obtain ⟨u, hx, hu⟩ := deleteNode_in_tree h n
  refine ⟨u, by simp only [exec, execDeleteNode, hx, Res.ret_outcome], hu.frame.frame, hu.shape, ?_, hu.live⟩
  refine hu.shape.dead _ hl.ne_zero hl.ne_root ?_
  by_contra hp
  exact ((hu.live _).mp ⟨hl.ne_zero, hl.ne_root, hp⟩).2 rfl

/-- Settles O30: `deleteNode_in_tree`, whose order comes from splicing and replacing (`Ordered.delete`). -/
theorem deleteNodeKeepsTheOrder : Obligations.DeleteNodeKeepsTheOrder := by
  intro s t n h hO hx
  obtain ⟨u, hu, hd⟩ := deleteNode_in_tree h n
  simp only [exec, execDeleteNode, hu, Res.ret_outcome, Host.Outcome.next.injEq] at hx
  exact hx ▸ hd.order hO

/-! ## AddNode -/

/-- What AddNode does before its search: the guard, the two checks, or the search begins (R182). -/
theorem addNode_cases (new : Pos) (s : State) :
    (new = 0 ∧ addNode new s = .ret (0, s.matchPos) s) ∨
    (∃ n, addNode new s = .stop (State.enterFault { s with testNode := n } .invariantViolation)) ∨
    (new ≠ 0 ∧ (s.nodeAt (posToNode new)).parent = 0 ∧ (s.nodeAt 1024).largeChild ≠ 0) := by
  by_cases h0 : new = 0
  · exact .inl ⟨h0, by rw [addNode, if_pos h0]⟩
  by_cases hp : (s.nodeAt (posToNode new)).parent = Config.unused
  · by_cases hr : (s.nodeAt Config.treeRoot).largeChild = Config.unused
    · exact .inr (.inl ⟨_, by rw [addNode, if_neg h0, if_neg (not_not.mpr hp)]; simp only [if_pos hr]; rfl⟩)
    · exact .inr (.inr ⟨h0, hp, hr⟩)
  · exact .inr (.inl ⟨s.testNode, by rw [addNode, if_neg h0, if_pos hp]; rfl⟩)

/-- In a search tree AddNode leaves a search tree, whether it links the slot, returns at its guard or raises (R185). -/
theorem addNode_keeps_order (h : TreeShape s.nodeAt) (hO : SearchOrdered s) (new : Pos) :
    (addNode new s).Sat (fun _ => SearchOrdered) SearchOrdered := by
  rcases addNode_cases new s with ⟨-, hx⟩ | ⟨n, hx⟩ | ⟨h0, hd, hroot⟩
  · rw [hx]; exact hO
  · rw [hx]; exact hO.congr rfl rfl
  · obtain ⟨t, path, e, hv, -, he, hel, hx, hfr, hnode, -⟩ := addNode_ret h hroot h0 hd
    have htop := (h.large 1024 (.inl rfl) hroot).1
    have hside := hv.sided h htop (sided_top h new hroot) e (List.mem_of_getLast? he)
    have hw : t.window = s.window := by rw [hfr]
    rw [hx]
    show Ordered t.nodeAt t.window
    rw [hw, show t.nodeAt = _ from funext hnode]
    exact Ordered.add hO h hel hside h0 hd

/-- Settles O37: `addNode_keeps_order`; the result is no part of the tree. -/
theorem addNodeKeepsTheOrder : Obligations.AddNodeKeepsTheOrder := by
  intro s t new h hO hx
  refine Res.Sat.next (addNode_keeps_order h hO new) ?_ hx
  exact fun _ _ hu => hu.congr rfl rfl

/-! ## Advance -/

/-- A read leaves the two memories alone, however it ends. -/
theorem ReadStops.searchOrdered (h : ReadStops s t) (hO : SearchOrdered s) : SearchOrdered t := by
  rcases h with ⟨-, rfl⟩ | ⟨-, rfl⟩
  · exact hO.congr rfl rfl
  · exact hO.congr rfl rfl

/-- The write of step 3b touches no key of a slot in the window that step 3a leaves, so the order stays (R76, R280). -/
theorem takeInput_keeps_order {r : Answer} (h : TreeShape s.nodeAt) (hO : SearchOrdered s) (hw : liveWithin s.nodeAt s.winPos 1006) :
    SearchOrdered (s.takeInput r) := by
  cases r with
  | byte b =>
    refine Ordered.congr h hO fun n hn => keyOf_fillSlot b (hw _ ?_)
    rw [posToNode_nodeToPos hn.ne_root]
    exact hn
  | eoi => exact hO.congr rfl rfl
  | err => exact hO.congr rfl rfl

theorem takeInput_nodeAt (s : State) (r : Answer) : (s.takeInput r).nodeAt = s.nodeAt := by
  cases r <;> rfl

theorem addAtWinPos_keeps_order (h : TreeShape s.nodeAt) (hO : SearchOrdered s) :
    (addAtWinPos s).Sat (fun _ => SearchOrdered) SearchOrdered := by
  unfold addAtWinPos
  split
  · exact hO
  · exact (addNode_keeps_order h hO s.winPos).andThen fun _ _ hu => hu.congr rfl rfl

/-- An advance from a search tree in the window leaves a search tree, also where its read or its AddNode stops it (R76, R207, R280). -/
theorem advance_keeps_order (h : TreeShape s.nodeAt) (hO : SearchOrdered s) (hw : liveWithin s.nodeAt s.winPos 1007) :
    (advance s).Sat (fun _ => SearchOrdered) SearchOrdered := by
  obtain ⟨u, hx, hu⟩ := deleteNode_in_tree h (fillSlot s.winPos)
  have hOu := hu.order hO
  have hwin : liveWithin u.nodeAt u.winPos 1006 := by
    rw [show u.winPos = s.winPos by rw [hu.frame.frame]]
    exact hu.liveWithin hw
  rw [advance, hx, Res.ret_andThen]
  refine Res.Sat.andThen ((readByte_ends u).mono (fun _ _ hr => hr) fun _ hr => hr.searchOrdered hOu) ?_
  rintro r _ ⟨-, rfl⟩
  have hOr : SearchOrdered ((u.afterRead r).takeInput r) := takeInput_keeps_order hu.shape (hOu.congr rfl rfl) hwin
  have hshape : TreeShape ((u.afterRead r).takeInput r).nodeAt := by rw [takeInput_nodeAt]; exact hu.shape
  exact Res.Sat.andThen (addAtWinPos_keeps_order hshape (hOr.congr rfl rfl)) fun _ _ hv => hv.congr rfl rfl

/-- Settles O44: the delete, the write and the AddNode of an advance each keep the order (`advance_keeps_order`). -/
theorem advanceKeepsTheOrder : Obligations.AdvanceKeepsTheOrder := by
  intro s t h hO hw hx
  exact (advance_keeps_order h hO hw).same hx

/-- Settles O43: `advance_ret`; the fill slot lies 1008 behind the new `winPos`, outside the window of the live slots. -/
theorem advanceMovesTheWindow : Obligations.AdvanceMovesTheWindow := by
  intro s r h hw ha hi hr
  obtain ⟨m, win, x, y, z, d, e, f, g, k, ml, mp, hx, rfl, h0, h1, -, hshape, hwithin, hanchor, -, -, -⟩ := advance_ret s r h hw ha hi hr
  refine ⟨_, congrArg (Res.outcome · fun _ u => u) hx, rfl, fun a => ?_, h0, h1, hshape, hwithin, fun hl => ?_, hanchor⟩
  · cases r with
    | byte b => exact Memory.read_write s.window (s.winPos + 17) a b
    | eoi => rfl
    | err => rfl
  · have hfar := hwithin _ hl
    bv_omega

/-! ## Frames -/

/-- How an instruction that is one tree operation ends: after what the operation wrote come the result, if it has one, or the fault of
a check (R246). -/
def Concludes (u t : State) : Prop := (∃ r, t = { u with result := r }) ∨ t = u.enterFault .invariantViolation

/-- An operation with the frame `P`, as an instruction of its own. -/
theorem Res.Sat.concludes {α : Type} {x : Res α} {k : α → State → State} {P : State → Prop}
    (h : x.Sat (fun _ => P) (fun t => ∃ u, P u ∧ t = u.enterFault .invariantViolation))
    (hk : ∀ a u, ∃ r, k a u = { u with result := r }) (hx : x.outcome k = .next t) : ∃ u, P u ∧ Concludes u t := by
  rcases Res.outcome_eq_next.mp hx with ⟨a, u, rfl, rfl⟩ | rfl
  · exact ⟨u, h, .inl (hk a u)⟩
  · obtain ⟨u, hu, e⟩ := h
    exact ⟨u, hu, .inr e⟩

/-- The frame of an operation that may write `Node`, the scratch registers and the result, or raise (R38, R39, R246). -/
theorem AddOnly.concludes (h : AddOnly s u) (ht : Concludes u t) :
    t = { s with node := t.node, par := t.par, nxt := t.nxt, repl := t.repl, testNode := t.testNode, i := t.i,
                 delta := t.delta, bestLen := t.bestLen, bestPos := t.bestPos, result := t.result,
                 cause := t.cause, fault := t.fault, seq := t.seq } ∧
    ((t.cause = s.cause ∧ t.fault = s.fault ∧ t.seq = s.seq) ∨
      (t.cause = .invariantViolation ∧ t.fault = true ∧ t.seq = .fault)) := by
  obtain ⟨⟨_, _, _, _, _, _, _, _, _, rfl⟩, -⟩ := h
  rcases ht with ⟨r, rfl⟩ | rfl
  · exact ⟨rfl, .inl ⟨rfl, rfl, rfl⟩⟩
  · exact ⟨rfl, .inr ⟨rfl, rfl, rfl⟩⟩

/-- The tree operations proper leave the registers of the search alone (R38). -/
theorem TreeOnly.concludes (h : TreeOnly s u) (ht : Concludes u t) :
    t.testNode = s.testNode ∧ t.i = s.i ∧ t.delta = s.delta ∧ t.bestLen = s.bestLen ∧ t.bestPos = s.bestPos := by
  obtain ⟨⟨_, _, _, _, rfl⟩, -⟩ := h
  rcases ht with ⟨r, rfl⟩ | rfl <;> exact ⟨rfl, rfl, rfl, rfl, rfl⟩

/-- Settles O31: the ends of the six operations (`TreeEnds`, `AddEnds`) have one frame, and those of the five the narrower one. -/
theorem treeOperationsTouchOnlyTheTree : Obligations.TreeOperationsTouchOnlyTheTree := by
  intro s t i hi hx
  have same : ∀ (_ : Unit) (u : State), ∃ r, u = { u with result := r } := fun _ u => ⟨u.result, rfl⟩
  have widen : (∃ u, TreeOnly s u ∧ Concludes u t) →
      ∃ u, AddOnly s u ∧ Concludes u t ∧ ((∀ p, i ≠ .addNode p) → TreeOnly s u) :=
    fun ⟨u, hu, ht⟩ => ⟨u, hu.addOnly, ht, fun _ => hu⟩
  have ends : ∃ u, AddOnly s u ∧ Concludes u t ∧ ((∀ p, i ≠ .addNode p) → TreeOnly s u) := by
    rcases hi with ⟨p, rfl⟩ | ⟨o, n, rfl⟩ | ⟨o, n, rfl⟩ | ⟨n, rfl⟩ | ⟨p, rfl⟩ | ⟨p, rfl⟩
    · exact widen ((initTree_ends p s).concludes same hx)
    · exact widen ((contractNode_ends o n s).concludes same hx)
    · exact widen ((replaceNode_ends o n s).concludes same hx)
    · exact widen ((findNextNode_ends n s).concludes (fun r _ => ⟨.node r, rfl⟩) hx)
    · exact widen ((deleteNode_ends p s).concludes same hx)
    · obtain ⟨u, hu, ht⟩ := (addNode_ends p s).concludes (fun r _ => ⟨.best r.1 r.2, rfl⟩) hx
      exact ⟨u, hu, ht, fun h => absurd rfl (h p)⟩
  obtain ⟨u, hadd, ht, htree⟩ := ends
  exact ⟨(hadd.concludes ht).1, (hadd.concludes ht).2, fun h => (htree h).concludes ht⟩

end Sys2Proof.Machine
end

section
/-! PROOF. Every step of a run of the hardware: it keeps the invariant of runs and the search order, which hold at reset (R47, R138, R270,
R285). -/

namespace Sys2Proof.Machine

variable {s t u : State}

/-! ## Requests of the host (R134, R137, R138) -/

/-- A run of the hardware is asked for Start and Reset only. -/
theorem hostDriven_decode {i : Instr} (h : s.hostDriven = true) (hd : decode s.raised = .ok i) : i = .start ∨ i = .reset := by
  unfold State.raised at hd
  cases hr : s.reqs with
  | nil => rw [hr] at hd; cases hd
  | cons r l =>
    have hf : r.fromHost = true := by
      rw [State.hostDriven, hr, List.all_cons, Bool.and_eq_true] at h
      exact h.1
    rw [hr, List.headD_cons] at hd
    cases r with
    | quiet => cases hd
    | record bits => simpa [Request.fromHost, hd] using hf
    | operation bytes => simpa [Request.fromHost, hd] using hf

theorem hostDriven_tail (h : s.hostDriven = true) : State.hostDriven { s with reqs := s.reqs.tail } = true := by
  unfold State.hostDriven at *
  rw [List.all_eq_true] at *
  exact fun r hr => h r (List.mem_of_mem_tail hr)

/-- The queue of requests is no part of the block. -/
theorem RunInv.dropRequest (h : RunInv s) : RunInv s.dropRequest where
  host := hostDriven_tail h.host
  memories := h.memories
  flags := h.flags
  trace := h.trace
  packing := h.packing
  driver := h.driver
  tree := h.tree
  window := h.window
  stream := h.stream
  noViolation := h.noViolation

/-! ## Reset -/

theorem not_liveIn_zero (n : NodeIx) : ¬ liveIn (fun _ => NodeRec.zero) n := fun h => h.2.2 rfl

/-- The empty `Node` has the shape of a tree (R44, R47). -/
theorem treeShape_empty : TreeShape fun _ => NodeRec.zero where
  root := ⟨rfl, rfl⟩
  scratch := ⟨rfl, rfl⟩
  dead := fun _ _ _ _ => rfl
  up := fun n hn => absurd hn (not_liveIn_zero n)
  small := fun _ _ h => absurd rfl h
  large := fun _ _ h => absurd rfl h
  apart := fun _ _ _ => rfl
  rank := ⟨fun _ => 0, fun n hn => absurd hn (not_liveIn_zero n)⟩

/-- An empty `Node` is a search tree: no slot is live. -/
theorem searchOrdered_empty (h : s.node = []) : SearchOrdered s := by
  intro n hn
  have hz : s.nodeAt n = NodeRec.zero := by rw [State.nodeAt, h]; rfl
  exact absurd (congrArg NodeRec.parent hz) hn.2.2

/-- Reset begins a run in the invariant of runs, from any state the host drives (R138, R270). -/
theorem runInv_resetBlock (h : s.hostDriven = true) : RunInv s.resetBlock where
  host := h
  memories := rfl
  flags := rfl
  trace := rfl
  packing := ⟨fun _ => rfl, fun e => (by cases e),
    (by decide : (msbBits 8 (0 : Byte).toNat).drop 0 = List.replicate 8 false)⟩
  driver := ⟨Nat.zero_le 17, Nat.zero_le 17, fun e => absurd rfl e, rfl, rfl, rfl, rfl, rfl⟩
  tree := ⟨treeShape_empty, rfl⟩
  window := ⟨Nat.le_refl 0, fun d hd => absurd hd BitVec.not_lt_zero⟩
  stream := fun _ => ⟨[], rfl, rfl, rfl⟩
  noViolation := fun e => (by cases e)

/-- Settles O57: the reset state is what Reset leaves of itself. -/
theorem runInvAtReset : Obligations.RunInvAtReset :=
  ⟨runInv_resetBlock (s := State.reset) rfl, searchOrdered_empty (s := State.reset) rfl⟩

/-! ## The invariant of runs -/

theorem sequencerStep_idle (hs : s.stopped = false) (hq : s.seq = .idle) : sequencerStep s = .next s := by
  rw [sequencerStep_running hs, sequencerOp, hq]
  rfl

/-- The sequencer's own step keeps the invariant of runs. -/
theorem RunInv.sequencerStep (h : RunInv s) (hx : sequencerStep s = .next t) : RunInv t := by
  have of_next : ∀ {u}, Machine.sequencerStep s = .next u → RunInv u → RunInv t := fun hu hi =>
    Host.Outcome.next.inj (hu.symm.trans hx) ▸ hi
  cases hs : s.stopped with
  | true => exact of_next (sequencerStep_stopped hs) h
  | false =>
    by_cases hi : s.seq = .idle
    · exact of_next (sequencerStep_idle hs hi) h
    · cases h.runStep hs hi with
      | goes u hu => exact of_next hu.step hu.inv
      | halts u hu => exact of_next hu.step hu.inv
      | late b hr => rw [hr] at hx; cases hx

/-- What a step of a run is: the sequencer's own step, Start, Reset, or only a request taken off the queue. -/
theorem RunInv.step_cases (h : RunInv s) (hx : step s = .next t) :
    Machine.sequencerStep s.dropRequest = .next t ∨ t = s.dropRequest.started ∨ t = s.dropRequest.resetBlock ∨ t = s.dropRequest := by
  rcases step_ends hx with ⟨-, hq⟩ | ⟨i, hi, -, he⟩ | ⟨-, e⟩ | ⟨i, -, -, -, e⟩
  · exact .inl hq
  · rcases hostDriven_decode h.host hi with rfl | rfl
    · exact .inr (.inl (Host.Outcome.next.inj he).symm)
    · exact .inr (.inr (.inl (Host.Outcome.next.inj he).symm))
  · exact .inr (.inr (.inl e))
  · exact .inr (.inr (.inr e))

/-- Settles O58: the sequencer's steps by `RunInv.runStep`, Start and Reset by what they leave. -/
theorem runInvIsKept : Obligations.RunInvIsKept := by
  intro s t h hx
  rcases h.step_cases hx with hq | rfl | rfl | rfl
  · exact h.dropRequest.sequencerStep hq
  · exact h.dropRequest.started
  · exact runInv_resetBlock h.dropRequest.host
  · exact h.dropRequest

/-! ## The search order -/

/-- A tree of one slot is a search tree: it has no children. -/
theorem ordered_singleton {r : NodeIx} {w : Memory} (hr : r ≠ 0) (hr' : r ≠ 1024) : Ordered (singleton r) w := by
  intro n hn
  rw [(singleton_live hr hr').mp hn, singleton, if_pos rfl]
  exact ⟨fun h => absurd rfl h, fun h => absurd rfl h⟩

/-- A turn of the prefill leaves `Node` alone (R201). -/
theorem PrefillEnds.node (h : PrefillEnds s t) : t.node = s.node := by
  rcases h with rfl | ⟨-, rfl⟩ | ⟨b, -, rfl⟩ | ⟨-, rfl⟩ | ⟨-, rfl⟩ <;> rfl

theorem Emitted.searchOrdered {bits : List Bool} (h : Emitted s u bits) (hO : SearchOrdered s) : SearchOrdered u := by
  obtain ⟨ob, ac, cn, rfl⟩ := h.fields
  exact hO.congr rfl rfl

theorem EmitStops.searchOrdered (h : EmitStops s t) (hO : SearchOrdered s) : SearchOrdered t := by
  obtain ⟨u, own, b, hu, ⟨-, rfl⟩ | ⟨-, rfl⟩⟩ := h <;> exact (hu.searchOrdered hO).congr rfl rfl

theorem EmitStepEnds.searchOrdered (h : EmitStepEnds s t) (hO : SearchOrdered s) : SearchOrdered t := by
  have hcl : SearchOrdered s.clamp := by
    obtain ⟨m, e⟩ := clamp_frame s
    rw [e]
    exact hO.congr rfl rfl
  rcases h with ⟨-, rfl⟩ | ⟨u, bits, c, -, hu, rfl⟩ | rfl | hst
  · exact hO.congr rfl rfl
  · exact (hu.searchOrdered hcl).congr rfl rfl
  · exact hcl.congr rfl rfl
  · exact hst.searchOrdered hcl

theorem EosEnds.searchOrdered (h : EosEnds s t) (hO : SearchOrdered s) : SearchOrdered t := by
  rcases h with ⟨u, hu, rfl⟩ | hst
  · obtain ⟨ob, ac, cn, e⟩ := enterDone_frame u
    rw [e]
    exact (hu.searchOrdered hO).congr rfl rfl
  · exact hst.searchOrdered hO

/-- The step in `S_INIT` leaves a tree of one slot (R150, R202). -/
theorem RunInv.initStep_order (h : RunInv s) (hs : s.stopped = false) (hq : s.seq = .init) (hx : Machine.sequencerStep s = .next t) :
    SearchOrdered t := by
  have hd := h.driver.2.2.2
  have hn := h.tree.2
  rw [hq] at hd hn
  have h0 : s.winPos ≠ 0 := by rw [hd.1]; decide
  obtain ⟨m, hi, hm⟩ := initTree_empty h0 hn
  rw [sequencerStep_running hs, sequencerOp, hq] at hx
  simp only [Machine.initStep, hi, Res.ret_andThen, Res.ret_outcome, Host.Outcome.next.injEq] at hx
  subst hx
  show Ordered (NodeMemory.read m) s.window
  rw [hm]
  exact ordered_singleton (mt posToNode_eq_zero.mp h0) (posToNode_ne_root s.winPos)

/-- The sequencer's own step keeps the search order: `Node` is empty until `S_INIT`, and after it only an advance writes one of the two
memories (R47, R76, R202, R207). -/
theorem RunInv.sequencerStep_order (h : RunInv s) (hO : SearchOrdered s) (hx : Machine.sequencerStep s = .next t) : SearchOrdered t := by
  cases hs : s.stopped with
  | true => exact Host.Outcome.next.inj ((sequencerStep_stopped hs).symm.trans hx) ▸ hO
  | false =>
    rcases sequencerStep_ends hs hx with ⟨-, rfl⟩ | ⟨hq, hp⟩ | ⟨hq, -⟩ | ⟨-, he⟩ | ⟨hq, -⟩ | ⟨-, he⟩
    · exact hO
    · exact searchOrdered_empty (hp.node.trans (h.in_fill hs hq).2.2.2.1)
    · exact h.initStep_order hs hq hx
    · exact he.searchOrdered hO
    · obtain ⟨-, -, hwithin, -, -⟩ := h.in_adv hs hq
      rw [sequencerStep_adv hs hq] at hx
      exact (advance_keeps_order h.tree.1 hO hwithin).same hx
    · exact he.searchOrdered hO

/-- Settles O60: the sequencer's steps by `RunInv.sequencerStep_order`; Start and a dropped request leave the memories, Reset empties
`Node`. -/
theorem runsKeepTheOrder : Obligations.RunsKeepTheOrder := by
  intro s t h hO hx
  have hd : SearchOrdered s.dropRequest := SearchOrdered.congr hO rfl rfl
  rcases h.step_cases hx with hq | rfl | rfl | rfl
  · exact h.dropRequest.sequencerStep_order hd hq
  · unfold State.started
    split
    · exact hd.congr rfl rfl
    · exact hd
  · exact searchOrdered_empty rfl
  · exact hd

end Sys2Proof.Machine
end

section
/-! PROOF. Who writes what: the status word (R40 to R42, R241), the table of the sequencer (R200), and the writers of each part of the
state (R31 to R37, R43, R44, R51). -/

namespace Sys2Proof.Machine

variable {s t u : State}

/-! ## The status word -/

/-- The fields of five words put one after the other, the last one lowest. -/
theorem statusFields (c : BitVec 2) (f d e : Bool) (q : BitVec 3) :
    let w := c ++ BitVec.ofBool f ++ BitVec.ofBool d ++ BitVec.ofBool e ++ q
    w.extractLsb' 0 3 = q ∧ w.getLsbD 3 = e ∧ w.getLsbD 4 = d ∧ w.getLsbD 5 = f ∧ w.extractLsb' 6 2 = c := by
  refine ⟨BitVec.eq_of_getLsbD_eq fun i hi => ?_, ?_, ?_, ?_, BitVec.eq_of_getLsbD_eq fun i hi => ?_⟩ <;>
    simp only [BitVec.getLsbD_extractLsb', BitVec.getLsbD_append]
  · simp [hi]
  · simp
  · simp
  · simp
  · obtain rfl | rfl : i = 0 ∨ i = 1 := by omega
    · simp
    · simp

/-- Settles O11: the places by `statusFields`, the numbers by evaluation. -/
theorem statusWordLayout : Obligations.StatusWordLayout :=
  ⟨fun s => statusFields s.cause.code s.fault s.done s.eos s.seq.code, rfl, rfl⟩

/-! ## The table of the sequencer (R200) -/

/-- A read that stops a step leaves it waiting or faulted. -/
theorem ReadStops.stops (h : ReadStops s t) : t.wait ≠ none ∨ t.seq = .fault := by
  rcases h with ⟨-, rfl⟩ | ⟨-, rfl⟩
  · exact .inl (by simp)
  · exact .inr rfl

/-- The flags of R41, `eos` and the cause are those before the step. -/
structure FlagsKept (s t : State) : Prop where
  done  : t.done = s.done
  eos   : t.eos = s.eos
  fault : t.fault = s.fault
  cause : t.cause = s.cause

/-- The row of `S_FILL`, whose step may set `eos` (R201). -/
theorem PrefillEnds.table (h : PrefillEnds s t) (hw : t.wait = none) (hf : t.seq ≠ .fault) :
    (t.seq = .fill ∨ t.seq = .init) ∧ t.done = s.done ∧ t.fault = s.fault ∧ t.cause = s.cause := by
  rcases h with rfl | ⟨-, rfl⟩ | ⟨b, -, rfl⟩ | hr
  · exact ⟨.inr rfl, rfl, rfl, rfl⟩
  · exact ⟨.inl rfl, rfl, rfl, rfl⟩
  · exact ⟨.inl rfl, rfl, rfl, rfl⟩
  · exact absurd hr.stops (by simp [hw, hf])

/-- The row of `S_EMIT` (R203). -/
theorem EmitStepEnds.table (h : EmitStepEnds s t) (hw : t.wait = none) (hf : t.seq ≠ .fault) :
    (t.seq = .adv ∨ t.seq = .eos) ∧ FlagsKept s t := by
  obtain ⟨m, e⟩ := clamp_frame s
  rw [EmitStepEnds, e] at h
  rcases h with ⟨-, rfl⟩ | ⟨u, bits, c, -, hu, rfl⟩ | rfl | hst
  · exact ⟨.inr rfl, rfl, rfl, rfl, rfl⟩
  · obtain ⟨_, _, _, rfl⟩ := hu.fields
    exact ⟨.inl rfl, rfl, rfl, rfl, rfl⟩
  · exact absurd rfl hf
  · obtain ⟨-, -, -, hstop⟩ := hst.events
    exact absurd hstop (by simp [hw, hf])

theorem countAdvance_seq (s : State) : s.countAdvance.seq = .adv ∨ s.countAdvance.seq = .emit :=
  (ite_eq_or_eq _ _ _).symm

/-- The row of `S_ADV` (R207, R208). -/
theorem AdvanceEnds.table (h : AdvanceEnds s t) (hw : t.wait = none) (hf : t.seq ≠ .fault) :
    (t.seq = .adv ∨ t.seq = .emit) ∧ FlagsKept s t := by
  rcases h with ⟨r, u, -, ⟨⟨_, _, _, _, _, _, _, _, _, _, _, _, rfl⟩, -⟩, rfl⟩ | ⟨u, -, rfl | hr⟩ | ⟨r, u, -, -, rfl⟩
  · exact ⟨countAdvance_seq _, rfl, rfl, rfl, rfl⟩
  · exact absurd rfl hf
  · exact absurd hr.stops (by simp [hw, hf])
  · exact absurd rfl hf

/-- The row of `S_EOS`, whose step sets `done` (R209, R212). -/
theorem EosEnds.table (h : EosEnds s t) (hw : t.wait = none) (hf : t.seq ≠ .fault) :
    (t.seq = .done ∧ t.done = true) ∧ t.eos = s.eos ∧ t.fault = s.fault ∧ t.cause = s.cause := by
  rcases h with ⟨u, hu, rfl⟩ | hst
  · obtain ⟨_, _, _, rfl⟩ := hu.fields
    obtain ⟨_, _, _, e⟩ := enterDone_frame _
    rw [e]
    exact ⟨⟨rfl, rfl⟩, rfl, rfl, rfl⟩
  · obtain ⟨-, -, -, hstop⟩ := hst.events
    exact absurd hstop (by simp [hw, hf])

/-- Settles O45, row by row; the rows of `S_IDLE` and `S_INIT` are what `sequencerStep_ends` says. -/
theorem sequencerTable : Obligations.SequencerTable := by
  intro s t hs hx hw hf
  rcases sequencerStep_ends hs hx with ⟨hq, rfl⟩ | ⟨hq, hp⟩ | ⟨hq, m, -, rfl⟩ | ⟨hq, he⟩ | ⟨hq, ha⟩ | ⟨hq, he⟩ <;>
    simp only [hq, reduceCtorEq, false_implies, true_implies, not_true_eq_false, not_false_eq_true, true_and, ne_eq]
  · exact hp.table hw hf
  · obtain ⟨hseq, hk⟩ := he.table hw hf
    exact ⟨hseq, hk.done, hk.eos, hk.fault, hk.cause⟩
  · obtain ⟨hseq, hk⟩ := ha.table hw hf
    exact ⟨hseq, hk.done, hk.eos, hk.fault, hk.cause⟩
  · exact he.table hw hf

/-! ## The writers of the state -/

/-- What O47 says of one instruction. -/
def WritesItsOwn (i : Instr) (s t : State) : Prop :=
  (i ≠ .prefill → i ≠ .advance → t.window = s.window ∧ t.aheadBytes = s.aheadBytes ∧
    (i ≠ .readByte → t.nReads = s.nReads ∧ t.inPort = s.inPort ∧ t.inEnded = s.inEnded)) ∧
  (i ≠ .advance → t.winPos = s.winPos ∧ t.matchLen = s.matchLen ∧ t.matchPos = s.matchPos ∧ t.advCnt = s.advCnt ∧
    ((∀ p, i ≠ .initTree p) → (∀ o n, i ≠ .contractNode o n) → (∀ o n, i ≠ .replaceNode o n) →
      (∀ n, i ≠ .deleteNode n) → (∀ n, i ≠ .addNode n) → t.node = s.node)) ∧
  (i ≠ .prefill → t.eos = s.eos) ∧ t.replCnt = s.replCnt ∧ (i ≠ .emitEos → t.done = s.done) ∧
  (s.emission i = none → t.outBits = s.outBits ∧ t.outPort = s.outPort)

/-- Whether an instruction is one of those that link and unlink slots. -/
def ChangesLinks (i : Instr) : Prop :=
  (∃ p, i = .initTree p) ∨ (∃ o n, i = .contractNode o n) ∨ (∃ o n, i = .replaceNode o n) ∨ (∃ n, i = .deleteNode n) ∨
    (∃ n, i = .addNode n)

/-- The driver registers, `Window` and the input port (R31 to R37, R43, R51). -/
def State.driverPart (s : State) :=
  (s.window, s.aheadBytes, s.nReads, s.inPort, s.inEnded, s.winPos, s.matchLen, s.matchPos, s.advCnt, s.eos, s.replCnt)

/-- An instruction that keeps the driver's part of the state writes at most `Node`, `done` and the output. -/
theorem writes_of_driverPart {i : Instr} (h : t.driverPart = s.driverPart) (hn : ChangesLinks i ∨ t.node = s.node)
    (hd : i = .emitEos ∨ t.done = s.done) (ho : s.emission i ≠ none ∨ (t.outBits = s.outBits ∧ t.outPort = s.outPort)) :
    WritesItsOwn i s t := by
  simp only [State.driverPart, Prod.mk.injEq] at h
  obtain ⟨hwin, hahead, hreads, hin, hend, hpos, hlen, hmpos, hadv, heos, hrepl⟩ := h
  refine ⟨fun _ _ => ⟨hwin, hahead, fun _ => ⟨hreads, hin, hend⟩⟩,
    fun _ => ⟨hpos, hlen, hmpos, hadv, fun h1 h2 h3 h4 h5 => hn.resolve_left ?_⟩,
    fun _ => heos, hrepl, fun e => hd.resolve_left e, fun e => ho.resolve_left (not_not.mpr e)⟩
  rintro (⟨p, e⟩ | ⟨o, n, e⟩ | ⟨o, n, e⟩ | ⟨n, e⟩ | ⟨n, e⟩)
  · exact h1 p e
  · exact h2 o n e
  · exact h3 o n e
  · exact h4 n e
  · exact h5 n e

/-- An emission writes the output and the packed view only. -/
theorem Emitted.driverPart {bits : List Bool} (h : Emitted s u bits) : u.driverPart = s.driverPart ∧ u.node = s.node ∧ u.done = s.done := by
  obtain ⟨_, _, _, rfl⟩ := h.fields
  exact ⟨rfl, rfl, rfl⟩

theorem EmitStops.driverPart (h : EmitStops s t) : t.driverPart = s.driverPart ∧ t.node = s.node ∧ t.done = s.done := by
  obtain ⟨u, own, b, hu, hx⟩ := h
  obtain ⟨_, _, _, rfl⟩ := hu.fields
  rcases hx with ⟨-, rfl⟩ | ⟨-, rfl⟩ <;> exact ⟨rfl, rfl, rfl⟩

theorem EosEnds.driverPart (h : EosEnds s t) : t.driverPart = s.driverPart ∧ t.node = s.node := by
  rcases h with ⟨u, hu, rfl⟩ | hst
  · obtain ⟨hk, hn, -⟩ := hu.driverPart
    obtain ⟨_, _, _, e⟩ := enterDone_frame u
    rw [e]
    exact ⟨hk, hn⟩
  · exact ⟨hst.driverPart.1, hst.driverPart.2.1⟩

/-- A read, answered or not, writes the input port only. -/
theorem writes_readByte (h : (∃ r, Returns s r ∧ t = { s.afterRead r with result := .item r }) ∨ ReadStops s t) :
    WritesItsOwn .readByte s t := by
  rcases h with ⟨r, -, rfl⟩ | ⟨-, rfl⟩ | ⟨-, rfl⟩ <;>
    exact ⟨fun _ _ => ⟨rfl, rfl, fun e => absurd rfl e⟩, fun _ => ⟨rfl, rfl, rfl, rfl, fun _ _ _ _ _ => rfl⟩, fun _ => rfl, rfl,
      fun _ => rfl, fun _ => ⟨rfl, rfl⟩⟩

theorem PrefillEnds.writes (h : PrefillEnds s t) : WritesItsOwn .prefill s t := by
  rcases h with rfl | ⟨-, rfl⟩ | ⟨b, -, rfl⟩ | ⟨-, rfl⟩ | ⟨-, rfl⟩ <;>
    exact ⟨fun e => absurd rfl e, fun _ => ⟨rfl, rfl, rfl, rfl, fun _ _ _ _ _ => rfl⟩, fun e => absurd rfl e, rfl,
      fun _ => rfl, fun _ => ⟨rfl, rfl⟩⟩

/-- An advance writes neither `eos`, `replCnt`, `done` nor the output, wherever it ends. -/
theorem AdvanceEnds.writes (h : AdvanceEnds s t) : WritesItsOwn .advance s t := by
  have kept : t.eos = s.eos ∧ t.replCnt = s.replCnt ∧ t.done = s.done ∧ t.outBits = s.outBits ∧ t.outPort = s.outPort := by
    rcases h with ⟨r, u, -, ⟨⟨_, _, _, _, _, _, _, _, _, _, _, _, rfl⟩, -⟩, rfl⟩ |
        ⟨u, ⟨⟨_, _, _, _, rfl⟩, -⟩, rfl | ⟨-, rfl⟩ | ⟨-, rfl⟩⟩ |
        ⟨r, u, -, ⟨⟨_, _, _, _, _, _, _, _, _, _, _, _, rfl⟩, -⟩, rfl⟩ <;>
      exact ⟨rfl, rfl, rfl, rfl, rfl⟩
  obtain ⟨h1, h2, h3, h4⟩ := kept
  exact ⟨fun _ e => absurd rfl e, fun e => absurd rfl e, fun _ => h1, h2, fun _ => h3, fun _ => h4⟩

/-- Settles O47, by the ends of an instruction (`exec_ends`). -/
theorem writersOfTheState : Obligations.WritersOfTheState := by
  intro s t i hx hc hr
  show WritesItsOwn i s t
  cases exec_ends hx hc hr with
  | bits own he hi h =>
    obtain ⟨hk, hn, hd⟩ := h.driverPart
    exact writes_of_driverPart hk (.inr hn) (.inr hd) (.inl (by simp [he]))
  | bitsStop own he h =>
    obtain ⟨hk, hn, hd⟩ := h.driverPart
    exact writes_of_driverPart hk (.inr hn) (.inr hd) (.inl (by simp [he]))
  | emitEos hi h =>
    subst hi
    obtain ⟨hk, hn⟩ := h.driverPart
    exact writes_of_driverPart hk (.inr hn) (.inl rfl) (.inl (by simp [State.emission]))
  | check he hi e =>
    subst e
    exact writes_of_driverPart rfl (.inr rfl) (.inr rfl) (.inr ⟨rfl, rfl⟩)
  | readByte hi h => subst hi; exact writes_readByte h
  | flush hi h =>
    obtain ⟨_, _, _, rfl⟩ := h
    exact writes_of_driverPart rfl (.inr rfl) (.inr rfl) (.inr ⟨rfl, rfl⟩)
  | tree hi h =>
    have hl : ChangesLinks i := by
      rcases hi with h | h | h | h
      · exact .inl h
      · exact .inr (.inl h)
      · exact .inr (.inr (.inl h))
      · exact .inr (.inr (.inr (.inl h)))
    obtain ⟨u, ⟨⟨_, _, _, _, rfl⟩, -⟩, rfl | rfl⟩ := h <;>
      exact writes_of_driverPart rfl (.inl hl) (.inr rfl) (.inr ⟨rfl, rfl⟩)
  | find hi h =>
    obtain ⟨_, rfl⟩ | rfl := h <;>
      exact writes_of_driverPart rfl (.inr rfl) (.inr rfl) (.inr ⟨rfl, rfl⟩)
  | compare hi h =>
    obtain ⟨_, _, rfl⟩ := h
    exact writes_of_driverPart rfl (.inr rfl) (.inr rfl) (.inr ⟨rfl, rfl⟩)
  | add hi h =>
    have hl : ChangesLinks i := .inr (.inr (.inr (.inr hi)))
    obtain ⟨u, ⟨⟨_, _, _, _, _, _, _, _, _, rfl⟩, -⟩, ⟨_, rfl⟩ | rfl⟩ := h <;>
      exact writes_of_driverPart rfl (.inl hl) (.inr rfl) (.inr ⟨rfl, rfl⟩)
  | prefill hi h => subst hi; exact h.writes
  | advance hi h => subst hi; exact h.writes
  | start hi h =>
    obtain rfl | ⟨-, rfl⟩ := h <;>
      exact writes_of_driverPart rfl (.inr rfl) (.inr rfl) (.inr ⟨rfl, rfl⟩)

end Sys2Proof.Machine
end

section
/-! PROOF. What one turn of the prefill does, answer by answer (R201). -/

namespace Sys2Proof.Machine

variable {s : State}

/-- A byte goes into the first free cell of the look-ahead (R72, R201). -/
theorem prefill_byte {b : Byte} (ha : s.aheadBytes < 17) (he : s.eos = false) (hr : Returns s (.byte b)) :
    prefill s = .ret () { (s.afterRead (.byte b)).putByte (windowAt s.winPos s.aheadBytes) b with
      aheadBytes := s.aheadBytes + 1, seq := .fill } := by
  rw [prefill, if_pos ⟨ha, he⟩, readByte_answered s _ hr.1 hr.2, Res.ret_andThen]
  rfl

theorem prefill_eoi (ha : s.aheadBytes < 17) (he : s.eos = false) (hn : s.nextInput = some .eoi) :
    prefill s = .ret () { s.afterRead .eoi with eos := true, seq := .fill } := by
  rw [prefill, if_pos ⟨ha, he⟩, readByte_answered s _ hn (.inl rfl), Res.ret_andThen]
  rfl

/-- The loop of phase A is left when there is no room or nothing more to read (R201). -/
theorem prefill_leaves (h : 17 ≤ s.aheadBytes ∨ s.eos = true) : prefill s = .ret () { s with seq := .init } := by
  have hc : ¬ (s.aheadBytes < BitVec.ofNat 5 Config.lookAhead ∧ s.eos = false) := by
    rintro ⟨ha, he⟩
    rcases h with hfull | hend
    · exact BitVec.not_lt.mpr hfull ha
    · rw [hend] at he; cases he
  rw [prefill, if_neg hc]

/-- Settles O39, answer by answer; the cell a byte goes into is the one `windowAt` names. -/
theorem prefillReadsOnce : Obligations.PrefillReadsOnce := by
  refine ⟨fun s b ha he hn hE => ?_, fun s ha he hn => ?_, fun s h => ?_⟩
  · have hx := prefill_byte ha he ⟨hn, .inr ⟨hE, b, rfl⟩⟩
    exact ⟨_, congrArg (Res.outcome · fun _ u => u) hx, rfl, fun a => State.byteAt_putByte _ _ a b⟩
  · exact congrArg (Res.outcome · fun _ u => u) (prefill_eoi ha he hn)
  · exact congrArg (Res.outcome · fun _ u => u) (prefill_leaves h)

end Sys2Proof.Machine
end

section
/-! PROOF. The encoding (30_encoding.md): records and their bits, operations and their bytes, streams of records (R100 to R113). -/

namespace Sys2Proof

/-! ## Reading fields -/

/-- A field is read, or the bits end before it does. -/
theorem takeBits_cases (k : Nat) (l : List Bool) :
    (l.length < k ∧ takeBits k l = none) ∨ ∃ v r, takeBits k l = some (v, r) := by
  unfold takeBits
  by_cases h : l.length < k
  · exact .inl ⟨h, if_pos h⟩
  · exact .inr ⟨_, _, if_neg h⟩

theorem takeBits_exact {k : Nat} {l : List Bool} (h : l.length = k) : takeBits k l = some (msbValue 0 l, []) := by
  subst h
  simp [takeBits]

/-- A field is read from its own bits: what is put after them is left over. -/
theorem takeBits_extend {k v : Nat} {l r : List Bool} (h : takeBits k l = some (v, r)) (more : List Bool) :
    takeBits k (l ++ more) = some (v, r ++ more) := by
  obtain ⟨hv, rfl⟩ := takeBits_some h
  rw [List.append_assoc, takeBits_append, Nat.mod_eq_of_lt hv]

theorem toNat_ofNat_fit {w n : Nat} (h : n < 2 ^ w) : (BitVec.ofNat w n).toNat = n := by
  rw [BitVec.toNat_ofNat, Nat.mod_eq_of_lt h]

/-- Readers one after the other accept only if each of them does. -/
theorem except_bind_eq_ok {ε α β : Type} {x : Except ε α} {k : α → Except ε β} {b : β} :
    (x >>= k) = .ok b ↔ ∃ a, x = .ok a ∧ k a = .ok b := by
  cases x <;> simp [bind, Except.bind]

theorem except_ok_bind {ε α β : Type} (a : α) (k : α → Except ε β) : (Except.ok a >>= k) = k a := rfl

theorem takeCount_range {t r : List Byte} {k : Nat} (h : takeCount t = .ok (k, r)) : 1 ≤ k ∧ k ≤ 32 := by
  unfold takeCount at h
  split at h
  · cases h
  · split at h
    · cases h; omega
    · cases h

/-- An operand that starts at 1 is never 0. -/
theorem takePos_ne_zero {t r : List Byte} {p : Pos} (h : takePos 1 t = .ok (p, r)) : p ≠ 0 := by
  unfold takePos at h
  split at h
  · cases h
  · split at h
    · rename_i v _ _ hlt
      cases h
      have hlt' : v + 1 < 2 ^ 10 := hlt
      intro e
      have := congrArg BitVec.toNat e
      rw [toNat_ofNat_fit hlt'] at this
      exact absurd this (Nat.succ_ne_zero v)
    · cases h

theorem takePos_zero_fieldBytes (p : Pos) (rest : List Byte) : takePos 0 (fieldBytes 2 p.toNat ++ rest) = .ok (p, rest) :=
  takePos_fieldBytes p (Nat.zero_le _) rest

/-! ## Records -/

theorem decodeRecord_literal {t r : List Bool} {b : Nat} (h : takeBits 8 t = some (b, r)) :
    decodeRecord (true :: t) = .ok (.literal (BitVec.ofNat 8 b), r) := by
  simp only [decodeRecord, h]

theorem decodeRecord_eos {t r : List Bool} (h : takeBits 10 t = some (0, r)) : decodeRecord (false :: t) = .ok (.eos, r) := by
  simp only [decodeRecord, h, if_true]

theorem decodeRecord_match {t r r' : List Bool} {p l : Nat} (hp : takeBits 10 t = some (p, r)) (h0 : p ≠ 0)
    (hl : takeBits 4 r = some (l, r')) :
    decodeRecord (false :: t) = .ok (.matchRecord (BitVec.ofNat 10 p) (BitVec.ofNat 4 l), r') := by
  simp only [decodeRecord, hp, h0, hl, if_false]

/-- Settles O2, record by record: each field is read back from its own bits. -/
theorem recordsDecodeBeforeAnyTail : Obligations.RecordsDecodeBeforeAnyTail := by
  intro i bits rest hw hb
  cases i <;> simp only [Instr.recordBits, Option.some.injEq, reduceCtorEq] at hb <;> subst hb
  case literal b =>
    have h := takeBits_append 8 b.toNat rest
    rw [Nat.mod_eq_of_lt b.isLt] at h
    rw [literalBits, List.cons_append, decodeRecord_literal h, BitVec.ofNat_toNat, BitVec.setWidth_eq]
  case matchRecord p l =>
    have hp := takeBits_append 10 p.toNat (msbBits 4 l.toNat ++ rest)
    have hl := takeBits_append 4 l.toNat rest
    rw [Nat.mod_eq_of_lt p.isLt] at hp
    rw [Nat.mod_eq_of_lt l.isLt] at hl
    have h0 : p.toNat ≠ 0 := fun e => (of_decide_eq_true hw) (BitVec.eq_of_toNat_eq e)
    simpa [matchBits] using decodeRecord_match hp h0 hl
  case eos => exact decodeRecord_eos (takeBits_append 10 0 rest)

/-- What is accepted is the bits of a well-formed record, or the reading stops for want of bits and some further bits end it. -/
def ReadsOrEndsEarly (bits : List Bool) : Prop :=
  (∃ i own rest, decodeRecord bits = .ok (i, rest) ∧ i.wf = true ∧ i.recordBits = some own ∧ bits = own ++ rest) ∨
  (decodeRecord bits = .error .truncatedRecord ∧ ∃ more i, more ≠ [] ∧ decodeRecord (bits ++ more) = .ok (i, []))

theorem readsOrEndsEarly_literal (t : List Bool) : ReadsOrEndsEarly (true :: t) := by
  rcases takeBits_cases 8 t with ⟨hlt, h⟩ | ⟨b, r, h⟩
  · refine .inr ⟨by simp only [decodeRecord, h], List.replicate (8 - t.length) false, _, by simp; omega,
      decodeRecord_literal (takeBits_exact (by simp; omega))⟩
  · obtain ⟨hb, rfl⟩ := takeBits_some h
    exact .inl ⟨_, _, r, decodeRecord_literal h, rfl, rfl, by rw [literalBits, toNat_ofNat_fit hb]; rfl⟩

/-- Past a whole position only the length field can be missing (R103, R109). -/
theorem readsOrEndsEarly_position {t r : List Bool} {p : Nat} (hp : takeBits 10 t = some (p, r)) : ReadsOrEndsEarly (false :: t) := by
  obtain ⟨hlt, e⟩ := takeBits_some hp
  by_cases h0 : p = 0
  · subst h0
    exact .inl ⟨.eos, eosBits, r, decodeRecord_eos hp, rfl, rfl, by rw [e]; rfl⟩
  · rcases takeBits_cases 4 r with ⟨hl, h⟩ | ⟨l, r', h⟩
    · refine .inr ⟨by simp only [decodeRecord, hp, h0, if_false, h], List.replicate (4 - r.length) false, _, by simp; omega,
        decodeRecord_match (takeBits_extend hp _) h0 (takeBits_exact (by simp; omega))⟩
    · obtain ⟨hll, rfl⟩ := takeBits_some h
      refine .inl ⟨_, _, r', decodeRecord_match hp h0 h, ?_, rfl, ?_⟩
      · refine decide_eq_true fun e0 => h0 ?_
        rw [← toNat_ofNat_fit hlt, e0]; rfl
      · rw [matchBits, toNat_ofNat_fit hlt, toNat_ofNat_fit hll, e, List.cons_append, List.append_assoc]

/-- A position cut short: filled up with zeros it is the terminator's, or a match position that a length field follows. -/
theorem readsOrEndsEarly_cut {t : List Bool} (hlt : t.length < 10) : ReadsOrEndsEarly (false :: t) := by
  have hx : takeBits 10 t = none := if_pos hlt
  have hfill : (t ++ List.replicate (10 - t.length) false).length = 10 := by simp; omega
  have hp := takeBits_exact hfill
  refine .inr ⟨by simp only [decodeRecord, hx], ?_⟩
  by_cases h0 : msbValue 0 (t ++ List.replicate (10 - t.length) false) = 0
  · rw [h0] at hp
    exact ⟨_, .eos, by simp; omega, decodeRecord_eos hp⟩
  · have hm := decodeRecord_match (takeBits_extend hp (List.replicate 4 false)) h0 (takeBits_exact rfl)
    rw [List.append_assoc] at hm
    exact ⟨_, _, by simp, hm⟩

/-- Settles O4, by the flag bit and then by how much of the record is there. -/
theorem onlyTruncationIsMalformed : Obligations.OnlyTruncationIsMalformed := by
  rintro (_ | ⟨_ | _, t⟩)
  · exact .inr ⟨rfl, eosBits, .eos, by simp [eosBits], rfl⟩
  · rcases takeBits_cases 10 t with ⟨hlt, -⟩ | ⟨p, r, hp⟩
    · exact readsOrEndsEarly_cut hlt
    · exact readsOrEndsEarly_position hp
  · exact readsOrEndsEarly_literal t

theorem decodeRecord_wf {bits rest : List Bool} {i : Instr} (h : decodeRecord bits = .ok (i, rest)) : i.wf = true := by
  rcases onlyTruncationIsMalformed bits with ⟨j, own, r, hj, hw, -, -⟩ | ⟨he, -⟩
  · rw [h] at hj; cases hj; exact hw
  · rw [h] at he; cases he

/-! ## Operations -/

/-- The bytes of a well-formed operation are read back from its own bytes alone (R113, notes/assumptions/2.md). -/
theorem decodeOperation_encoded {i : Instr} {op : BitVec 5} (hw : i.wf = true) (ho : i.opsel = some op) (rest : List Byte) :
    decodeOperation (op.setWidth 8 :: (i.operandBytes ++ rest)) = .ok (i, rest) := by
  cases i <;> simp only [Instr.opsel, Option.some.injEq, reduceCtorEq] at ho <;> subst ho
  case writeBit b => simp [decodeOperation, Instr.operandBytes, takeFlag_fieldBytes, except_ok_bind]
  case writeBits v k =>
    obtain ⟨h1, h2⟩ := of_decide_eq_true hw
    simp [decodeOperation, Instr.operandBytes, takeField_fit (show v.toNat < 256 ^ 4 from v.isLt), takeCount_fieldBytes h1 h2,
      except_ok_bind]
  case initTree p =>
    have h0 : 1 ≤ p.toNat := Nat.one_le_iff_ne_zero.mpr fun e => of_decide_eq_true hw (BitVec.eq_of_toNat_eq e)
    simp [decodeOperation, Instr.operandBytes, takePos_fieldBytes p h0, except_ok_bind]
  case contractNode o n => simp [decodeOperation, Instr.operandBytes, takeNode_fieldBytes, except_ok_bind]
  case replaceNode o n => simp [decodeOperation, Instr.operandBytes, takeNode_fieldBytes, except_ok_bind]
  case findNextNode n => simp [decodeOperation, Instr.operandBytes, takeNode_fieldBytes, except_ok_bind]
  case deleteNode p => simp [decodeOperation, Instr.operandBytes, takePos_zero_fieldBytes, except_ok_bind]
  case compare n c =>
    have h0 : 1 ≤ c.toNat := Nat.one_le_iff_ne_zero.mpr fun e => of_decide_eq_true hw (BitVec.eq_of_toNat_eq e)
    simp [decodeOperation, Instr.operandBytes, takePos_zero_fieldBytes, takePos_fieldBytes c h0, except_ok_bind]
  case addNode p => simp [decodeOperation, Instr.operandBytes, takePos_zero_fieldBytes, except_ok_bind]
  all_goals rfl

theorem decodeOperation_wf {bytes rest : List Byte} {i : Instr} (h : decodeOperation bytes = .ok (i, rest)) : i.wf = true := by
  unfold decodeOperation at h
  split at h
  · cases h
  · split at h
    case h_3 =>
      obtain ⟨⟨v, r⟩, -, h⟩ := except_bind_eq_ok.mp h
      obtain ⟨⟨k, r'⟩, hk, h⟩ := except_bind_eq_ok.mp h
      cases h
      exact decide_eq_true (takeCount_range hk)
    case h_5 =>
      obtain ⟨⟨p, r⟩, hp, h⟩ := except_bind_eq_ok.mp h
      cases h
      exact decide_eq_true (takePos_ne_zero hp)
    case h_10 =>
      obtain ⟨⟨n, r⟩, -, h⟩ := except_bind_eq_ok.mp h
      obtain ⟨⟨c, r'⟩, hc, h⟩ := except_bind_eq_ok.mp h
      cases h
      exact decide_eq_true (takePos_ne_zero hc)
    case h_6 | h_7 =>
      obtain ⟨⟨o, r⟩, -, h⟩ := except_bind_eq_ok.mp h
      obtain ⟨⟨n, r'⟩, -, h⟩ := except_bind_eq_ok.mp h
      cases h; rfl
    case h_2 | h_8 | h_9 | h_11 =>
      obtain ⟨⟨x, r⟩, -, h⟩ := except_bind_eq_ok.mp h
      cases h; rfl
    case h_20 => cases h
    all_goals (cases h; rfl)

/-- An instruction is encoded as its record, or as its OPSEL byte and operands. -/
theorem encode_cases (i : Instr) :
    (∃ bits, i.recordBits = some bits ∧ encode i = .record bits) ∨
    (∃ op, i.opsel = some op ∧ encode i = .operation (op.setWidth 8 :: i.operandBytes)) := by
  cases i
  case literal | matchRecord | eos => exact .inl ⟨_, rfl, rfl⟩
  all_goals exact .inr ⟨_, rfl, rfl⟩

/-- Settles O1: records by O2 with nothing after them, operations by their bytes; what is decoded is well formed by either reader. -/
theorem decodeAndEncodeAgree : Obligations.DecodeAndEncodeAgree := by
  refine ⟨fun i hw => ?_, fun r i h => ?_⟩
  · rcases encode_cases i with ⟨bits, hb, he⟩ | ⟨op, ho, he⟩ <;> rw [he]
    · have h := recordsDecodeBeforeAnyTail i bits [] hw hb
      rw [List.append_nil] at h
      simp only [decode, h]
    · have h := decodeOperation_encoded hw ho []
      rw [List.append_nil] at h
      simp only [decode, h]
  · cases r with
    | quiet => cases h
    | record bits =>
      unfold decode at h
      dsimp only at h
      split at h
      · cases h
      · rename_i hd; cases h; exact decodeRecord_wf hd
    | operation bytes =>
      unfold decode at h
      dsimp only at h
      split at h
      · cases h
      · rename_i hd; cases h; exact decodeOperation_wf hd

/-- Settles O5: the decoder run on each word. -/
theorem sampleWordsDecode : Obligations.SampleWordsDecode := ⟨rfl, rfl, rfl, rfl, rfl, rfl, rfl, rfl⟩

/-! ## Streams -/

/-- A data record is a well-formed record of its own bits, at most nine of them for each byte it stands for (R102, R103, R112). -/
theorem isData_record {r : Instr} (h : r.isData = true) :
    r.wf = true ∧ r ≠ .eos ∧ ∃ b, r.recordBits = some b ∧ b ≠ [] ∧ b.length ≤ 9 * r.covers := by
  cases r <;> simp only [Instr.isData, Bool.false_eq_true] at h
  case literal b => exact ⟨rfl, by simp, _, rfl, by simp [literalBits], by simp [literalBits, Instr.covers]⟩
  case matchRecord p l =>
    refine ⟨h, by simp, _, rfl, by simp [matchBits], ?_⟩
    have hl : (matchBits p l).length = 15 := by simp [matchBits]; rfl
    rw [hl, Instr.covers]
    omega

theorem streamBits_cons {r : Instr} {b : List Bool} (rs : List Instr) (h : r.recordBits = some b) :
    Machine.streamBits (r :: rs) = b ++ Machine.streamBits rs := by
  simp [Machine.streamBits, h]

theorem decodeRecords_cons {fuel : Nat} {bits r r' : List Bool} {i : Instr} {is : List Instr} (hi : decodeRecord bits = .ok (i, r))
    (he : i ≠ .eos) (hr : decodeRecords fuel r = .ok (is, r')) : decodeRecords (fuel + 1) bits = .ok (i :: is, r') := by
  unfold decodeRecords
  rw [hi]
  cases i
  case eos => exact absurd rfl he
  all_goals simp only [hr]

/-- The reader of streams needs no more turns than there are records. -/
theorem decodeRecords_streamBits {fuel : Nat} {rs : List Instr} (rest : List Bool) (hd : rs.all Instr.isData = true)
    (hf : rs.length < fuel) : decodeRecords fuel (Machine.streamBits rs ++ eosBits ++ rest) = .ok (rs ++ [.eos], rest) := by
  induction rs generalizing fuel with
  | nil =>
    obtain ⟨n, rfl⟩ := Nat.exists_eq_succ_of_ne_zero (Nat.ne_zero_of_lt hf)
    have h := recordsDecodeBeforeAnyTail .eos eosBits rest rfl rfl
    simp only [decodeRecords, Machine.streamBits, List.flatMap_nil, List.nil_append, h]
  | cons r rs ih =>
    obtain ⟨n, rfl⟩ := Nat.exists_eq_succ_of_ne_zero (Nat.ne_zero_of_lt hf)
    rw [List.all_cons, Bool.and_eq_true] at hd
    obtain ⟨hw, he, b, hb, -⟩ := isData_record hd.1
    rw [streamBits_cons rs hb, List.append_assoc, List.append_assoc]
    refine decodeRecords_cons (recordsDecodeBeforeAnyTail r b _ hw hb) he ?_
    rw [← List.append_assoc]
    exact ih hd.2 (by simpa using hf)

theorem length_le_streamBits {rs : List Instr} (hd : rs.all Instr.isData = true) : rs.length ≤ (Machine.streamBits rs).length := by
  induction rs with
  | nil => exact Nat.le_refl 0
  | cons r rs ih =>
    rw [List.all_cons, Bool.and_eq_true] at hd
    obtain ⟨-, -, b, hb, hne, -⟩ := isData_record hd.1
    have := ih hd.2
    have := List.length_pos_iff.mpr hne
    rw [streamBits_cons rs hb, List.length_append, List.length_cons]
    omega

/-- Settles O3, by induction on the records; there are no more of them than bits, which bound the reader's turns. -/
theorem streamsParseBack : Obligations.StreamsParseBack := by
  intro rs rest hd
  have := length_le_streamBits hd
  exact decodeRecords_streamBits rest hd (by simp only [List.length_append]; omega)

end Sys2Proof
end

section
/-! PROOF. The records as they are put out (R102 to R106, R204, R205, R209), and the length field (R106). -/

namespace Sys2Proof.Machine

variable {s : State}

/-- An emission the sink takes puts out exactly its bits. -/
theorem exec_putsOut {i : Instr} {bits : List Bool} (h : s.emission i = some bits) (hi : i ≠ .emitEos)
    (ht : s.sinkTakes bits.length = true) : ∃ t, exec i s = .next t ∧ PutsOut s t bits := by
  obtain ⟨t, hx, he⟩ := putBits_taken bits s ht
  exact ⟨t, by rw [exec_emission h, if_neg hi, hx]; rfl, he.putsOut⟩

/-- Settles O18: each record is the emission of its bits; the check of R109 raises. -/
theorem recordsArePutOut : Obligations.RecordsArePutOut :=
  ⟨fun _ _ ht => exec_putsOut (bits := literalBits _) rfl (by simp) ht,
   fun _ p l hp ht => exec_putsOut (bits := matchBits p l) (if_neg hp) (by simp) ht,
   fun _ _ => rfl,
   fun _ ht => exec_putsOut (bits := eosBits) rfl (by simp) ht⟩

/-- Settles O19: EmitLiteral is the emission of the literal record of the byte at `winPos`. -/
theorem emitLiteralPutsOutTheByte : Obligations.EmitLiteralPutsOutTheByte := fun _ ht =>
  exec_putsOut (bits := literalBits _) rfl (by simp) ht

/-- Settles O20: past its checks EmitMatch is the emission of the match record of `matchPos` and the biased `matchLen`. -/
theorem emitMatchPutsOutThePair : Obligations.EmitMatchPutsOutThePair := by
  refine ⟨fun s hc => ?_, fun s hp hl ht => ?_⟩
  · have hc' : s.matchPos = 0 ∨ BitVec.ofNat 5 Config.lookAhead < s.matchLen := hc
    simp only [exec, execEmitMatch, emitMatch, if_pos hc', raise, Res.stop_outcome]
    rfl
  · have hc : ¬ (s.matchPos = 0 ∨ 17 < s.matchLen) := by
      rintro (e | e)
      · exact hp e
      · exact BitVec.not_lt.mpr hl e
    obtain ⟨t, hx, hb⟩ := exec_putsOut (i := .emitMatch) (bits := matchBits s.matchPos (lengthField s.matchLen)) (if_neg hc) (by simp) ht
    refine ⟨_, t, hx, fun h2 => ?_, hb⟩
    have := lengthField_toNat (m := s.matchLen) (by bv_omega) hl
    omega

/-- Settles O21: EmitEos is the emission of the terminator and the entry into `S_DONE`, whose flush completes a byte begun. -/
theorem emitEosEndsTheRun : Obligations.EmitEosEndsTheRun := by
  intro s ht
  obtain ⟨u, hx, he⟩ := putBits_taken eosBits s ht
  refine ⟨u, he.putsOut, ?_⟩
  rw [exec_emission (i := .emitEos) rfl, if_pos rfl, hx, Res.ret_outcome, State.enterDone, State.flushSink]
  by_cases hc : u.bsCnt = 0
  · simp only [hc, if_true]
  · simp only [hc, if_false]

/-- Settles O6: the field is the length less 2, and every code is that of the length 2 more. -/
theorem lengthFieldIsBiased : Obligations.LengthFieldIsBiased := by
  refine ⟨fun m h2 h17 => ?_, fun l => ⟨BitVec.setWidth 5 l + 2, ?_, ?_, ?_⟩⟩
  · have h := lengthField_toNat (m := m) (by bv_omega) h17
    exact ⟨by omega, fun _ => h⟩
  · bv_omega
  · bv_omega
  · unfold lengthField
    have : BitVec.setWidth 5 l + 2 - BitVec.ofNat 5 (Config.breakEven + 1) = BitVec.setWidth 5 l := by
      show BitVec.setWidth 5 l + 2 - 2 = _
      bv_omega
    rw [this, BitVec.setWidth_setWidth_of_le _ (by omega), BitVec.setWidth_eq]

end Sys2Proof.Machine
end

section
/-! PROOF. A run of CompressData on an input of bytes: what each of its steps does, and what the run has read and put out in the end
(R112, R135, R200, R211). -/

namespace Sys2Proof.Machine

variable {bs : List Byte} {s t u : State}

/-! ## The environment of such a run -/

/-- A run that has begun on the input `bs`: the bytes read so far and those still to come are the input, and every bit is taken. -/
structure Fed (bs : List Byte) (s : State) : Prop where
  begun  : s.seq ≠ .idle
  wait   : s.wait = none
  sink   : s.outPort = []
  input  : ∃ rest, bs = eventBytes s.events ++ rest ∧ s.inPort = rest.map InItem.ofByte
  ended  : s.inEnded = true → s.inPort = []
  closed : s.seq = .eos ∨ s.seq = .done → s.inEnded = true

theorem inputContract_bytes (l : List Byte) : inputContract false (l.map InItem.ofByte) = true := by
  induction l with
  | nil => rfl
  | cons b l ih => exact ih

/-- Bytes, of which none is left once the end was answered, are a good environment. -/
theorem Fed.goodEnv (h : Fed bs s) : GoodEnv s := by
  obtain ⟨rest, -, hp⟩ := h.input
  refine ⟨?_, ?_, by rw [State.sinkAnswers, h.sink]; rfl⟩
  · cases he : s.inEnded with
    | false => rw [hp]; exact inputContract_bytes rest
    | true => rw [h.ended he]; rfl
  · rw [State.inputAnswers, hp, List.all_map]
    exact List.all_eq_true.mpr fun b _ => rfl

/-- Every read is answered inside the contract. -/
theorem Fed.answered (h : Fed bs s) : ∃ r, Returns s r := by
  rcases readByte_outcome s with ⟨r, hr, -⟩ | ⟨t, ht, -⟩ | ⟨b, hn, he, -⟩
  · exact ⟨r, hr⟩
  · exact absurd h.goodEnv.answers ht.not_answers
  · exact (h.goodEnv.not_late hn he).elim

theorem Fed.afterRead {r : Answer} (h : Fed bs s) (hr : Returns s r) : Fed bs (s.afterRead r) := by
  obtain ⟨rest, hbs, hp⟩ := h.input
  obtain ⟨hn, rfl | ⟨hE, b, rfl⟩⟩ := hr
  · have hnil : s.inPort = [] := by
      cases rest with
      | nil => exact hp
      | cons c rest => rw [State.nextInput, hp] at hn; cases hn
    refine ⟨h.begun, h.wait, h.sink, ⟨rest, ?_, ?_⟩, fun _ => ?_, fun _ => rfl⟩
    · simpa [State.afterRead, eventBytes] using hbs
    · simp [State.afterRead, ← hp, hnil]
    · simp [State.afterRead, hnil]
  · cases rest with
    | nil => rw [State.nextInput, hp] at hn; cases hn
    | cons c rest =>
      rw [State.nextInput, hp] at hn
      cases hn
      refine ⟨h.begun, h.wait, h.sink, ⟨rest, ?_, ?_⟩, fun e => absurd (hE.symm.trans e) (by simp), h.closed⟩
      · simpa [State.afterRead, eventBytes, InItem.ofByte] using hbs
      · simp [State.afterRead, hp]

theorem Fed.emitted {bits : List Bool} (h : Fed bs s) (he : Emitted s u bits) : Fed bs u := by
  obtain ⟨ob, ac, cn, rfl⟩ := he.fields
  exact ⟨h.begun, h.wait, by simp [h.sink], by simpa using h.input, h.ended, h.closed⟩

theorem Fed.clamp (h : Fed bs s) : Fed bs s.clamp := by
  obtain ⟨k, e⟩ := clamp_frame s
  rw [e]
  exact ⟨h.begun, h.wait, h.sink, h.input, h.ended, h.closed⟩

/-! ## What the invariant of runs says of `aheadBytes` and `matchLen` in a state of the sequencer (R206, R213, R214) -/

theorem RunInv.in_init (h : RunInv s) (hq : s.seq = .init) : s.matchLen = 0 := by
  obtain ⟨-, -, -, hd⟩ := h.driver
  rw [hq] at hd
  exact hd.2.1

theorem RunInv.in_emit (h : RunInv s) (hq : s.seq = .emit) : s.inEnded = true ∨ s.aheadBytes = 17 := by
  obtain ⟨-, -, -, hd⟩ := h.driver
  rwa [hq] at hd

theorem RunInv.in_done (h : RunInv s) (hq : s.seq = .done) : s.aheadBytes = 0 := by
  obtain ⟨-, -, -, hd⟩ := h.driver
  rwa [hq] at hd

/-- There is a byte to advance over (R206). -/
theorem RunInv.ahead_ne_zero (h : RunInv s) (hs : s.stopped = false) (hq : s.seq = .adv) : s.aheadBytes ≠ 0 := by
  obtain ⟨-, ⟨-, hlt, hcount⟩, -⟩ := h.in_adv hs hq
  have hltn : s.advCnt.toNat < s.replCnt.toNat := hlt
  intro e
  rw [e] at hcount
  exact absurd hcount (by simp; omega)

/-! ## The steps of such a run -/

/-- The record the step in `S_EMIT` chooses (R203 to R205). -/
def State.chosen (s : State) : Instr :=
  if s.matchLen ≤ 1 then .literal (s.byteAt s.winPos) else .matchRecord s.matchPos (lengthField s.matchLen)

/-- The number of advances that follow it (R203, R206). -/
def State.chosenCount (s : State) : Cnt := if s.matchLen ≤ 1 then 1 else s.matchLen

theorem chosen_record {bits : List Bool} (h : s.emission (if s.matchLen ≤ 1 then .emitLiteral else .emitMatch) = some bits) :
    s.chosen.isData = true ∧ s.chosen.recordBits = some bits := by
  unfold State.chosen
  by_cases hm : s.matchLen ≤ 1
  · rw [if_pos hm] at h ⊢
    exact ⟨rfl, h⟩
  · rw [if_neg hm] at h ⊢
    obtain ⟨hc, hb⟩ := Option.ite_none_left_eq_some.mp h
    exact ⟨decide_eq_true fun e => hc (.inl e), hb⟩

/-- The match registers name bytes equal to those at `winPos`, at a position behind it that is less than a window away (R49, R188). -/
structure State.MatchBehind (s : State) : Prop where
  behind : 1 ≤ s.winPos - s.matchPos
  near   : s.winPos - s.matchPos ≤ 1007
  equal  : ∀ j < s.matchLen.toNat, s.byteAt (s.matchPos + BitVec.ofNat 10 j) = s.byteAt (s.winPos + BitVec.ofNat 10 j)

/-- What an advance of a run does, with the match it has found (R188, R207, R208). -/
structure Advanced (s t : State) (r : Answer) : Prop where
  frame : ∃ m x y z d e f g k ml mp, t = { s.afterRead r with
    node := m, window := windowAfterRead s r, par := x, nxt := y, repl := z, testNode := d, i := e, delta := f, bestLen := g, bestPos := k,
    matchLen := ml, matchPos := mp, aheadBytes := if r = .eoi then s.aheadBytes - 1 else s.aheadBytes, winPos := s.winPos + 1,
    advCnt := s.advCnt + 1, seq := if s.advCnt + 1 = s.replCnt then .emit else .adv }
  found : t.aheadBytes ≠ 0 → t.matchLen ≠ 0 → t.MatchBehind

/-- The steps of a run on an input of bytes (the table of R200). -/
inductive FedStep (s t : State) : Prop where
  | fillEnds (hq : s.seq = .fill) (hc : 17 ≤ s.aheadBytes ∨ s.eos = true) (ht : t = { s with seq := .init })
  | fillEoi (hq : s.seq = .fill) (ha : s.aheadBytes < 17) (he : s.eos = false) (hr : Returns s .eoi)
      (ht : t = { s.afterRead .eoi with eos := true, seq := .fill })
  | fillByte (b : Byte) (hq : s.seq = .fill) (ha : s.aheadBytes < 17) (he : s.eos = false) (hr : Returns s (.byte b))
      (ht : t = { (s.afterRead (.byte b)).putByte (windowAt s.winPos s.aheadBytes) b with aheadBytes := s.aheadBytes + 1, seq := .fill })
  | init (m : NodeMemory) (hq : s.seq = .init) (ht : t = { s with node := m, seq := .emit })
  | emitEnds (hq : s.seq = .emit) (ha : s.aheadBytes = 0) (ht : t = { s with seq := .eos })
  | record (u : State) (bits : List Bool) (hq : s.seq = .emit) (ha : s.aheadBytes ≠ 0) (hd : s.clamp.chosen.isData = true)
      (hb : s.clamp.chosen.recordBits = some bits) (hu : Emitted s.clamp u bits)
      (ht : t = { u with replCnt := s.clamp.chosenCount, advCnt := 0, seq := .adv })
  | advance (r : Answer) (hq : s.seq = .adv) (hr : Returns s r) (ht : Advanced s t r)
  | terminator (u : State) (hq : s.seq = .eos) (hu : Emitted s u eosBits) (ht : t = u.enterDone)

theorem fillStep_fed (hf : Fed bs s) (hq : s.seq = .fill) (hx : (prefill s).outcome (fun _ s => s) = .next t) : FedStep s t := by
  by_cases hc : 17 ≤ s.aheadBytes ∨ s.eos = true
  · rw [prefill_leaves hc] at hx
    exact .fillEnds hq hc (Host.Outcome.next.inj hx).symm
  · obtain ⟨ha, he⟩ := not_or.mp hc
    have ha' : s.aheadBytes < 17 := BitVec.not_le.mp ha
    have he' : s.eos = false := by simpa using he
    obtain ⟨r, hr⟩ := hf.answered
    obtain rfl | ⟨-, b, rfl⟩ := hr.2
    · rw [prefill_eoi ha' he' hr.1] at hx
      exact .fillEoi hq ha' he' hr (Host.Outcome.next.inj hx).symm
    · rw [prefill_byte ha' he' hr] at hx
      exact .fillByte b hq ha' he' hr (Host.Outcome.next.inj hx).symm

theorem emitStep_fed (h : RunInv s) (hf : Fed bs s) (hq : s.seq = .emit) (hx : (emitStep s).outcome (fun _ s => s) = .next t) :
    FedStep s t := by
  by_cases ha : s.aheadBytes = 0
  · rw [emitStep, if_pos ha] at hx
    exact .emitEnds hq ha (Host.Outcome.next.inj hx).symm
  · obtain ⟨-, bits, -, -, hem, -⟩ := h.emit_record hq
    obtain ⟨hd, hb⟩ := chosen_record hem
    rcases putBits_outcome bits s.clamp with ⟨u, hu, he⟩ | ⟨v, -, hv⟩
    · have hm : u.matchLen = s.clamp.matchLen := by rw [he.frame]
      rw [emitStep_emission ha hem, hu, Res.ret_andThen, ← hm] at hx
      exact .record u bits hq ha hd hb he (by rw [State.chosenCount, ← hm]; exact (Host.Outcome.next.inj hx).symm)
    · exact absurd hf.clamp.goodEnv.sink hv.not_answers

/-- The match an advance finds lies behind the new `winPos`, less than a window away (R49, R76, R188). -/
theorem advStep_fed (h : RunInv s) (hf : Fed bs s) (hs : s.stopped = false) (hq : s.seq = .adv)
    (hx : (Machine.advance s).outcome (fun _ s => s) = .next t) : FedStep s t := by
  obtain ⟨-, -, hwithin, hanchor, -⟩ := h.in_adv hs hq
  obtain ⟨r, hr⟩ := hf.answered
  obtain ⟨m, win, x, y, z, d, e, f, g, k, ml, mp, hadv, rfl, -, hmatch, hlive, -⟩ := advance_ret s r h.tree.1 hwithin hanchor hr.1 hr.2
  rw [hadv] at hx
  obtain rfl := Host.Outcome.next.inj hx
  refine .advance r hq hr ⟨⟨m, x, y, z, d, e, f, g, k, ml, mp, rfl⟩, fun ha hl => ?_⟩
  obtain ⟨hw, hne, hmp⟩ := hlive ha hl
  have h7 : (s.winPos - mp).toNat ≤ 1007 := hw mp hmp
  obtain ⟨h1, h2⟩ : 1 ≤ s.winPos + 1 - mp ∧ s.winPos + 1 - mp ≤ 1007 := by
    generalize s.winPos = q at *
    constructor <;> bv_omega
  exact ⟨h1, h2, (hmatch ha).2.2⟩

theorem eosStep_fed (hf : Fed bs s) (hq : s.seq = .eos) (hx : (emitEos s).outcome (fun _ s => s) = .next t) : FedStep s t := by
  rw [emitEos, emitEosRecord_eq_putBits] at hx
  rcases putBits_outcome eosBits s with ⟨u, hu, he⟩ | ⟨v, -, hv⟩
  · rw [hu] at hx
    exact .terminator u hq he (Host.Outcome.next.inj hx).symm
  · exact absurd hf.goodEnv.sink hv.not_answers

/-- The step of a run on an input of bytes, said once. -/
theorem RunInv.fedStep (h : RunInv s) (hf : Fed bs s) (hs : s.stopped = false) (hx : Machine.sequencerStep s = .next t) : FedStep s t := by
  obtain ⟨-, hd, hflt⟩ := not_stopped hs
  have hends := sequencerStep_ends hs hx
  rw [sequencerStep_running hs, sequencerOp] at hx
  cases hq : s.seq <;> rw [hq] at hx
  case idle => exact absurd hq hf.begun
  case fill => exact fillStep_fed hf hq hx
  case init =>
    simp only [hq, reduceCtorEq, false_and, true_and, false_or, or_false] at hends
    obtain ⟨m, -, ht⟩ := hends
    exact .init m hq ht
  case emit => exact emitStep_fed h hf hq hx
  case adv => exact advStep_fed h hf hs hq hx
  case eos => exact eosStep_fed hf hq hx
  case done => exact absurd hq hd
  case fault => exact absurd hq hflt

theorem Fed.step (h : RunInv s) (hf : Fed bs s) (hx : FedStep s t) : Fed bs t := by
  cases hx with
  | fillEnds hq hc ht => subst ht; exact ⟨by simp, hf.wait, hf.sink, hf.input, hf.ended, by simp⟩
  | fillEoi hq ha he hr ht =>
    subst ht
    have := hf.afterRead hr
    exact ⟨by simp, this.wait, this.sink, this.input, this.ended, by simp⟩
  | fillByte b hq ha he hr ht =>
    subst ht
    have := hf.afterRead hr
    exact ⟨by simp, this.wait, this.sink, this.input, this.ended, by simp⟩
  | init m hq ht => subst ht; exact ⟨by simp, hf.wait, hf.sink, hf.input, hf.ended, by simp⟩
  | emitEnds hq ha ht =>
    subst ht
    exact ⟨by simp, hf.wait, hf.sink, hf.input, hf.ended, fun _ => (h.in_emit hq).resolve_right (by rw [ha]; decide)⟩
  | record u bits hq ha hd hb hu ht =>
    subst ht
    have := hf.clamp.emitted hu
    exact ⟨by simp, this.wait, this.sink, this.input, this.ended, by simp⟩
  | advance r hq hr ht =>
    obtain ⟨m, x, y, z, d, e, f, g, k, ml, mp, rfl⟩ := ht.frame
    have := hf.afterRead hr
    exact ⟨by dsimp only; split <;> simp, this.wait, this.sink, this.input, this.ended, by dsimp only; split <;> simp⟩
  | terminator u hq hu ht =>
    subst ht
    have := hf.emitted hu
    obtain ⟨ob, ac, cn, e⟩ := enterDone_frame u
    have hq' : u.seq = .eos := by rw [hu.frame]; exact hq
    rw [e]
    exact ⟨by simp, this.wait, this.sink, this.input, this.ended, fun _ => this.closed (.inl hq')⟩

/-- At the end the whole input has been read and has left the look-ahead. -/
theorem Fed.allRead (h : RunInv s) (hf : Fed bs s) (hq : s.seq = .done) : eventBytes s.events = bs ∧ s.passed = bs.length := by
  obtain ⟨rest, hbs, hp⟩ := hf.input
  rw [hf.ended (hf.closed (.inr hq))] at hp
  obtain rfl := List.map_eq_nil_iff.mp hp.symm
  rw [List.append_nil] at hbs
  exact ⟨hbs.symm, by rw [State.passed, h.in_done hq, ← hbs]; rfl⟩

theorem fed_started (bs : List Byte) : Fed bs (State.onInput bs).started :=
  ⟨by simp [State.onInput, State.started, State.reset], rfl, rfl, ⟨bs, rfl, rfl⟩, fun e => (by cases e), by
    rintro (e | e) <;> cases e⟩

/-- What the steps of a run on an input keep, the sequencer's step keeps, which in a stopped block is none. -/
theorem Fed.keeps {P : State → Prop} (hP : ∀ s t, RunInv s → Fed bs s → s.stopped = false → P s → FedStep s t → P t)
    (h : RunInv s ∧ Fed bs s ∧ P s) (hx : sequencerStep s = .next t) : RunInv t ∧ Fed bs t ∧ P t := by
  obtain ⟨hi, hf, hp⟩ := h
  cases hs : s.stopped with
  | true => exact Host.Outcome.next.inj ((sequencerStep_stopped hs).symm.trans hx) ▸ ⟨hi, hf, hp⟩
  | false =>
    have hstep := hi.fedStep hf hs hx
    exact ⟨hi.sequencerStep hx, hf.step hi hstep, hP s t hi hf hs hp hstep⟩

/-- The run on an input ends in `S_DONE`, with what its steps keep. -/
theorem onInput_completes {P : State → Prop} (h0 : P (State.onInput bs).started)
    (hP : ∀ s t, RunInv s → Fed bs s → s.stopped = false → P s → FedStep s t → P t) :
    ∃ t, exec .compressData (State.onInput bs) = .next t ∧ t.seq = .done ∧ RunInv t ∧ Fed bs t ∧ P t := by
  have hi : RunInv (State.onInput bs) := runInv_resetBlock (s := State.onInput bs) rfl
  have hg := (fed_started bs).goodEnv
  obtain ⟨t, hx, -, hq, -⟩ := compressDataCompletes _ hi hg.contract hg.answers hg.sink rfl (by simp [State.onInput, State.reset])
  exact ⟨t, hx, hq, runSequencer_keeps (fun _ _ => Fed.keeps hP) _ ⟨hi.started, fed_started bs, h0⟩ hx⟩

/-! ## Counts -/

/-- The reads so far: in the prefill one for each byte and one for the end of input; after it one for each byte passed (R201, R207, R211). -/
structure Counted (bs : List Byte) (s : State) : Prop where
  filling : s.seq = .fill →
    s.passed = 0 ∧ s.nReads = s.aheadBytes.toNat + (if s.eos then 1 else 0) ∧ (s.eos = true → s.aheadBytes < 17)
  filled  : s.seq ≠ .fill → s.nReads = min (bs.length + 1) 17 + s.passed

theorem counted_started (bs : List Byte) : Counted bs (State.onInput bs).started :=
  ⟨fun _ => ⟨rfl, rfl, fun e => (by cases e)⟩, fun e => absurd rfl e⟩

theorem ahead_succ (ha : s.aheadBytes < 17) : (s.aheadBytes + 1).toNat = s.aheadBytes.toNat + 1 := by bv_omega

/-- A byte of the prefill joins the look-ahead: none has passed (R201). -/
theorem passed_fill (ha : s.aheadBytes < 17) (b : Byte) :
    (eventBytes (s.events ++ [.read (.byte b)])).length - (s.aheadBytes + 1).toNat = s.passed := by
  rw [ahead_succ ha, State.passed, eventBytes_append, List.length_append]
  exact Nat.add_sub_add_right _ 1 _

/-- When the prefill ends the input has ended after at most 16 bytes, or 17 bytes were read (R201). -/
theorem Counted.fillEnds (h : RunInv s) (hf : Fed bs s) (hc : Counted bs s) (hs : s.stopped = false) (hq : s.seq = .fill)
    (he : 17 ≤ s.aheadBytes ∨ s.eos = true) : s.nReads = min (bs.length + 1) 17 + s.passed := by
  obtain ⟨hp, hr, hlt⟩ := hc.filling hq
  obtain ⟨rest, hbs, hin⟩ := hf.input
  have hlen : bs.length = s.aheadBytes.toNat + rest.length := by
    have := h.window.1
    rw [State.passed] at hp
    rw [hbs, List.length_append]
    omega
  cases hE : s.eos with
  | true =>
    rw [hf.ended ((h.in_fill hs hq).2.2.1.trans hE)] at hin
    obtain rfl := List.map_eq_nil_iff.mp hin.symm
    have : s.aheadBytes.toNat < 17 := hlt hE
    rw [hr, hE, hp, hlen, List.length_nil, if_pos rfl]
    omega
  | false =>
    have h17 : 17 ≤ s.aheadBytes.toNat := he.resolve_right (by simp [hE])
    have h17' : s.aheadBytes.toNat ≤ 17 := h.driver.1
    rw [hr, hE, hp, hlen]
    simp only [Bool.false_eq_true, if_false]
    omega

theorem Counted.step (h : RunInv s) (hf : Fed bs s) (hc : Counted bs s) (hs : s.stopped = false) (hx : FedStep s t) : Counted bs t := by
  cases hx with
  | fillEnds hq he ht =>
    have := hc.fillEnds h hf hs hq he
    subst ht
    exact ⟨by simp, fun _ => this⟩
  | fillEoi hq ha he hr ht =>
    subst ht
    obtain ⟨hp, hn, -⟩ := hc.filling hq
    refine ⟨fun _ => ⟨by simpa [State.passed, State.afterRead, eventBytes] using hp, ?_, fun _ => ha⟩, fun e => absurd rfl e⟩
    simp [State.afterRead, hn, he]
  | fillByte b hq ha he hr ht =>
    subst ht
    obtain ⟨hp, hn, -⟩ := hc.filling hq
    refine ⟨fun _ => ⟨(passed_fill ha b).trans hp, ?_, fun e => absurd (he.symm.trans e) (by simp)⟩, fun e => absurd rfl e⟩
    show s.nReads + 1 = (s.aheadBytes + 1).toNat + if s.eos then 1 else 0
    rw [hn, he, ahead_succ ha]
    simp
  | init m hq ht => subst ht; exact ⟨by simp, fun _ => hc.filled (by simp [hq])⟩
  | emitEnds hq ha ht => subst ht; exact ⟨by simp, fun _ => hc.filled (by simp [hq])⟩
  | record u bits hq ha hd hb hu ht =>
    subst ht
    obtain ⟨k, e⟩ := clamp_frame s
    rw [e] at hu
    obtain ⟨ob, ac, cn, rfl⟩ := hu.fields
    exact ⟨by simp, fun _ => by simpa [State.passed] using hc.filled (by simp [hq])⟩
  | advance r hq hr ht =>
    obtain ⟨m, x, y, z, d, e, f, g, k, ml, mp, rfl⟩ := ht.frame
    have hp := passed_advance h.window (h.ahead_ne_zero hs hq) (h.adv_answer hs hq hr)
    refine ⟨fun e => ?_, fun _ => ?_⟩
    · dsimp only at e
      split at e <;> cases e
    · rw [State.passed]
      simp only [State.afterRead, hp, hc.filled (by simp [hq])]
      omega
  | terminator u hq hu ht =>
    subst ht
    obtain ⟨ob, ac, cn, e⟩ := enterDone_frame u
    rw [e]
    obtain ⟨ob', ac', cn', rfl⟩ := hu.fields
    exact ⟨by simp, fun _ => by simpa [State.passed] using hc.filled (by simp [hq])⟩

/-- The bits of data records are at most nine for each byte they stand for (R112). -/
theorem streamBits_length_le {rs : List Instr} (hd : rs.all Instr.isData = true) :
    (streamBits rs).length ≤ 9 * (rs.map Instr.covers).sum := by
  induction rs with
  | nil => exact Nat.le_refl 0
  | cons r rs ih =>
    rw [List.all_cons, Bool.and_eq_true] at hd
    obtain ⟨-, -, b, hb, -, hl⟩ := isData_record hd.1
    have := ih hd.2
    rw [streamBits_cons rs hb, List.length_append, List.map_cons, List.sum_cons]
    omega

theorem streamOf_length_le {bits tail : List Bool} {n : Nat} (h : streamOf bits n tail) : bits.length ≤ 9 * n + tail.length := by
  obtain ⟨rs, hd, rfl, rfl⟩ := h
  have := streamBits_length_le hd
  rw [List.length_append]
  omega

/-- Settles O51: the reads by `Counted`, the records and the packed bytes by the invariant of runs, when the run is done. -/
theorem compressDataCounts : Obligations.CompressDataCounts := by
  intro bs
  obtain ⟨t, hx, hq, h, hf, hc⟩ := onInput_completes (counted_started bs) fun s t h hf hs hc hx => hc.step h hf hs hx
  obtain ⟨hall, hp⟩ := hf.allRead h hq
  have hstream := h.stream hf.wait
  rw [hq] at hstream
  have hs : streamOf t.outBits bs.length eosBits := hall ▸ hstream
  obtain ⟨-, hdone, -⟩ := h.packing
  exact ⟨t, hx, hq, hall, by rw [hc.filled (by simp [hq]), hp], hs, streamOf_length_le hs, (hdone hq).2⟩

end Sys2Proof.Machine
end

section
/-! PROOF. The round trip (30_encoding.md R115): a conforming reader's window is the encoder's behind `winPos`, so a match it copies is the
bytes the encoder passed. -/

namespace Sys2Proof.Machine

variable {bs : List Byte} {s t u : State} {r : Reader} {w : Memory} {p q : Pos}

/-! ## A reader beside the encoder -/

/-- The reader that has yielded these bytes and no others. -/
def replay (l : List Byte) : Reader := l.foldl Reader.yield Reader.start

theorem replay_take_add (l : List Byte) (m n : Nat) :
    replay (l.take (m + n)) = ((l.drop m).take n).foldl Reader.yield (replay (l.take m)) := by
  rw [replay, List.take_add, List.foldl_append]
  rfl

theorem yield_all_out (l : List Byte) (r : Reader) : (l.foldl Reader.yield r).out = r.out ++ l := by
  induction l generalizing r with
  | nil => simp
  | cons b l ih => rw [List.foldl_cons, ih, Reader.yield, List.append_assoc]; rfl

theorem replay_out (l : List Byte) : (replay l).out = l := yield_all_out l Reader.start

/-- The reader stands at `q`, and its window is `w` as far back from there as a match can reach (R49, R115). -/
structure Reader.Follows (r : Reader) (w : Memory) (q : Pos) : Prop where
  pos  : r.pos = q
  past : ∀ e : Pos, 1 ≤ e → e ≤ 1007 → Memory.read r.window (q - e) = Memory.read w (q - e)

theorem Reader.Follows.yield (h : r.Follows w q) : (r.yield (Memory.read w q)).Follows w (q + 1) := by
  refine ⟨congrArg (· + 1) h.pos, fun e h1 h2 => ?_⟩
  show Memory.read (Memory.write r.window r.pos (Memory.read w q)) (q + 1 - e) = _
  rw [h.pos, Memory.read_write]
  by_cases he : e = 1
  · have hq : q + 1 - e = q := by bv_omega
    rw [if_pos hq, hq]
  · have hq : q + 1 - e ≠ q := by bv_omega
    rw [if_neg hq, show q + 1 - e = q - (e - 1) by bv_omega]
    exact h.past _ (by bv_omega) (by bv_omega)

/-- What the encoder writes into its look-ahead is out of a match's reach (R76). -/
theorem Reader.Follows.write {k : Pos} (h : r.Follows w q) (hk : k ≤ 16) (b : Byte) : r.Follows (Memory.write w (q + k) b) q := by
  refine ⟨h.pos, fun e h1 h2 => ?_⟩
  rw [Memory.read_write_other _ _ (by bv_omega)]
  exact h.past e h1 h2

/-- The bytes of a window from a position on. -/
def bytesFrom (w : Memory) : Pos → Nat → List Byte
  | _, 0 => []
  | q, n + 1 => Memory.read w q :: bytesFrom w (q + 1) n

theorem pos_add_succ (q : Pos) (j : Nat) : q + 1 + BitVec.ofNat 10 j = q + BitVec.ofNat 10 (j + 1) := by
  rw [BitVec.ofNat_add, BitVec.add_assoc, BitVec.add_comm 1]
  rfl

theorem bytesFrom_getElem? (w : Memory) (q : Pos) (n j : Nat) :
    (bytesFrom w q n)[j]? = if j < n then some (Memory.read w (q + BitVec.ofNat 10 j)) else none := by
  induction n generalizing q j with
  | zero => simp [bytesFrom]
  | succ n ih =>
    cases j with
    | zero => simp [bytesFrom]
    | succ j =>
      rw [bytesFrom, List.getElem?_cons_succ, ih, pos_add_succ]
      simp only [Nat.add_lt_add_iff_right]

/-- A match copied byte by byte yields the bytes ahead that are equal to it, though it may run into them (R115). -/
theorem Reader.Follows.copy {n : Nat} (h : r.Follows w q) (h1 : 1 ≤ q - p) (h2 : q - p ≤ 1007)
    (he : ∀ j < n, Memory.read w (p + BitVec.ofNat 10 j) = Memory.read w (q + BitVec.ofNat 10 j)) :
    Reader.copy n p r = (bytesFrom w q n).foldl Reader.yield r := by
  induction n generalizing r p q with
  | zero => rfl
  | succ n ih =>
    have hp : Memory.read r.window p = Memory.read w p := by
      have := h.past (q - p) h1 h2
      rwa [show q - (q - p) = p by bv_omega] at this
    have h0 : Memory.read w p = Memory.read w q := by simpa using he 0 (Nat.succ_pos n)
    rw [Reader.copy, hp, h0, bytesFrom, List.foldl_cons]
    refine ih h.yield (by bv_omega) (by bv_omega) fun j hj => ?_
    rw [pos_add_succ, pos_add_succ]
    exact he (j + 1) (Nat.succ_lt_succ hj)

/-- The look-ahead holds the input bytes that have not passed (R81). -/
theorem bytesFrom_lookAhead {n : Nat} (h : s.windowInv) (hn : n ≤ s.aheadBytes.toNat) :
    bytesFrom s.window s.winPos n = ((eventBytes s.events).drop s.passed).take n := by
  refine List.ext_getElem? fun j => ?_
  rw [bytesFrom_getElem?, List.getElem?_take, List.getElem?_drop]
  by_cases hj : j < n
  · have ha := s.aheadBytes.isLt
    have hd : (BitVec.ofNat 5 j).toNat = j := by rw [BitVec.toNat_ofNat, Nat.mod_eq_of_lt (by omega)]
    have hcell := h.2 (BitVec.ofNat 5 j) (by rw [BitVec.lt_def, hd]; omega)
    have hw : windowAt s.winPos (BitVec.ofNat 5 j) = s.winPos + BitVec.ofNat 10 j := by
      rw [windowAt, BitVec.setWidth_ofNat_of_le_of_lt (by omega) (by omega)]
    rw [hd, hw] at hcell
    rw [if_pos hj, if_pos hj]
    exact hcell.symm
  · rw [if_neg hj, if_neg hj]

theorem replay_ahead {n : Nat} (h : s.windowInv) (hn : n ≤ s.aheadBytes.toNat) :
    replay ((eventBytes s.events).take (s.passed + n)) =
      (bytesFrom s.window s.winPos n).foldl Reader.yield (replay ((eventBytes s.events).take s.passed)) := by
  rw [replay_take_add, bytesFrom_lookAhead h hn]

/-- Bytes read later do not change what has been read. -/
theorem take_read {n : Nat} (hn : n ≤ (eventBytes s.events).length) (a : Answer) :
    (eventBytes (s.events ++ [.read a])).take n = (eventBytes s.events).take n := by
  rw [eventBytes_append, List.take_append_of_le_length hn]

/-! ## The records put out -/

/-- The output is the bits of data records and a tail, and a reader of the records yields the first `n` bytes read. -/
def Recorded (s : State) (tail : List Bool) (n : Nat) : Prop :=
  ∃ rs : List Instr, rs.all Instr.isData = true ∧ s.outBits = streamBits rs ++ tail ∧
    rs.foldl Reader.read Reader.start = replay ((eventBytes s.events).take n)

/-- A reader beside the encoder agrees with it behind `winPos`; the records stand for the bytes passed, and in an advance for those
still to pass. -/
structure Mirrored (s : State) : Prop where
  follows : (replay ((eventBytes s.events).take s.passed)).Follows s.window s.winPos
  found   : s.seq = .emit → s.aheadBytes ≠ 0 → s.matchLen ≠ 0 → s.MatchBehind
  records : match s.seq with
    | .adv  => Recorded s [] (s.passed + (s.replCnt.toNat - s.advCnt.toNat))
    | .done => Recorded s eosBits s.passed
    | _     => Recorded s [] s.passed

theorem mirrored_started (bs : List Byte) : Mirrored (State.onInput bs).started :=
  ⟨⟨rfl, fun _ _ _ => rfl⟩, fun e => (by cases e), ⟨[], rfl, rfl, rfl⟩⟩

theorem Recorded.congr {n : Nat} {tail : List Bool} (h : Recorded s tail n) (ho : t.outBits = s.outBits)
    (he : (eventBytes t.events).take n = (eventBytes s.events).take n) : Recorded t tail n := by
  unfold Recorded at *
  rwa [ho, he]

/-- The chosen record stands for the bytes the run then advances over (R106, R115, R203). -/
theorem read_chosen (hl : s.matchLen ≤ 17) (hm : s.matchLen ≠ 0 → s.MatchBehind) (hr : r.Follows s.window s.winPos) :
    r.read s.chosen = (bytesFrom s.window s.winPos s.chosenCount.toNat).foldl Reader.yield r := by
  unfold State.chosen State.chosenCount
  by_cases h1 : s.matchLen ≤ 1
  · rw [if_pos h1, if_pos h1]
    rfl
  · rw [if_neg h1, if_neg h1, Reader.read, lengthField_toNat h1 hl]
    obtain ⟨hb, hn, he⟩ := hm fun e => h1 (by rw [e]; decide)
    exact hr.copy hb hn he

/-- The clamp shortens the match, which stays one. -/
theorem Mirrored.clamp (h : Mirrored s) (hq : s.seq = .emit) : Mirrored s.clamp := by
  have hr := h.records
  rw [hq] at hr
  unfold State.clamp
  split
  · rename_i hlt
    refine ⟨h.follows, fun _ ha hl => ?_, by simp only [hq]; exact hr⟩
    obtain ⟨h1, h2, h3⟩ := h.found hq ha fun e => by rw [e] at hlt; exact BitVec.not_lt_zero hlt
    exact ⟨h1, h2, fun j hj => h3 j (Nat.lt_trans hj hlt)⟩
  · exact h

/-- The record put out in `S_EMIT` (R115, R203). -/
theorem Mirrored.record {bits : List Bool} (h : RunInv s) (hm : Mirrored s) (hq : s.seq = .emit) (ha : s.aheadBytes ≠ 0)
    (hl : s.matchLen ≤ s.aheadBytes) (hd : s.chosen.isData = true) (hb : s.chosen.recordBits = some bits) (hu : Emitted s u bits) :
    Mirrored { u with replCnt := s.chosenCount, advCnt := 0, seq := .adv } := by
  have hrec := hm.records
  rw [hq] at hrec
  obtain ⟨rs, hrs, hout, hread⟩ := hrec
  have hcount : s.chosenCount.toNat ≤ s.aheadBytes.toNat := by
    unfold State.chosenCount
    split
    · bv_omega
    · exact hl
  have hc := read_chosen h.driver.2.1 (hm.found hq ha) hm.follows
  rw [← replay_ahead h.window hcount] at hc
  obtain ⟨ob, ac, cn, rfl⟩ := hu.fields
  have hev : eventBytes (s.events ++ bits.map .bit) = eventBytes s.events := by simp
  refine ⟨?_, fun e => (by cases e), rs ++ [s.chosen], by simp [hrs, hd], ?_, ?_⟩
  · simpa only [State.passed, hev] using hm.follows
  · simp [hout, streamBits, hb]
  · rw [List.foldl_append, hread]
    simp only [State.passed, hev] at hc ⊢
    exact hc

/-- One byte passes: the reader has yielded it, and what the encoder reads in is out of a match's reach (R76, R207). -/
theorem Mirrored.advance {a : Answer} (h : RunInv s) (hm : Mirrored s) (hs : s.stopped = false) (hq : s.seq = .adv) (hret : Returns s a)
    (ht : Advanced s t a) : Mirrored t := by
  have ha0 := h.ahead_ne_zero hs hq
  have han : 1 ≤ s.aheadBytes.toNat := by bv_omega
  obtain ⟨-, ⟨-, hlt, hcount⟩, -⟩ := h.in_adv hs hq
  have hltn : s.advCnt.toNat < s.replCnt.toNat := hlt
  have hsucc : (s.advCnt + 1).toNat = s.advCnt.toNat + 1 := by bv_omega
  have hlen : s.passed + s.aheadBytes.toNat = (eventBytes s.events).length := Nat.sub_add_cancel h.window.1
  have hrec := hm.records
  rw [hq] at hrec
  have hfound := ht.found
  obtain ⟨m, x, y, z, d, e, f, g, k, ml, mp, rfl⟩ := ht.frame
  have hpass := passed_advance h.window ha0 (h.adv_answer hs hq hret)
  refine ⟨?_, fun _ => hfound, ?_⟩
  · have hy := hm.follows.yield
    have hr : replay ((eventBytes s.events).take (s.passed + 1)) =
        (replay ((eventBytes s.events).take s.passed)).yield (Memory.read s.window s.winPos) := replay_ahead h.window han
    rw [← hr, ← take_read (by omega) a, ← hpass] at hy
    rcases hret.2 with rfl | ⟨-, b, rfl⟩
    · exact hy
    · have hw := hy.write (k := 16) (by decide) b
      rwa [show s.winPos + 1 + 16 = s.winPos + 17 by bv_omega] at hw
  · have hrec' := hrec.congr (t := s.afterRead a) rfl (take_read (by omega) a)
    by_cases hc : s.advCnt + 1 = s.replCnt
    · have e1 : s.passed + (s.replCnt.toNat - s.advCnt.toNat) = s.passed + 1 := by rw [← hc, hsucc]; omega
      rw [e1, ← hpass] at hrec'
      simp only [if_pos hc]
      exact hrec'
    · have e1 : s.passed + (s.replCnt.toNat - s.advCnt.toNat) = s.passed + 1 + (s.replCnt.toNat - (s.advCnt + 1).toNat) := by
        rw [hsucc]; omega
      rw [e1, ← hpass] at hrec'
      simp only [if_neg hc]
      exact hrec'

/-- A byte of the prefill goes into the look-ahead, where the reader does not look (R201). -/
theorem Mirrored.fillByte (hm : Mirrored s) (hq : s.seq = .fill) (ha : s.aheadBytes < 17) (b : Byte) :
    Mirrored { (s.afterRead (.byte b)).putByte (windowAt s.winPos s.aheadBytes) b with aheadBytes := s.aheadBytes + 1, seq := .fill } := by
  have hp := passed_fill ha b
  have htake := take_read (s := s) (n := s.passed) (Nat.sub_le _ _) (.byte b)
  have hrec := hm.records
  rw [hq] at hrec
  refine ⟨?_, fun e => (by cases e), ?_⟩
  · have hw := hm.follows.write (k := s.aheadBytes.setWidth 10) (by bv_omega) b
    rw [← htake, ← hp] at hw
    exact hw
  · have hrec' := hrec.congr (t := s.afterRead (.byte b)) rfl htake
    rw [← hp] at hrec'
    exact hrec'

theorem Mirrored.step (h : RunInv s) (hm : Mirrored s) (hs : s.stopped = false) (hx : FedStep s t) : Mirrored t := by
  have hrec := hm.records
  cases hx with
  | fillEnds hq hc ht => subst ht; rw [hq] at hrec; exact ⟨hm.follows, fun e => (by cases e), hrec⟩
  | fillEoi hq ha he hr ht =>
    subst ht
    rw [hq] at hrec
    have hev : eventBytes (s.events ++ [.read .eoi]) = eventBytes s.events := by simp [eventBytes]
    refine ⟨?_, fun e => (by cases e), ?_⟩
    · simpa only [State.passed, State.afterRead, hev] using hm.follows
    · simpa only [Recorded, State.passed, State.afterRead, hev] using hrec
  | fillByte b hq ha he hr ht => subst ht; exact hm.fillByte hq ha b
  | init m hq ht =>
    subst ht
    rw [hq] at hrec
    exact ⟨hm.follows, fun _ _ hl => absurd (h.in_init hq) hl, hrec⟩
  | emitEnds hq ha ht => subst ht; rw [hq] at hrec; exact ⟨hm.follows, fun e => (by cases e), hrec⟩
  | record u bits hq ha hd hb hu ht =>
    subst ht
    have hle := clamp_le s
    obtain ⟨hq', ha'⟩ : s.clamp.seq = s.seq ∧ s.clamp.aheadBytes = s.aheadBytes := by
      obtain ⟨k, e⟩ := clamp_frame s
      rw [e]; exact ⟨rfl, rfl⟩
    rw [← ha'] at ha hle
    exact Mirrored.record (h.clamp hq) (hm.clamp hq) (hq'.trans hq) ha hle hd hb hu
  | advance a hq hr ht => exact hm.advance h hs hq hr ht
  | terminator u hq hu ht =>
    subst ht
    rw [hq] at hrec
    obtain ⟨ob, ac, cn, e⟩ := enterDone_frame u
    rw [e]
    obtain ⟨ob', ac', cn', rfl⟩ := hu.fields
    obtain ⟨rs, hrs, hout, hread⟩ := hrec
    have hev : eventBytes (s.events ++ eosBits.map .bit) = eventBytes s.events := by simp
    refine ⟨?_, fun e => (by cases e), rs, hrs, ?_, ?_⟩
    · simpa only [State.passed, hev] using hm.follows
    · rw [hout, List.append_nil]
    · simpa only [State.passed, hev] using hread

/-- Settles O52: the records put out are read back from their bits (O3), and a reader of them has yielded the bytes passed (`Mirrored`),
which in the end are the input. -/
theorem roundTrip : Obligations.RoundTrip := by
  intro bs
  obtain ⟨t, hx, hq, h, hf, hm⟩ := onInput_completes (mirrored_started bs) fun s t h _ hs hm hx => hm.step h hs hx
  obtain ⟨hall, hp⟩ := hf.allRead h hq
  have hrec := hm.records
  rw [hq] at hrec
  obtain ⟨rs, hrs, hout, hread⟩ := hrec
  rw [hall, hp, List.take_length] at hread
  refine ⟨t, rs, hx, ?_, ?_⟩
  · have := streamsParseBack rs [] hrs
    rwa [List.append_nil, ← hout] at this
  · rw [decompress, hread, replay_out]

end Sys2Proof.Machine
end

section
/-! PROOF. The port signals, the bit sink and the host's Start and Reset (40_io_ports.md R132 to R138, R246, R247). -/

namespace Sys2Proof.Machine

variable {s t : State}

/-- Settles O12: the two answer functions, signal by signal; an exhausted list answers with its fixed item. -/
theorem portSignals : Obligations.PortSignals := by
  refine ⟨?_, ?_, ?_, ?_, ?_, ?_, ?_, ?_, ?_⟩
  · intro x ha he
    simp [InItem.answer, ha, he]
  · intro x ha he hi
    simp [InItem.answer, ha, he, hi]
  · intro x ha he hi
    simp [InItem.answer, ha, he, hi]
  · intro x ha
    simp [InItem.answer, ha]
  · intro x he
    simp [OutItem.answer, he]
  · intro x he ha
    simp [OutItem.answer, he, ha]
  · intro x he ha
    simp [OutItem.answer, he, ha]
  · intro s hp
    rw [State.nextInput, hp]
    rfl
  · intro s hp
    rw [State.nextSink, hp]
    rfl

/-! ## The bit sink -/

/-- The mask of `placeBit` is the bit `7 - cnt` alone. -/
theorem placeMask_getLsbD (cnt : BitVec 3) (j : Nat) : (0x80#8 >>> cnt.toNat).getLsbD j = decide (j = 7 - cnt.toNat) := by
  have hc := cnt.isLt
  have hm : (0x80#8) = BitVec.twoPow 8 7 := rfl
  rw [BitVec.getLsbD_ushiftRight, hm, BitVec.getLsbD_twoPow, Bool.eq_iff_iff]
  simp only [Bool.and_eq_true, decide_eq_true_eq]
  omega

/-- Placing a bit writes bit `7 - cnt` and no other (R135). -/
theorem placeBit_getLsbD (acc : Byte) (cnt : BitVec 3) (b : Bool) {j : Nat} (hj : j < 8) :
    (placeBit acc cnt b).getLsbD j = if j = 7 - cnt.toNat then b else acc.getLsbD j := by
  have hset : (placeBit acc cnt true).getLsbD j = (acc.getLsbD j || decide (j = 7 - cnt.toNat)) := by
    rw [← placeMask_getLsbD]
    exact BitVec.getLsbD_or
  have hclear : (placeBit acc cnt false).getLsbD j = (acc.getLsbD j && !decide (j = 7 - cnt.toNat)) := by
    rw [← placeMask_getLsbD]
    exact BitVec.getLsbD_and.trans (by rw [BitVec.getLsbD_not, decide_eq_true hj, Bool.true_and])
  cases b with
  | true => rw [hset]; split <;> simp [*]
  | false => rw [hclear]; split <;> simp [*]

/-- Settles O15: the new byte is `placeBit` of the accumulator. -/
theorem packBitFillsFromTheTop : Obligations.PackBitFillsFromTheTop := by
  intro s b
  refine ⟨placeBit s.bsAcc s.bsCnt b, fun j hj => placeBit_getLsbD _ _ b hj, fun h => ?_, fun h => ?_⟩
  · rw [State.packBit, if_pos h]
  · rw [State.packBit, if_neg h]

/-- An emission the sink refuses a bit of ends there: the bits before it are out, the fault is taken (R242). -/
theorem exec_abortsAt {i : Instr} {bits : List Bool} {m : Nat} (h : s.emission i = some bits) (hm : m < bits.length)
    (hr : s.sinkRefusesAt m = true) : ∃ t, exec i s = .next t ∧ AbortsAt s t bits m := by
  obtain ⟨u, hu, hx⟩ := putBits_refused bits m s hm hr
  refine ⟨u.bitRefused (bits.getD m false), ?_, u, hu.putsOut, rfl⟩
  rw [exec_emission h, hx]
  split <;> rfl

/-- Settles O16: WriteBits is the emission of the low `k` bits of its value, most significant first; other counts have none. -/
theorem writeBitsMostSignificantFirst : Obligations.WriteBitsMostSignificantFirst := by
  refine ⟨fun s v k h1 h2 ht => ?_, fun s v k m h1 h2 hm hr => ?_, fun s v k hk => ?_⟩
  · exact exec_putsOut (if_pos ⟨h1, h2⟩) (by simp) (by simpa using ht)
  · exact exec_abortsAt (if_pos ⟨h1, h2⟩) (by simpa using hm) hr
  · have hout : ¬ (1 ≤ k ∧ k ≤ 32) := by omega
    exact if_neg hout

/-- Settles O17: at a byte boundary Flush is the identity; the padding is `flushSink_packed`. -/
theorem flushCompletesTheByte : Obligations.FlushCompletesTheByte := by
  refine ⟨fun s h => ?_, fun s h => ?_, fun s t hc hx => ?_⟩
  · exact congrArg _ (if_pos h)
  · exact congrArg _ (if_neg h)
  · obtain rfl := Host.Outcome.next.inj hx
    exact (flushSink_packed hc).2.1

/-! ## Start and Reset -/

/-- Settles O10: both branches of Start. -/
theorem startLeavesIdle : Obligations.StartLeavesIdle :=
  ⟨fun _ h => congrArg _ (if_pos h), fun _ h => congrArg _ (if_neg h)⟩

/-- A stopped block that is not reset only has a request taken off the queue (R138, R212, R246, R252). -/
theorem step_of_stopped (hs : s.stopped = true) (hr : decode s.raised ≠ .ok .reset) (hx : step s = .next t) : t = s.dropRequest := by
  rcases step_ends hx with ⟨-, hq⟩ | ⟨i, -, hn, -⟩ | ⟨hi, -⟩ | ⟨i, -, -, -, rfl⟩
  · have hd : s.dropRequest.stopped = true := hs
    rw [sequencerStep_stopped hd] at hq
    exact (Host.Outcome.next.inj hq).symm
  · rw [hs] at hn; cases hn
  · exact absurd hi hr
  · rfl

/-- Settles O9: Reset does not look at the block; without it a block in a final state keeps its sequencer state (`step_of_stopped`). -/
theorem resetFromAnyState : Obligations.ResetFromAnyState := by
  refine ⟨fun _ => rfl, fun s t hq hx hne => ?_⟩
  have hs : s.stopped = true := by rcases hq with h | h <;> simp [State.stopped, h]
  by_contra hr
  rw [step_of_stopped hs hr hx] at hne
  exact hne rfl

end Sys2Proof.Machine
end

section
/-! PROOF. From every state whatever, each step of the sequencer stops the block or brings it nearer its end, so the model's bound on
CompressData is never reached (43_driver.md R200 to R214, notes/assumptions/11.md). -/

namespace Sys2Proof.Machine

variable {s t u : State}

/-! ## No step runs out of steps: `runNeverEnds` is the bound's own answer -/

section NeFault

variable {α β : Type} {f : Fault}

theorem Res.andThen_ne_fault {x : Res α} {k : α → State → Res β} (hx : x ≠ .fault f) (hk : ∀ a s, k a s ≠ .fault f) :
    x.andThen k ≠ .fault f := by
  intro h
  rcases Res.andThen_eq_fault.mp h with h | ⟨a, s, -, h⟩
  · exact hx h
  · exact hk a s h

theorem Res.outcome_ne_fault {x : Res α} {k : α → State → State} (hx : x ≠ .fault f) : x.outcome k ≠ .fault f := by
  cases x with
  | fault g => exact fun h => hx (congrArg _ (Host.Outcome.fault.inj h))
  | _ => nofun

theorem readByte_ne_fault (s : State) : readByte s ≠ .fault f := by
  rcases readByte_outcome s with ⟨r, -, h⟩ | ⟨t, -, h⟩ | ⟨b, -, -, h⟩ <;> rw [h] <;> nofun

theorem prefill_ne_fault (s : State) : prefill s ≠ .fault f := by
  unfold prefill
  split
  · exact Res.andThen_ne_fault (readByte_ne_fault s) fun r t => by cases r <;> nofun
  · nofun

theorem initStep_ne_fault (s : State) : initStep s ≠ .fault f := by
  unfold initStep initTree
  split <;> nofun

theorem putBits_ne_fault (bits : List Bool) (s : State) : putBits bits s ≠ .fault f := by
  rcases putBits_outcome bits s with ⟨u, h, -⟩ | ⟨t, h, -⟩ <;> rw [h] <;> nofun

theorem emitStep_ne_fault (s : State) : emitStep s ≠ .fault f := by
  unfold emitStep emitLiteral emitMatch
  simp only [emitLiteralRecord_byte, emitMatchRecord_length]
  split
  · nofun
  split
  · exact Res.andThen_ne_fault (putBits_ne_fault _ _) fun _ _ => nofun
  split
  · nofun
  · exact Res.andThen_ne_fault (putBits_ne_fault _ _) fun _ _ => nofun

theorem emitEos_ne_fault (s : State) : emitEos s ≠ .fault f := by
  rw [emitEos, emitEosRecord_eq_putBits]
  exact Res.andThen_ne_fault (putBits_ne_fault _ _) fun _ _ => nofun

theorem contractNode_ne_fault (o n : NodeIx) (s : State) : contractNode o n s ≠ .fault f := by
  unfold contractNode
  simp only
  split
  · nofun
  · split <;> nofun

theorem replaceNode_ne_fault (o n : NodeIx) (s : State) : replaceNode o n s ≠ .fault f := by
  unfold replaceNode
  simp only
  split
  · nofun
  · split <;> nofun

end NeFault

theorem findNextNode_ne_runNeverEnds (n : NodeIx) (s : State) : findNextNode n s ≠ .fault .runNeverEnds := by
  unfold findNextNode
  split
  · nofun
  · split <;> nofun

theorem deleteNode_ne_runNeverEnds (n : Pos) (s : State) : deleteNode n s ≠ .fault .runNeverEnds := by
  unfold deleteNode
  simp only
  split
  · nofun
  split
  · exact contractNode_ne_fault _ _ s
  split
  · exact contractNode_ne_fault _ _ s
  · exact Res.andThen_ne_fault (findNextNode_ne_runNeverEnds _ s) fun r t =>
      Res.andThen_ne_fault (contractNode_ne_fault _ _ _) fun _ u => replaceNode_ne_fault _ _ u

theorem searchLoop_ne_runNeverEnds (new : Pos) (fuel : Nat) (s : State) : searchLoop new fuel s ≠ .fault .runNeverEnds := by
  induction fuel generalizing s with
  | zero => nofun
  | succ fuel ih =>
    unfold searchLoop
    simp only
    split
    · exact Res.andThen_ne_fault (replaceNode_ne_fault _ _ _) fun _ _ => nofun
    · split <;> split
      · nofun
      · exact ih _
      · nofun
      · exact ih _

theorem addNode_ne_runNeverEnds (new : Pos) (s : State) : addNode new s ≠ .fault .runNeverEnds := by
  unfold addNode
  simp only
  split
  · nofun
  split
  · nofun
  split
  · nofun
  · exact searchLoop_ne_runNeverEnds new _ _

theorem advance_ne_runNeverEnds (s : State) : advance s ≠ .fault .runNeverEnds := by
  refine Res.andThen_ne_fault (deleteNode_ne_runNeverEnds _ s) fun _ u => ?_
  refine Res.andThen_ne_fault (readByte_ne_fault u) fun r v => ?_
  refine Res.andThen_ne_fault ?_ fun _ _ => nofun
  unfold addAtWinPos
  split
  · nofun
  · exact Res.andThen_ne_fault (addNode_ne_runNeverEnds _ _) fun _ _ => nofun

theorem sequencerStep_ne_runNeverEnds (s : State) : sequencerStep s ≠ .fault .runNeverEnds := by
  unfold sequencerStep sequencerOp
  split
  · nofun
  · refine Res.outcome_ne_fault ?_
    cases s.seq with
    | idle => nofun
    | fill => exact prefill_ne_fault s
    | init => exact initStep_ne_fault s
    | emit => exact emitStep_ne_fault s
    | adv => exact advance_ne_runNeverEnds s
    | eos => exact emitEos_ne_fault s
    | done => nofun
    | fault => nofun

/-! ## The steps left, from every state -/

/-- The number of advances until the count of R208 is reached, 1 to 32, the counters taken modulo 32. -/
def State.advancesLeft (s : State) : Nat := (s.replCnt - s.advCnt - 1).toNat + 1

/-- A bound on the steps left from any state. Outside a run more advances can be due than the look-ahead holds bytes; then one of them
can wrap `aheadBytes` from 0 to 31 (notes/assumptions/13.md), once, since at most 31 advances are left after it. -/
def State.stepBudget (s : State) : Nat :=
  s.stepsLeft + if s.seq = .adv ∧ s.aheadBytes.toNat < s.advancesLeft then 64 else 0

/-- What a step of the sequencer comes to: the block stops, or goes on with fewer steps left. -/
def Nears (s t : State) : Prop := t.stopped = true ∨ (t.seq ≠ .idle ∧ t.stepBudget < s.stepBudget)

theorem stopped_of {t : State} (h : t.wait ≠ none ∨ t.seq = .fault) : t.stopped = true := by
  rcases h with h | h
  · simp [State.stopped, Option.isSome_iff_ne_none.mpr h]
  · simp [State.stopped, h]

theorem EmitStops.stopped (h : EmitStops s t) : t.stopped = true := by
  obtain ⟨_, -, -, h⟩ := h.events
  exact stopped_of h

/-- The states that have no advance due: the bound is the one of runs. -/
theorem stepBudget_of_ne (h : s.seq ≠ .adv) : s.stepBudget = s.stepsLeft := by
  rw [State.stepBudget, if_neg fun e => h e.1, Nat.add_zero]

theorem stepBudget_of_adv (h : s.seq = .adv) :
    s.stepBudget = 2 * (s.inPort.length + s.aheadBytes.toNat) + 1 + if s.aheadBytes.toNat < s.advancesLeft then 64 else 0 := by
  simp only [State.stepBudget, State.stepsLeft, h, true_and]

theorem nears_of_stepsLeft (hs : s.seq ≠ .adv) (ht : t.seq ≠ .adv) (hi : t.seq ≠ .idle) (h : t.stepsLeft < s.stepsLeft) : Nears s t :=
  .inr ⟨hi, by rwa [stepBudget_of_ne hs, stepBudget_of_ne ht]⟩

/-- A turn of the prefill (R201). -/
theorem prefill_nears (hq : s.seq = .fill) (hx : (prefill s).outcome (fun _ s => s) = .next t) : Nears s t := by
  have hadv : s.seq ≠ .adv := by simp [hq]
  have hinit : Nears s { s with seq := .init } := by
    refine nears_of_stepsLeft hadv (by simp) (by simp) ?_
    simp only [State.stepsLeft, hq]
    omega
  by_cases hc : 17 ≤ s.aheadBytes ∨ s.eos = true
  · rw [prefill_leaves hc] at hx
    exact Host.Outcome.next.inj hx ▸ hinit
  · obtain ⟨ha, he⟩ := not_or.mp hc
    have ha' : s.aheadBytes.toNat < 17 := BitVec.not_le.mp ha
    have he' : s.eos = false := by simpa using he
    rcases (prefill_ends s).same hx with rfl | ⟨-, rfl⟩ | ⟨b, hr, rfl⟩ | hr
    · exact hinit
    · have : s.inPort.tail.length ≤ s.inPort.length := by simp
      refine nears_of_stepsLeft hadv (by simp) (by simp) ?_
      simp only [State.stepsLeft, State.afterRead, hq, he', if_true, Bool.false_eq_true, if_false]
      omega
    · have hn : (s.aheadBytes + 1).toNat = s.aheadBytes.toNat + 1 := by bv_omega
      have := hr.inPort_length
      refine nears_of_stepsLeft hadv (by simp) (by simp) ?_
      simp only [State.stepsLeft, State.afterRead, hq, hn]
      omega
    · exact .inl (stopped_of hr.stops)

/-- What is chosen after the clamp stands for at least one byte and for no more than the look-ahead holds (R203, R206). -/
theorem chosenCount_clamp (ha : s.aheadBytes ≠ 0) : s.clamp.chosenCount ≠ 0 ∧ s.clamp.chosenCount ≤ s.aheadBytes := by
  have hle := clamp_le s
  unfold State.chosenCount
  split
  · exact ⟨by decide, by bv_omega⟩
  · exact ⟨by bv_omega, hle⟩

/-- The step in `S_EMIT` with a match that is none: the check of R205 raises. -/
theorem emitStep_check (ha : s.aheadBytes ≠ 0)
    (h : s.clamp.emission (if s.clamp.matchLen ≤ 1 then .emitLiteral else .emitMatch) = none) :
    emitStep s = .stop (s.clamp.enterFault .invariantViolation) := by
  by_cases hm : s.clamp.matchLen ≤ 1
  · rw [if_pos hm] at h; cases h
  · have hm' : ¬ s.clamp.matchLen ≤ BitVec.ofNat 5 Config.breakEven := hm
    have hc : s.clamp.matchPos = 0 ∨ BitVec.ofNat 5 Config.lookAhead < s.clamp.matchLen := by
      by_contra hc
      rw [if_neg hm] at h
      exact Option.some_ne_none _ ((if_neg hc).symm.trans h)
    rw [emitStep, if_neg ha]
    simp only
    rw [if_neg hm', emitMatch, if_pos hc]
    rfl

/-- What the step in `S_EMIT` writes of the measure, from any state, when it does not stop the block (R203). -/
theorem emitStep_counts (ha : s.aheadBytes ≠ 0) (hx : (emitStep s).outcome (fun _ s => s) = .next t) :
    t.stopped = true ∨ (t.inPort = s.inPort ∧ t.aheadBytes = s.aheadBytes ∧ t.replCnt = s.clamp.chosenCount ∧ t.advCnt = 0 ∧
      t.seq = .adv) := by
  rcases Option.eq_none_or_eq_some (s.clamp.emission (if s.clamp.matchLen ≤ 1 then .emitLiteral else .emitMatch)) with hem | ⟨bits, hem⟩
  · rw [emitStep_check ha hem] at hx
    obtain rfl := Host.Outcome.next.inj hx
    exact .inl (stopped_of (.inr rfl))
  rw [emitStep_emission ha hem] at hx
  rcases putBits_outcome bits s.clamp with ⟨u, hu, he⟩ | ⟨v, hv, hs⟩
  · obtain ⟨k, e⟩ := clamp_frame s
    have hm : u.matchLen = s.clamp.matchLen := by rw [he.frame]
    obtain ⟨hin, hahead⟩ : u.inPort = s.inPort ∧ u.aheadBytes = s.aheadBytes := by rw [he.frame, e]; exact ⟨rfl, rfl⟩
    rw [hu, Res.ret_andThen, hm] at hx
    obtain rfl := Host.Outcome.next.inj hx
    exact .inr ⟨hin, hahead, rfl, rfl, rfl⟩
  · rw [hv] at hx
    obtain rfl := Host.Outcome.next.inj hx
    exact .inl hs.stopped

/-- The step in `S_EMIT`: no more advances are due after a record than the look-ahead holds bytes, since the clamp comes first (R203). -/
theorem emitStep_nears (hq : s.seq = .emit) (hx : (emitStep s).outcome (fun _ s => s) = .next t) : Nears s t := by
  have hne : s.seq ≠ .adv := by simp [hq]
  by_cases ha : s.aheadBytes = 0
  · rw [emitStep, if_pos ha] at hx
    obtain rfl := Host.Outcome.next.inj hx
    refine nears_of_stepsLeft hne (by simp) (by simp) ?_
    simp only [State.stepsLeft, hq]
    omega
  · rcases emitStep_counts ha hx with hs | ⟨hin, hahead, hrepl, hadv, hseq⟩
    · exact .inl hs
    · obtain ⟨hc0, hca⟩ := chosenCount_clamp ha
      have hdue : ¬ t.aheadBytes.toNat < t.advancesLeft := by
        rw [State.advancesLeft, hahead, hrepl, hadv]
        bv_omega
      refine .inr ⟨by simp [hseq], ?_⟩
      rw [stepBudget_of_ne hne, stepBudget_of_adv hseq, if_neg hdue]
      simp only [State.stepsLeft, hq, hin, hahead]
      omega

/-- What one advance does to the measure: it uses up an input item, or takes one off `aheadBytes`, or wraps it from 0 to 31. -/
theorem ahead_after_read {r : Answer} (hr : Returns s r) {a' : Cnt} (e : (if r = .eoi then s.aheadBytes - 1 else s.aheadBytes) = a') :
    (s.inPort.tail.length < s.inPort.length ∧ a'.toNat = s.aheadBytes.toNat) ∨
    (s.inPort.tail.length ≤ s.inPort.length ∧
      (a'.toNat + 1 = s.aheadBytes.toNat ∨ (s.aheadBytes.toNat = 0 ∧ a'.toNat = 31))) := by
  rcases hr.2 with rfl | ⟨-, b, rfl⟩
  · rw [if_pos rfl] at e
    exact .inr ⟨by simp, by bv_omega⟩
  · rw [if_neg nofun] at e
    exact .inl ⟨by have := hr.inPort_length; omega, by rw [e]⟩

/-- What an advance from any state writes of the measure, when it does not stop the block (R207, R208). -/
theorem AdvanceEnds.counts (h : AdvanceEnds s t) : t.stopped = true ∨ ∃ r, Returns s r ∧ t.inPort = s.inPort.tail ∧
    t.aheadBytes = (if r = .eoi then s.aheadBytes - 1 else s.aheadBytes) ∧ t.replCnt = s.replCnt ∧ t.advCnt = s.advCnt + 1 ∧
    t.seq = if s.advCnt + 1 = s.replCnt then .emit else .adv := by
  rcases h with ⟨r, u, hr, ⟨⟨_, _, _, _, _, _, _, _, _, _, _, _, rfl⟩, -⟩, rfl⟩ | ⟨u, -, rfl | hr⟩ | ⟨r, u, -, -, rfl⟩
  · exact .inr ⟨r, hr, rfl, rfl, rfl, rfl, rfl⟩
  · exact .inl (stopped_of (.inr rfl))
  · exact .inl (stopped_of hr.stops)
  · exact .inl (stopped_of (.inr rfl))

/-- An advance (R207, R208): the look-ahead wraps only when more advances are due than it holds bytes, and then 31 or fewer are left. -/
theorem advance_nears (hq : s.seq = .adv) (hx : (advance s).outcome (fun _ s => s) = .next t) : Nears s t := by
  rcases ((advance_ends s).same hx).counts with hs | ⟨r, hr, hin, ha, hrepl, hadv, hseq⟩
  · exact .inl hs
  have hread := ahead_after_read hr ha.symm
  by_cases hc : s.advCnt + 1 = s.replCnt
  · rw [if_pos hc] at hseq
    have hdue : s.advancesLeft = 1 := by rw [State.advancesLeft, ← hc]; bv_omega
    refine .inr ⟨by simp [hseq], ?_⟩
    rw [stepBudget_of_adv hq, stepBudget_of_ne (by simp [hseq]), hdue]
    simp only [State.stepsLeft, hseq, hin]
    split <;> omega
  · rw [if_neg hc] at hseq
    have hdue : s.advancesLeft = t.advancesLeft + 1 := by rw [State.advancesLeft, State.advancesLeft, hrepl, hadv]; bv_omega
    have hmax : t.advancesLeft ≤ 31 := by
      have : s.advancesLeft ≤ 32 := (s.replCnt - s.advCnt - 1).isLt
      omega
    refine .inr ⟨by simp [hseq], ?_⟩
    rw [stepBudget_of_adv hq, stepBudget_of_adv hseq, hdue, hin]
    split <;> split <;> omega

/-- Every step from every state, but for the idle one, which takes none of its own (R200). -/
theorem sequencerStep_nears (hs : s.stopped = false) (hi : s.seq ≠ .idle) (hx : sequencerStep s = .next t) : Nears s t := by
  have hop := hx
  rw [sequencerStep_running hs, sequencerOp] at hop
  rcases sequencerStep_ends hs hx with ⟨hq, -⟩ | ⟨hq, -⟩ | ⟨hq, m, -, rfl⟩ | ⟨hq, -⟩ | ⟨hq, -⟩ | ⟨hq, he⟩
  · exact absurd hq hi
  · rw [hq] at hop
    exact prefill_nears hq hop
  · refine nears_of_stepsLeft (by simp [hq]) (by simp) (by simp) ?_
    simp only [State.stepsLeft, hq]
    omega
  · rw [hq] at hop
    exact emitStep_nears hq hop
  · rw [hq] at hop
    exact advance_nears hq hop
  · rcases he with ⟨u, -, rfl⟩ | he
    · obtain ⟨_, _, _, e⟩ := enterDone_frame u
      exact .inl (by rw [e]; simp [State.stopped])
    · exact .inl he.stopped

/-! ## Whole runs -/

theorem runSequencer_ne_runNeverEnds {fuel : Nat} (h : s.stopped = true ∨ (s.seq ≠ .idle ∧ s.stepBudget < fuel)) :
    runSequencer fuel s ≠ .fault .runNeverEnds := by
  induction fuel generalizing s with
  | zero =>
    rcases h with hs | ⟨-, hb⟩
    · rw [runSequencer_stopped 0 hs]; nofun
    · omega
  | succ fuel ih =>
    cases hs : s.stopped with
    | true => rw [runSequencer_stopped _ hs]; nofun
    | false =>
      obtain ⟨hi, hb⟩ : s.seq ≠ .idle ∧ s.stepBudget < fuel + 1 := h.resolve_left (by simp [hs])
      rw [runSequencer, if_neg (by simp [hs])]
      split
      · rename_i t hx
        refine ih ((sequencerStep_nears hs hi hx).imp id fun ⟨h1, h2⟩ => ⟨h1, by omega⟩)
      · rename_i f hx
        exact fun e => sequencerStep_ne_runNeverEnds s (hx.trans e)
      · nofun

theorem stepBudget_le (s : State) : s.stepBudget < 2 * s.inPort.length + 256 := by
  have ha := s.aheadBytes.isLt
  have he : (if s.eos then 0 else 1) ≤ 1 := by split <;> omega
  have hw : (if s.seq = .adv ∧ s.aheadBytes.toNat < s.advancesLeft then 64 else 0) ≤ 64 := by split <;> omega
  unfold State.stepBudget State.stepsLeft
  cases hq : s.seq <;> simp only [hq] at hw ⊢ <;> omega

theorem started_seq (s : State) : s.started.seq ≠ .idle := by
  unfold State.started
  split
  · nofun
  · assumption

theorem started_inPort (s : State) : s.started.inPort = s.inPort := by
  unfold State.started
  split <;> rfl

theorem started_inEnded (s : State) : s.started.inEnded = s.inEnded := by
  unfold State.started
  split <;> rfl

/-- The model's bound on the steps of CompressData is never reached. -/
theorem compressData_ne_runNeverEnds (s : State) : exec .compressData s ≠ .fault .runNeverEnds :=
  runSequencer_ne_runNeverEnds (.inr ⟨started_seq s, by
    have := stepBudget_le s.started
    rwa [started_inPort] at this⟩)

/-! ## CompressData and the steps of the sequencer -/

/-- Where CompressData ends, the sequencer's steps have ended. -/
theorem runSteps_of_runSequencer {fuel : Nat} (hx : runSequencer fuel s = .next t) :
    ∃ n, runSteps n s = .next t ∧ t.stopped = true := by
  induction fuel generalizing s with
  | zero =>
    rw [runSequencer] at hx
    split at hx
    · obtain rfl := Host.Outcome.next.inj hx
      exact ⟨0, rfl, ‹_›⟩
    · cases hx
  | succ fuel ih =>
    cases hs : s.stopped with
    | true =>
      rw [runSequencer_stopped _ hs] at hx
      obtain rfl := Host.Outcome.next.inj hx
      exact ⟨0, rfl, hs⟩
    | false =>
      rw [runSequencer, if_neg (by simp [hs])] at hx
      split at hx
      · rename_i u hu
        obtain ⟨n, hn, ht⟩ := ih hx
        exact ⟨n + 1, by rw [runSteps, hu]; exact hn, ht⟩
      · cases hx
      · cases hx

theorem runSteps_stopped (n : Nat) (hs : s.stopped = true) : runSteps n s = .next s := by
  induction n with
  | zero => rfl
  | succ n ih => rw [runSteps, sequencerStep_stopped hs]; exact ih

/-- Where the sequencer's steps end, CompressData ends, unless it runs out of steps before. -/
theorem runSequencer_of_runSteps {fuel n : Nat} (hx : runSteps n s = .next t) (ht : t.stopped = true)
    (hb : runSequencer fuel s ≠ .fault .runNeverEnds) : runSequencer fuel s = .next t := by
  induction fuel generalizing s n with
  | zero =>
    cases hs : s.stopped with
    | true => rw [runSequencer_stopped 0 hs, ← hx, runSteps_stopped n hs]
    | false => exact absurd (by rw [runSequencer, if_neg (by simp [hs])]) hb
  | succ fuel ih =>
    cases hs : s.stopped with
    | true => rw [runSequencer_stopped _ hs, ← hx, runSteps_stopped n hs]
    | false =>
      cases n with
      | zero =>
        obtain rfl := Host.Outcome.next.inj hx
        rw [hs] at ht; cases ht
      | succ n =>
        rw [runSteps] at hx
        split at hx
        · rename_i u hu
          rw [runSequencer_succ hs hu] at hb ⊢
          exact ih hx hb
        · cases hx
        · cases hx

/-- Settles O48: both are the same steps up to a stopped block; CompressData does not run out of them before
(`compressData_ne_runNeverEnds`). -/
theorem compressDataIsItsSteps : Obligations.CompressDataIsItsSteps := fun s _ =>
  ⟨runSteps_of_runSequencer, fun ⟨_, hn, ht⟩ => runSequencer_of_runSteps hn ht (compressData_ne_runNeverEnds s)⟩

/-! ## The runs of the hardware -/

/-- The sequencer's step from a state of a run ends, or is refused for a byte after the end of input (R131, R285). -/
theorem RunInv.sequencerStep_ends_or_late (h : RunInv s) :
    (∃ t, Machine.sequencerStep s = .next t) ∨ Machine.sequencerStep s = .refused .byteAfterEndOfInput := by
  cases hs : s.stopped with
  | true => exact .inl ⟨s, sequencerStep_stopped hs⟩
  | false =>
    by_cases hi : s.seq = .idle
    · exact .inl ⟨s, sequencerStep_idle hs hi⟩
    · cases h.runStep hs hi with
      | goes t ht => exact .inl ⟨t, ht.step⟩
      | halts t ht => exact .inl ⟨t, ht.step⟩
      | late b hx => exact .inr hx

/-- A run of the hardware ends, is refused for a late byte, or is cut short by the bound. -/
theorem RunInv.runSequencer_ends (fuel : Nat) (h : RunInv s) :
    (∃ t, runSequencer fuel s = .next t) ∨ runSequencer fuel s = .refused .byteAfterEndOfInput ∨
    runSequencer fuel s = .fault .runNeverEnds := by
  induction fuel generalizing s with
  | zero =>
    rw [runSequencer]
    split
    · exact .inl ⟨s, rfl⟩
    · exact .inr (.inr rfl)
  | succ fuel ih =>
    cases hs : s.stopped with
    | true => exact .inl ⟨s, runSequencer_stopped _ hs⟩
    | false =>
      rcases h.sequencerStep_ends_or_late with ⟨t, hx⟩ | hx
      · rw [runSequencer_succ hs hx]
        exact ih (h.sequencerStep hx)
      · rw [runSequencer, if_neg (by simp [hs]), hx]
        exact .inr (.inl rfl)

/-- Settles O49: the measure `stepBudget` falls with every step from every state and starts below the bound; in a run the steps
themselves end (`RunInv.runSequencer_ends`). -/
theorem compressDataEnds : Obligations.CompressDataEnds := by
  refine ⟨compressData_ne_runNeverEnds, fun s h => ?_⟩
  rcases h.started.runSequencer_ends (runBound s) with ⟨t, hx⟩ | hx | hx
  · obtain ⟨-, -, ht⟩ := runSteps_of_runSequencer hx
    exact .inl ⟨t, hx, ht⟩
  · exact .inr hx
  · exact absurd hx (compressData_ne_runNeverEnds s)

end Sys2Proof.Machine
end

section
/-! PROOF. A run of the hardware goes on, step after step, while its environment keeps the input contract (R131, R285). -/

namespace Sys2Proof.Machine

variable {s t : State}

/-- The contract leaves no byte for a read after the end of input (R131). -/
theorem inputContract_not_late {b : Byte} (hc : inputContract s.inEnded s.inPort = true) (hn : s.nextInput = some (.byte b)) :
    s.inEnded = false := by
  unfold State.nextInput at hn
  cases hp : s.inPort with
  | nil => rw [hp] at hn; cases hn
  | cons x l =>
    rw [hp] at hn hc
    have hx : x.answer = some (.byte b) := hn
    rw [inputContract, hx, Bool.and_eq_true] at hc
    simpa using hc.1

/-- An input that keeps its contract after the end of input keeps it before, as after a reset (R131, R138). -/
theorem inputContract_false {ended : Bool} {l : List InItem} (h : inputContract ended l = true) : inputContract false l = true := by
  induction l with
  | nil => rfl
  | cons x l ih =>
    unfold inputContract at h ⊢
    split at h
    · rw [Bool.and_eq_true] at h
      simpa using ih h.2
    · exact h
    · exact ih h

/-- The sequencer's step from a state of a run whose environment keeps the contract is taken, and the contract is kept. -/
theorem RunInv.sequencerStep_contract (h : RunInv s) (hc : inputContract s.inEnded s.inPort = true) :
    ∃ t, Machine.sequencerStep s = .next t ∧ inputContract t.inEnded t.inPort = true := by
  cases hs : s.stopped with
  | true => exact ⟨s, sequencerStep_stopped hs, hc⟩
  | false =>
    by_cases hi : s.seq = .idle
    · exact ⟨s, sequencerStep_idle hs hi, hc⟩
    · cases h.runStep hs hi with
      | goes t ht => exact ⟨t, ht.step, ht.env.contract hc⟩
      | halts t ht => exact ⟨t, ht.step, ht.env.contract hc⟩
      | late b hx hn hE => exact absurd hE (by simp [inputContract_not_late hc hn])

/-- A request of the host's is none, or it decodes (R134, R137, R138). -/
theorem fromHost_decodes {r : Request} (h : r.fromHost = true) : r = .quiet ∨ ∃ i, decode r = .ok i := by
  unfold Request.fromHost at h
  split at h
  · exact .inl rfl
  · rw [Bool.or_eq_true, decide_eq_true_eq, decide_eq_true_eq] at h
    exact .inr (h.elim (fun e => ⟨_, e⟩) fun e => ⟨_, e⟩)

theorem hostDriven_raised (h : s.hostDriven = true) : s.raised.fromHost = true := by
  unfold State.raised
  cases hr : s.reqs with
  | nil => rfl
  | cons r l =>
    rw [State.hostDriven, hr, List.all_cons, Bool.and_eq_true] at h
    exact h.1

/-- A step of a run of the hardware is the sequencer's own, or Start, Reset or a request that is only taken off the queue, which leave
the environment as it stands but for the end of input, which Reset forgets (R137, R138). -/
theorem RunInv.step_forms (h : RunInv s) : step s = Machine.sequencerStep s.dropRequest ∨
    ∃ t, step s = .next t ∧ t.inPort = s.inPort ∧ (t.inEnded = s.inEnded ∨ t.inEnded = false) := by
  rcases fromHost_decodes (hostDriven_raised h.host) with hq | ⟨i, hi⟩
  · exact .inl (by rw [step, hq])
  · have hx : step s = if performs i s then exec i s.dropRequest else .next s.dropRequest := by
      unfold step
      split
      · rename_i hq; rw [hq] at hi; cases hi
      · rw [hi]
    rw [hx]
    split
    · rcases hostDriven_decode h.host hi with rfl | rfl
      · exact .inr ⟨s.dropRequest.started, rfl, started_inPort _, .inl (started_inEnded _)⟩
      · exact .inr ⟨s.dropRequest.resetBlock, rfl, rfl, .inr rfl⟩
    · exact .inr ⟨s.dropRequest, rfl, rfl, .inl rfl⟩

/-- Settles O59: a request of the host's is always taken; the sequencer's own step is `RunInv.sequencerStep_contract`. -/
theorem runsGoOn : Obligations.RunsGoOn := by
  refine ⟨fun s h => ?_, fun s h hc => ?_⟩
  · rcases h.step_forms with hx | ⟨t, hx, -⟩
    · rw [hx]
      exact h.dropRequest.sequencerStep_ends_or_late
    · exact .inl ⟨t, hx⟩
  · rcases h.step_forms with hx | ⟨t, hx, hin, hE⟩
    · rw [hx]
      exact h.dropRequest.sequencerStep_contract hc
    · refine ⟨t, hx, ?_⟩
      rcases hE with hE | hE <;> rw [hin, hE]
      · exact hc
      · exact inputContract_false hc

end Sys2Proof.Machine
end

section
/-! PROOF. The tree operations as instructions of their own, and the step of `S_INIT` (41_tree_ops.md R150 to R154, 43_driver.md
R202). -/

namespace Sys2Proof.Machine

variable {s : State}

/-! ## InitTree -/

/-- `Node` after `InitTree` of the slot `r` (R150). -/
def rootedAt (f : NodeIx → NodeRec) (r n : NodeIx) : NodeRec :=
  if n = r then { parent := 1024, smallChild := 0, largeChild := 0 }
  else if n = 1024 then { parent := 0, smallChild := 0, largeChild := r }
  else f n

/-- InitTree of a slot other than 0: its frame, and what it leaves point by point (R150). -/
theorem initTree_ret {p : Pos} (hp : p ≠ 0) (s : State) :
    ∃ t, initTree p s = .ret () t ∧ t = { s with node := t.node } ∧ ∀ n, t.nodeAt n = rootedAt s.nodeAt (posToNode p) n := by
  refine ⟨_, if_neg hp, ((putNode_nodeOnly _ _ _).trans (putNode_nodeOnly _ _ _)).frame, fun n => ?_⟩
  rw [State.nodeAt_putNode, State.nodeAt_putNode]
  rfl

theorem initTree_zero (s : State) : initTree 0 s = .refused .initTreeAtPositionZero := if_pos rfl

/-- Settles O24: `initTree_ret` and `initTree_zero`. -/
theorem initTreeWritesTwoRecords : Obligations.InitTreeWritesTwoRecords := by
  refine ⟨fun s p hp => ?_, fun s => ?_⟩
  · obtain ⟨t, hx, hframe, hnode⟩ := initTree_ret hp s
    exact ⟨t, by rw [exec, execInitTree, hx, Res.ret_outcome], hframe, hnode⟩
  · rw [exec, execInitTree, initTree_zero, Res.refused_outcome]

/-- Settles O41: `initTree_ret` at `winPos`; what is left of the step is the write of `seq`. -/
theorem initStepMakesTheTree : Obligations.InitStepMakesTheTree := by
  intro s hs hq hw
  obtain ⟨t, hx, hframe, hnode⟩ := initTree_ret hw s
  refine ⟨{ t with seq := .emit }, ?_, by rw [hframe], hnode⟩
  simp only [sequencerStep_running hs, sequencerOp, hq, initStep, hx, Res.ret_andThen, Res.ret_outcome]

/-! ## ContractNode and ReplaceNode -/

/-- Settles O25: `contractNode_ret` under either child, `contractNode_raises` under neither. -/
theorem contractNodeSplices : Obligations.ContractNodeSplices := by
  refine fun s old new => ⟨fun h => ?_, fun hl hs => ?_⟩
  · obtain ⟨t, hx, hframe, hnode, -⟩ := contractNode_ret (new := new) h
    exact ⟨t, by rw [exec, execContractNode, hx, Res.ret_outcome], hframe, hnode⟩
  · refine ⟨_, by rw [exec, execContractNode, contractNode_raises hl hs, Res.stop_outcome], rfl, fun n => ?_⟩
    refine (State.nodeAt_putParent _ new n _).trans ?_
    split
    · next e => rw [e]; rfl
    · rfl

/-- Settles O26: `replaceNode_ret` in a tree, `replaceNode_raises` where neither child is `old`. -/
theorem replaceNodeTakesThePlace : Obligations.ReplaceNodeTakesThePlace := by
  refine fun s old new => ⟨fun h ho hn hr hd => ?_, fun hs hl => ?_⟩
  · obtain ⟨t, hx, hframe, hnode, -⟩ := replaceNode_ret h ho hn hr hd
    exact ⟨t, by rw [exec, execReplaceNode, hx, Res.ret_outcome], hframe, hnode⟩
  · rw [exec, execReplaceNode, replaceNode_raises hs hl, Res.stop_outcome, State.enterFault]

/-! ## FindNextNode -/

/-- The check of FindNextNode: nothing is written before it (R153, R244). -/
theorem findNextNode_raises {n : NodeIx} (h : (s.nodeAt n).smallChild = 0) :
    findNextNode n s = .stop (s.enterFault .invariantViolation) := if_pos h

theorem LargeWalk.ends {f : NodeIx → NodeRec} {n r : NodeIx} (h : LargeWalk f n r) : (f r).largeChild = 0 := by
  obtain ⟨-, -, -, hr⟩ := h.path
  exact hr

/-- Settles O27: `findNextNode_raises` and `findNextNode_ret`; in a tree the walk exists by `TreeShape.largeWalk`, and its end is the
greatest by `LargeWalk.greatest`. -/
theorem findNextNodeWalksToTheGreatest : Obligations.FindNextNodeWalksToTheGreatest := by
  refine ⟨fun s n h => ?_, fun s n r hs hw => ⟨?_, hw.ends⟩, fun s n h hn hs => ?_⟩
  · rw [exec, execFindNextNode, findNextNode_raises h, Res.stop_outcome, State.enterFault]
  · rw [exec, execFindNextNode, findNextNode_ret hs hw, Res.ret_outcome]
  · have hchild : liveIn s.nodeAt (s.nodeAt n).smallChild := (h.small n (.inr hn) hs).1
    obtain ⟨r, hw, hr, -⟩ := h.largeWalk hchild
    exact ⟨r, hw, hr, fun hO => (hw.greatest h hO hchild).2⟩

/-! ## DeleteNode -/

/-- Settles O28: `deleteNode_dead`. -/
theorem deleteNodeToleratesDeadSlots : Obligations.DeleteNodeToleratesDeadSlots := by
  intro s n h
  rw [exec, execDeleteNode, deleteNode_dead h, Res.ret_outcome]

end Sys2Proof.Machine
end

section
/-! PROOF. The match engine: what Compare computes (42_match_engine.md R181, R287), the guards of AddNode (R182, R244), and the match
AddNode reports, the deepest of the longest on the search path (R183, R188). -/

namespace Sys2Proof.Machine

variable {s : State} {f : NodeIx → NodeRec} {w : Memory} {new test : Pos}

/-! ## Compare -/

theorem commonPrefix_keyOf_le (w : Memory) (new test : Pos) : commonPrefix (keyOf w new) (keyOf w test) ≤ 17 := by
  simpa using commonPrefix_le_left (keyOf w new) (keyOf w test)

/-- Keys that share fewer than 17 bytes: the difference is that of the first two bytes that differ (R181). -/
theorem compareKeys_mismatch (h : commonPrefix (keyOf w new) (keyOf w test) < 17) :
    (compareKeys w new test).2 ≠ 0 ∧ (compareKeys w new test).2.toInt =
      ((keyByte w new (compareKeys w new test).1).toNat : Int) - ((keyByte w test (compareKeys w new test).1).toNat : Int) := by
  obtain ⟨-, hd⟩ := compareKeys_spec w new test
  rw [if_pos h] at hd
  obtain ⟨hdiff, hne⟩ := hd
  exact ⟨hne, by rw [hdiff, byteDifference_toInt]⟩

/-- Keys that share 17 bytes are equal, and no difference is found (R181). -/
theorem compareKeys_equal (h : commonPrefix (keyOf w new) (keyOf w test) = 17) :
    (compareKeys w new test).2 = 0 ∧ keyOf w new = keyOf w test := by
  obtain ⟨-, hd⟩ := compareKeys_spec w new test
  rw [if_neg (by omega)] at hd
  exact ⟨hd, eq_of_commonPrefix (by simp) (by simpa using h)⟩

/-- Two bytes differ by at most 255, so the 16-bit difference never overflows (R287). -/
theorem compareKeys_range (w : Memory) (new test : Pos) :
    -255 ≤ (compareKeys w new test).2.toInt ∧ (compareKeys w new test).2.toInt ≤ 255 := by
  rcases Nat.lt_or_eq_of_le (commonPrefix_keyOf_le w new test) with h | h
  · obtain ⟨-, hd⟩ := compareKeys_mismatch h
    have hn := (keyByte w new (compareKeys w new test).1).isLt
    have ht := (keyByte w test (compareKeys w new test).1).isLt
    omega
  · rw [(compareKeys_equal h).1]
    decide

/-- Settles O32: `compareKeys_spec` for the length, `compareKeys_mismatch` and `compareKeys_equal` for the difference,
`compareKeys_sign` for the order, `compareKeys_range` for the range. -/
theorem compareGivesPrefixAndSign : Obligations.CompareGivesPrefixAndSign := by
  intro s new test
  have hlen := (compareKeys_spec s.window new test).1
  obtain ⟨hpos, hneg⟩ := compareKeys_sign s.window new test
  obtain ⟨hlow, hhigh⟩ := compareKeys_range s.window new test
  refine ⟨(compareKeys s.window new test).1, (compareKeys s.window new test).2, rfl, hlen, hlen ▸ commonPrefix_keyOf_le s.window new test,
    fun h => ?_, fun h => ?_, hpos, hneg, hlow, hhigh⟩
  · exact compareKeys_mismatch (hlen ▸ h)
  · exact compareKeys_equal (hlen ▸ h)

/-! ## The guards of AddNode -/

/-- Settles O33: the three tests of `addNode` in their order. -/
theorem addNodeGuards : Obligations.AddNodeGuards := by
  refine ⟨fun s => ?_, fun s new h0 hp => ?_, fun s new h0 hp hroot => ?_⟩
  · rw [exec, execAddNode, addNode, if_pos rfl, Res.ret_outcome]
  · rw [exec, execAddNode, addNode, if_neg h0, if_pos hp, raise, Res.stop_outcome, State.enterFault]
  · have hin : ¬ (s.nodeAt (posToNode new)).parent ≠ Config.unused := not_not.mpr hp
    have hempty : (s.nodeAt Config.treeRoot).largeChild = Config.unused := hroot
    rw [exec, execAddNode, addNode, if_neg h0, if_neg hin]
    simp only [hempty, if_true, raise, Res.stop_outcome, State.enterFault]

/-! ## The match reported -/

/-- The node is the deepest of those on a search path that share the most leading bytes with `new` (R183). -/
def DeepestBest (w : Memory) (new : Pos) (path : List NodeIx) (n : NodeIx) : Prop :=
  ∃ above below, path = above ++ n :: below ∧ (∀ x ∈ above, shared w new x ≤ shared w new n) ∧
    ∀ x ∈ below, shared w new x < shared w new n

theorem DeepestBest.mem {path : List NodeIx} {n : NodeIx} (h : DeepestBest w new path n) : n ∈ path := by
  obtain ⟨above, below, rfl, -, -⟩ := h
  simp

theorem DeepestBest.shared_le_of_mem {path : List NodeIx} {n x : NodeIx} (h : DeepestBest w new path n) (hx : x ∈ path) :
    shared w new x ≤ shared w new n := by
  obtain ⟨above, below, rfl, habove, hbelow⟩ := h
  rcases List.mem_append.mp hx with hx | hx
  · exact habove x hx
  rcases List.mem_cons.mp hx with rfl | hx
  · exact le_rfl
  · exact (hbelow x hx).le

/-- From length 0 on, the match recorded along a path that is not empty is its deepest best node (R182 steps 2 and 3, R183). -/
theorem bestOf_deepestBest {path : List NodeIx} (hne : path ≠ []) (p : Pos) :
    ∃ n, DeepestBest w new path n ∧ bestOf w new path (0, p) = (BitVec.ofNat 5 (shared w new n), nodeToPos n) := by
  rcases bestOf_spec w new path (0, p) with ⟨-, hnone⟩ | ⟨above, n, below, hpath, hbest, -, habove, hbelow⟩
  · obtain ⟨x, hx⟩ := List.exists_mem_of_ne_nil path hne
    exact absurd (hnone x hx) (Nat.not_lt_zero _)
  · exact ⟨n, ⟨above, below, hpath, habove, hbelow⟩, hbest⟩

/-- There is one search path (R182). -/
theorem Visits.unique {t : NodeIx} {p q : List NodeIx} (hp : Visits f w new t p) (hq : Visits f w new t q) : p = q :=
  (visits_iff_path.mp hp).unique (visits_iff_path.mp hq)

/-- A search stops at a node whose key is the key sought (R182 step 4). -/
theorem Visits.getLast?_of_equal {t x : NodeIx} {path : List NodeIx} (hv : Visits f w new t path) (hx : x ∈ path)
    (h17 : shared w new x = 17) : path.getLast? = some x := by
  induction hv with
  | equal t _ => rw [List.mem_singleton.mp hx]; rfl
  | last t _ _ => rw [List.mem_singleton.mp hx]; rfl
  | step t p hne _ _ ih =>
    rcases List.mem_cons.mp hx with rfl | hx
    · exact absurd h17 hne
    · rw [List.getLast?_cons, ih hx, Option.getD_some]

/-- A live slot's key and that of `new` agree as far as they are shared (R180). -/
theorem byteAt_eq_of_lt_shared {n : NodeIx} {j : Nat} (hj : j < shared s.window new n) :
    s.byteAt (nodeToPos n + BitVec.ofNat 10 j) = s.byteAt (new + BitVec.ofNat 10 j) := by
  have hj17 : j < 17 := hj.trans_le (shared_le _ _ _)
  have hget := getElem?_commonPrefix hj
  rw [keyOf_getElem? _ _ hj17, keyOf_getElem? _ _ hj17] at hget
  exact (Option.some.inj hget).symm

/-- What AddNode has done when it links `new` and reports the node `n` (R182, R184, R185). -/
structure AddedReporting (s u : State) (new : Pos) (n : NodeIx) : Prop where
  frame : u = { s with node := u.node, par := u.par, testNode := u.testNode, i := u.i, delta := u.delta,
                       bestLen := BitVec.ofNat 5 (shared s.window new n), bestPos := nodeToPos n }
  shape : TreeShape u.nodeAt
  live  : ∀ k, liveIn u.nodeAt k ↔ k = posToNode new ∨ (liveIn s.nodeAt k ∧ ¬ (shared s.window new n = 17 ∧ k = n))

/-- AddNode in a tree that is not empty, for a slot that is not in it: it reports the deepest best node of its search path. Where all 17
bytes agree that node is the last one visited, the one whose place `new` takes (R182 to R185). -/
theorem addNode_reports (h : TreeShape s.nodeAt) (hroot : (s.nodeAt 1024).largeChild ≠ 0) (h0 : new ≠ 0)
    (hd : (s.nodeAt (posToNode new)).parent = 0) :
    ∃ path n u, Visits s.nodeAt s.window new (s.nodeAt 1024).largeChild path ∧ DeepestBest s.window new path n ∧
      liveIn s.nodeAt n ∧ addNode new s = .ret (BitVec.ofNat 5 (shared s.window new n), nodeToPos n) u ∧
      AddedReporting s u new n := by
  obtain ⟨u, path, e, hv, hpath, he, -, hx, hframe, -, hshape, hlive, -⟩ := addNode_ret h hroot h0 hd
  have hemem : e ∈ path := List.mem_of_getLast? he
  obtain ⟨n, hbest, hbestOf⟩ := bestOf_deepestBest (w := s.window) (new := new) (List.ne_nil_of_mem hemem) s.matchPos
  rw [hbestOf] at hx hframe
  have hlast : shared s.window new n = 17 → n = e := fun hn =>
    Option.some.inj ((hv.getLast?_of_equal hbest.mem hn).symm.trans he)
  have hiff : shared s.window new e = 17 ↔ shared s.window new n = 17 := by
    refine ⟨fun he17 => ?_, fun hn => hlast hn ▸ hn⟩
    exact le_antisymm (shared_le _ _ _) (he17 ▸ hbest.shared_le_of_mem hemem)
  refine ⟨path, n, u, hv, hbest, hpath n hbest.mem, hx, hframe, hshape, fun k => ?_⟩
  have hreplaced : (shared s.window new e = 17 ∧ k = e) ↔ (shared s.window new n = 17 ∧ k = n) := by
    rw [hiff]
    exact and_congr_right fun hn => by rw [hlast hn]
  rw [hlive k, hreplaced]

/-- AddNode as an instruction of its own: the match it reports is its result. -/
theorem exec_addNode {u : State} {m : Cnt} {p : Pos} (h : addNode new s = .ret (m, p) u) :
    exec (.addNode new) s = .next { u with result := .best m p } := by
  rw [exec, execAddNode, h, Res.ret_outcome]

/-- Settles O34: `addNode_reports`, with the reported node written as a position. -/
theorem addNodeLinksAndMatches : Obligations.AddNodeLinksAndMatches := by
  intro s new h hroot h0 hd
  obtain ⟨path, n, u, -, -, hn, hx, hu⟩ := addNode_reports h hroot h0 hd
  have hback : posToNode (nodeToPos n) = n := posToNode_nodeToPos hn.ne_root
  have hm17 : BitVec.ofNat 5 (shared s.window new n) = 17 ↔ shared s.window new n = 17 := by
    rw [← BitVec.toNat_inj, shared_toNat]
    rfl
  refine ⟨_, _, _, exec_addNode hx, by rw [hu.frame], hu.shape, ?_, nodeToPos_ne_zero hn, hback.symm ▸ hn, fun j hj => ?_, fun k => ?_⟩
  · rw [BitVec.le_def, shared_toNat]
    exact shared_le _ _ _
  · rw [shared_toNat] at hj
    exact byteAt_eq_of_lt_shared hj
  · rw [hback, hm17]
    exact hu.live k

/-- Settles O35: no live slot shares more than some node visited (`Visits.longest`), and no node visited more than the one reported. -/
theorem addNodeFindsTheLongest : Obligations.AddNodeFindsTheLongest := by
  intro s new h hO hroot h0 hd
  obtain ⟨path, n, u, hv, hbest, hn, hx, -⟩ := addNode_reports h hroot h0 hd
  have htop := (h.large 1024 (.inl rfl) hroot).1
  refine ⟨_, _, _, exec_addNode hx, rfl, ?_, fun k hk => ?_⟩
  · rw [shared_toNat, posToNode_nodeToPos hn.ne_root]
  · obtain ⟨x, hxp, hle⟩ := hv.longest h hO htop (h.under_top hk).2
    rw [shared_toNat]
    exact hle.trans (hbest.shared_le_of_mem hxp)

/-- Settles O36: `addNode_reports`, whose search path is the one given (`Visits.unique`). -/
theorem addNodeTiesGoToTheDeepest : Obligations.AddNodeTiesGoToTheDeepest := by
  intro s new path h hroot h0 hd hpath
  obtain ⟨_, n, u, hv, hbest, -, hx, -⟩ := addNode_reports h hroot h0 hd
  obtain rfl := hpath.unique hv
  obtain ⟨above, below, hsplit, habove, hbelow⟩ := hbest
  have hm := (shared_toNat s.window new n).symm
  exact ⟨_, _, n, above, below, exec_addNode hx, rfl, hsplit, hm, hm ▸ habove, hm ▸ hbelow⟩

end Sys2Proof.Machine
end

section
/-! PROOF. The step in `S_EMIT`, clamp, choice and checks (43_driver.md R203 to R206), and what one step of the block performs
(R200, R210). -/

namespace Sys2Proof.Machine

variable {s : State} {k : Cnt} {i : Instr}

/-! ## S_EMIT -/

/-- The clamp takes the smaller of the two registers (R203). -/
theorem clamp_eq (s : State) :
    s.clamp = { s with matchLen := if s.aheadBytes < s.matchLen then s.aheadBytes else s.matchLen } := by
  unfold State.clamp
  split <;> rfl

/-- With something left to put out, a choice that passes its checks and a sink that takes the record: its bits, then the counters
(R203, R206). -/
theorem sequencerStep_record {bits : List Bool} (hs : s.stopped = false) (hq : s.seq = .emit) (ha : s.aheadBytes ≠ 0)
    (hc : s.clamp = { s with matchLen := k })
    (hem : State.emission { s with matchLen := k } (if k ≤ 1 then .emitLiteral else .emitMatch) = some bits)
    (ht : s.sinkTakes bits.length = true) :
    ∃ u, PutsOut { s with matchLen := k } u bits ∧
      sequencerStep s = .next { u with replCnt := if k ≤ 1 then 1 else k, advCnt := 0, seq := .adv } := by
  obtain ⟨u, hu, he⟩ := putBits_taken bits { s with matchLen := k } ht
  have hk : u.matchLen = k := by rw [he.frame]
  refine ⟨u, he.putsOut, ?_⟩
  rw [sequencerStep_emit hs hq, emitStep_emission ha (by rw [hc]; exact hem), hc, hu, Res.ret_andThen, Res.ret_outcome, hk]

/-- With something left to put out and a choice that fails a check of R205, the clamp stays and the fault is taken (R244). -/
theorem sequencerStep_check (hs : s.stopped = false) (hq : s.seq = .emit) (ha : s.aheadBytes ≠ 0)
    (hc : s.clamp = { s with matchLen := k })
    (hem : State.emission { s with matchLen := k } (if k ≤ 1 then .emitLiteral else .emitMatch) = none) :
    sequencerStep s =
      .next { s with matchLen := k, cause := .invariantViolation, fault := true, seq := .fault } := by
  rw [sequencerStep_emit hs hq, emitStep_check ha (by rw [hc]; exact hem), hc, Res.stop_outcome, State.enterFault]

/-- Settles O42: the loop test ends the step; otherwise the length after the clamp decides between the record of a literal, the record
of a match (`sequencerStep_record`), and a match that fails a check (`sequencerStep_check`). -/
theorem emitStepClampsAndChooses : Obligations.EmitStepClampsAndChooses := by
  intro s hs hq m
  have hc : s.clamp = { s with matchLen := m } := clamp_eq s
  refine ⟨fun ha => ?_, fun ha hm ht => ?_, fun ha hm h17 hp ht => ?_, fun ha hm hbad => ?_⟩
  · rw [sequencerStep_emit hs hq, emitStep, if_pos ha, Res.ret_outcome]
  · obtain ⟨u, hu, hx⟩ := sequencerStep_record (bits := literalBits (s.byteAt s.winPos)) hs hq ha hc (by rw [if_pos hm]; rfl) ht
    exact ⟨u, hu, by rw [hx, if_pos hm]⟩
  · have hm' : ¬ m ≤ 1 := BitVec.not_le.mpr hm
    have hpass : ¬ (s.matchPos = 0 ∨ 17 < m) := not_or.mpr ⟨hp, BitVec.not_lt.mpr h17⟩
    obtain ⟨u, hu, hx⟩ := sequencerStep_record (bits := matchBits s.matchPos (lengthField m)) hs hq ha hc
      (by rw [if_neg hm']; exact if_neg hpass) ht
    exact ⟨u, hu, by rw [hx, if_neg hm']⟩
  · exact sequencerStep_check hs hq ha hc (by rw [if_neg (BitVec.not_le.mpr hm)]; exact if_pos hbad.symm)

/-! ## The step -/

theorem step_of_quiet (h : s.raised = .quiet) : step s = sequencerStep s.dropRequest := by
  rw [step, h]

/-- A request that decodes is taken off the queue, and its instruction is performed or not (R200, notes/assumptions/16.md). -/
theorem step_of_decode (h : decode s.raised = .ok i) :
    step s = if performs i s then exec i s.dropRequest else .next s.dropRequest := by
  unfold step
  split
  · next hquiet => rw [hquiet] at h; cases h
  · rw [h]

theorem step_of_decode_error {e : DecodeError} (hne : s.raised ≠ .quiet) (h : decode s.raised = .error e) :
    step s = .refused (.badRequest e) := by
  unfold step
  split
  · next hquiet => exact absurd hquiet hne
  · rw [h]

/-- A running block performs everything, a stopped one Reset only (R138, R212, R246). -/
theorem performs_iff : performs i s = true ↔ s.stopped = false ∨ i = .reset := by
  simp [performs]

/-- Settles O53: the request is quiet, decodes or does not decode; `performs_iff` says which instructions are performed. -/
theorem stepRunsTheRaisedInstruction : Obligations.StepRunsTheRaisedInstruction := by
  refine ⟨fun s i h hp => ?_, fun s i h hs hi => ?_, fun s => step_of_quiet, fun s e => step_of_decode_error, fun s i => ⟨rfl, rfl⟩⟩
  · rw [step_of_decode h, if_pos (performs_iff.mpr hp)]
  · have hn : ¬ performs i s = true := by
      rw [performs_iff, hs]
      exact not_or.mpr ⟨Bool.noConfusion, hi⟩
    rw [step_of_decode h, if_neg hn]

end Sys2Proof.Machine
end

section
/-! PROOF. How the three faults end the operation that raises them (60_exceptions.md R242 to R246, R248). -/

namespace Sys2Proof.Machine

variable {s : State}

/-! ## A refused bit (R242) -/

/-- The clamp leaves the sink's answers. -/
theorem clamp_sinkRefusesAt (s : State) (m : Nat) : s.clamp.sinkRefusesAt m = s.sinkRefusesAt m := by
  rw [clamp_eq]
  rfl

/-- A record of `S_EMIT` the sink refuses a bit of: the clamp stays, the counters after the emission are not written. -/
theorem sequencerStep_abortsAt {bits : List Bool} {m : Nat} (hs : s.stopped = false) (hq : s.seq = .emit) (ha : s.aheadBytes ≠ 0)
    (hem : s.clamp.emission (if s.clamp.matchLen ≤ 1 then .emitLiteral else .emitMatch) = some bits) (hm : m < bits.length)
    (hr : s.sinkRefusesAt m = true) : ∃ t, sequencerStep s = .next t ∧ AbortsAt s.clamp t bits m := by
  obtain ⟨u, hu, hx⟩ := putBits_refused bits m s.clamp hm ((clamp_sinkRefusesAt s m).trans hr)
  refine ⟨u.bitRefused (bits.getD m false), ?_, u, hu.putsOut, rfl⟩
  rw [sequencerStep_emit hs hq, emitStep_emission ha hem, hx, Res.stop_andThen, Res.stop_outcome]

/-- Settles O22: an instruction that emits by `exec_abortsAt`, the step in `S_EMIT` by `sequencerStep_abortsAt`. -/
theorem refusedBitEndsTheStep : Obligations.RefusedBitEndsTheStep :=
  ⟨fun _ _ _ _ => exec_abortsAt, fun _ _ _ => sequencerStep_abortsAt⟩

/-! ## A read error (R243) -/

theorem readByte_err (hn : s.nextInput = some .err) :
    readByte s = .stop ((s.issueRead.record (.read .err)).enterFault .inputReadError) := by
  rw [readByte, hn, raise]

theorem prefill_err (ha : s.aheadBytes < 17) (he : s.eos = false) (hn : s.nextInput = some .err) :
    prefill s = .stop ((s.issueRead.record (.read .err)).enterFault .inputReadError) := by
  rw [prefill, if_pos ⟨ha, he⟩, readByte_err hn, Res.stop_andThen]

/-- After a delete that returned, a read error ends the advance: the delete stays, what follows the read is not done. -/
theorem advance_err {u : State} (hd : deleteNode (s.winPos + 17) s = .ret () u) (hn : u.nextInput = some .err) :
    advance s = .stop ((u.issueRead.record (.read .err)).enterFault .inputReadError) := by
  rw [advance, fillSlot_eq, hd, Res.ret_andThen, readByte_err hn, Res.stop_andThen]

/-- Settles O40: `prefill_err` and `advance_err`; the delete leaves the input port and the counts of the reads (`TreeOnly`). -/
theorem readErrorAborts : Obligations.ReadErrorAborts := by
  refine ⟨fun s ha he hn => ?_, fun s u hd hf hn => ?_⟩
  · exact congrArg (Res.outcome · fun _ t => t) (prefill_err ha he hn)
  · obtain ⟨hx, ⟨m, a, b, c, rfl⟩, -⟩ := deleteNode_returns hd hf
    exact congrArg (Res.outcome · fun _ t => t) (advance_err hx hn)

/-! ## The checks (R244) -/

/-- The fault of a failed check, taken before any transaction of the operation. -/
theorem violation_of_enterFault {o : Host.Outcome State Fault Refusal} {u : State} (ho : o = .next (u.enterFault .invariantViolation))
    (he : u.events = s.events) :
    ∃ t, o = .next t ∧ t.cause = .invariantViolation ∧ t.fault = true ∧ t.seq = .fault ∧ t.events = s.events :=
  ⟨_, ho, rfl, rfl, rfl, he⟩

/-- Both checks of AddNode: nothing but the scratch register `testNode` is written before them (R182). -/
theorem exec_addNode_raises {n : Pos} (h0 : n ≠ 0) (h : (s.nodeAt (posToNode n)).parent ≠ 0 ∨ (s.nodeAt 1024).largeChild = 0) :
    ∃ k, exec (.addNode n) s = .next (State.enterFault { s with testNode := k } .invariantViolation) := by
  obtain ⟨-, hlive, hempty⟩ := addNodeGuards
  by_cases hp : (s.nodeAt (posToNode n)).parent = 0
  · exact ⟨0, hempty s n h0 hp (h.resolve_left (not_not.mpr hp))⟩
  · exact ⟨s.testNode, hlive s n h0 hp⟩

/-- Both checks of EmitMatch (R205). -/
theorem exec_emitMatch_raises (h : s.matchPos = 0 ∨ 17 < s.matchLen) :
    exec .emitMatch s = .next (s.enterFault .invariantViolation) :=
  emitMatchPutsOutThePair.1 s h

/-- Settles O38, check by check: each raises, and what is written before it (ContractNode, ReplaceNode, AddNode) is no transaction. -/
theorem checksRaise : Obligations.ChecksRaise := by
  rintro s i (⟨o, n, rfl, hl, hs⟩ | ⟨o, n, rfl, hs, hl⟩ | ⟨n, rfl, hc⟩ | ⟨n, rfl, h0, hp⟩ | ⟨n, rfl, h0, hr⟩ | ⟨rfl, hm⟩ | ⟨rfl, hp⟩)
  · exact violation_of_enterFault (congrArg (Res.outcome · fun _ t => t) (contractNode_raises hl hs)) rfl
  · exact violation_of_enterFault (congrArg (Res.outcome · fun _ t => t) (replaceNode_raises hs hl)) rfl
  · exact violation_of_enterFault (congrArg (Res.outcome · fun r t => { t with result := .node r }) (findNextNode_raises hc)) rfl
  · obtain ⟨k, hx⟩ := exec_addNode_raises h0 (.inl hp)
    exact violation_of_enterFault hx rfl
  · obtain ⟨k, hx⟩ := exec_addNode_raises h0 (.inr hr)
    exact violation_of_enterFault hx rfl
  · exact violation_of_enterFault (exec_emitMatch_raises (.inr hm)) rfl
  · exact violation_of_enterFault (exec_emitMatch_raises (.inl hp)) rfl

/-! ## After a fault (R246, R248) -/

theorem stopped_of_fault (h : s.seq = .fault) : s.stopped = true := by
  simp [State.stopped, h]

/-- Settles O54: a raise is a stop, which nothing follows; a block in `S_FAULT` is stopped (`step_of_stopped`). -/
theorem faultStopsTheBlock : Obligations.FaultStopsTheBlock :=
  ⟨fun c s k => Res.stop_andThen (s.enterFault c) k, fun _ _ hq => step_of_stopped (stopped_of_fault hq)⟩

end Sys2Proof.Machine
end

section
/-! PROOF. The reset state, row by row of the table of R270 (70_reset_and_hazards.md R270, R271). -/

namespace Sys2Proof.Machine

variable {s t : State}

/-- Reset leaves what `resetBlock` makes of a state, and the reset state is what it makes of itself (R138, R271). -/
theorem eq_resetBlock (h : t = State.reset ∨ ∃ s, exec .reset s = .next t) : ∃ s, t = State.resetBlock s := by
  obtain rfl | ⟨s, hx⟩ := h
  · exact ⟨State.reset, rfl⟩
  · exact ⟨s, Host.Outcome.next.inj (hx.symm.trans (resetFromAnyState.1 s))⟩

theorem resetBlock_byteAt (s : State) (a : Pos) : s.resetBlock.byteAt a = 0 := Memory.read_nil a

theorem resetBlock_nodeAt (s : State) (n : NodeIx) : s.resetBlock.nodeAt n = NodeRec.zero := NodeMemory.read_nil n

/-- The status word is zero when the sequencer is idle and every flag is clear (R42). -/
theorem statusWord_eq_zero (hseq : s.seq = .idle) (heos : s.eos = false) (hdone : s.done = false) (hfault : s.fault = false)
    (hcause : s.cause = .noFault) : s.statusWord = 0 := by
  rw [State.statusWord, hseq, heos, hdone, hfault, hcause]
  rfl

/-- Settles O8: Reset writes each register to its value of the table and empties both memories, and an empty memory reads as zero;
the status word follows from the flags. -/
theorem resetState : Obligations.ResetState := by
  intro t ht
  obtain ⟨s, rfl⟩ := eq_resetBlock ht
  refine ⟨?driver, ?scratch, ?flags, resetBlock_byteAt s, resetBlock_nodeAt s, ?sink, statusWord_eq_zero rfl rfl rfl rfl rfl⟩
  case driver => exact ⟨rfl, rfl, rfl, rfl, rfl, rfl, rfl⟩
  case scratch => exact ⟨rfl, rfl, rfl, rfl, rfl, rfl, rfl, rfl⟩
  case flags => exact ⟨rfl, rfl, rfl, rfl⟩
  case sink => exact ⟨rfl, rfl, rfl, rfl⟩

end Sys2Proof.Machine
end
